-- ==== Sys2Proof/Word.lean ====
section
/-! DEFINITION. The word types of the PBKDF2 engine (00_scope.md R11, R12). -/

namespace Sys2Proof

/-- One byte of a byte sequence (R12). -/
abbrev Byte := BitVec 8

/-- A register, an argument or a hash word: 32 bits. -/
abbrev Word := BitVec 32

/-- A 64-bit quantity: the message bit count (R37) and the XTS data-unit number (R228). -/
abbrev DWord := BitVec 64

/-- A 16-byte cipher block, in buffer order (R10, R205). -/
abbrev Block := Vector Byte 16

/-- A 32-byte AES-256 key, in buffer order (R10, R205). -/
abbrev Key := Vector Byte 32

end Sys2Proof
end

