-- ==== Sys2Proof/Syntax.lean ====
section
/-! DEFINITION. The commands of the engine: one constructor for each row of spec/opcode_table.json (R93). The
operands that a command takes from the latched arguments (R97) are no part of the command word, so they are no
fields here. -/

namespace Sys2Proof

/-- The direction a key slot is keyed for (R41, R96). -/
inductive CipherMode where
  | enc
  | dec
  deriving DecidableEq, Repr

/-- The two cipher key slots (R200): `slot0` is cipher1, the data cipher; `slot1` is cipher2, the tweak cipher. -/
inductive SlotId where
  | slot0
  | slot1
  deriving DecidableEq, Repr

/-- The 17 commands. `alg` is the ALG field (R94), `mode` the MODE bit (R96), `slot` SEL bit 8 and `mask` SEL as
an erase mask (R95). -/
inductive Instr where
  | nop
  | hashReset (alg : Byte)
  | hashUpdate
  | hashFinal
  | hmacInit (alg : Byte)
  | hmacReset
  | hmacUpdate
  | hmacFinal
  | pbkdf2 (alg : Byte)
  | crcInit
  | crcUpdate
  | cipherKey (alg : Byte) (mode : CipherMode) (slot : SlotId)
  | cipherBlock (slot : SlotId)
  | xtsInit
  | xtsProcess
  | erase (mask : BitVec 4)
  | eraseBuf
  deriving DecidableEq, Repr

end Sys2Proof
end

