-- ==== Sys2Proof/Decode.lean ====
section
/-! DEFINITION. The command decoder (R91-R98), total on every 32-bit word, and the encoder after it. -/

namespace Sys2Proof

/-- Why a word is no command (R98, R263 ILLEGAL_CMD): its OP is not in the opcode map of R93, or its OP is and a
fixed bit (RSV0, RSV1, or a SEL, MODE or ALG bit that the opcode does not use) is set. The engine reports both the
same way (R101). -/
inductive Illegal where
  | unassignedOp
  | fixedBitSet
  deriving DecidableEq, Repr

/-- The OP field (R91). -/
def opField (w : Word) : Byte := w.extractLsb' 0 8
/-- The SEL field (R91). -/
def selField (w : Word) : BitVec 4 := w.extractLsb' 8 4
/-- The MODE field (R91, R96). -/
def modeField (w : Word) : CipherMode := if w.getLsbD 12 then .dec else .enc
/-- The ALG field (R91). -/
def algField (w : Word) : Byte := w.extractLsb' 16 8
/-- SEL as a slot number: bit 8 alone is an operand there (R92, R95). -/
def slotField (w : Word) : SlotId := if w.getLsbD 8 then .slot1 else .slot0

/-- One row of the opcode map: the fixed bits, their values, and the command (R93). -/
structure OpcodeRow where
  mask : Word
  value : Word
  make : Word → Instr

/-- The opcode map of R93, in its order. -/
def opcodeTable : List OpcodeRow :=
  [⟨0xFFFFFFFF, 0x00000000, fun _ => .nop⟩,
   ⟨0xFF00FFFF, 0x00000001, fun w => .hashReset (algField w)⟩,
   ⟨0xFFFFFFFF, 0x00000002, fun _ => .hashUpdate⟩,
   ⟨0xFFFFFFFF, 0x00000003, fun _ => .hashFinal⟩,
   ⟨0xFF00FFFF, 0x00000008, fun w => .hmacInit (algField w)⟩,
   ⟨0xFFFFFFFF, 0x00000009, fun _ => .hmacReset⟩,
   ⟨0xFFFFFFFF, 0x0000000A, fun _ => .hmacUpdate⟩,
   ⟨0xFFFFFFFF, 0x0000000B, fun _ => .hmacFinal⟩,
   ⟨0xFF00FFFF, 0x00000010, fun w => .pbkdf2 (algField w)⟩,
   ⟨0xFFFFFFFF, 0x00000018, fun _ => .crcInit⟩,
   ⟨0xFFFFFFFF, 0x00000019, fun _ => .crcUpdate⟩,
   ⟨0xFF00EEFF, 0x00000020, fun w => .cipherKey (algField w) (modeField w) (slotField w)⟩,
   ⟨0xFFFFFEFF, 0x00000021, fun w => .cipherBlock (slotField w)⟩,
   ⟨0xFFFFFFFF, 0x00000028, fun _ => .xtsInit⟩,
   ⟨0xFFFFFFFF, 0x00000029, fun _ => .xtsProcess⟩,
   ⟨0xFFFFF0FF, 0x00000030, fun w => .erase (selField w)⟩,
   ⟨0xFFFFFFFF, 0x00000031, fun _ => .eraseBuf⟩]

/-- The row's fixed bits stand in `w` as the row has them (R92). -/
def OpcodeRow.fits (w : Word) (r : OpcodeRow) : Bool := w &&& r.mask == r.value

/-- Decoding a command word (R98): the first row whose fixed bits fit. -/
def decode (w : Word) : Except Illegal Instr :=
  match opcodeTable.find? (OpcodeRow.fits w) with
  | some r => .ok (r.make w)
  | none =>
    if opcodeTable.any (fun r => opField w == opField r.value) then .error .fixedBitSet else .error .unassignedOp

/-- The decoder on an instruction of `nbits` bits, bit 0 the least significant bit of the command word, every
bit above `nbits` zero. -/
def decodeTableWord (nbits w : Nat) : Option Instr :=
  match decode (BitVec.ofNat 32 (w % 2 ^ nbits)) with
  | .ok i => some i
  | .error _ => none

/-- A command word from its fields, laid out as R91 draws it: RSV1, ALG, RSV0, MODE, SEL, OP, the reserved fields 0. -/
def commandWord (alg : Byte) (mode : BitVec 1) (sel : BitVec 4) (op : Byte) : Word :=
  ((0 : BitVec 8) ++ alg ++ (0 : BitVec 3) ++ mode ++ sel ++ op : BitVec (8 + 8 + 3 + 1 + 4 + 8))

/-- The MODE bit of a direction (R96). -/
def CipherMode.bit : CipherMode → BitVec 1
  | .enc => 0
  | .dec => 1

/-- The SEL value of a slot (R95). -/
def SlotId.sel : SlotId → BitVec 4
  | .slot0 => 0
  | .slot1 => 1

/-- The command word of a command: OP from R93, its operand fields from R94-R96, every other field 0 (R92). -/
def encode : Instr → Word
  | .nop => commandWord 0 0 0 0x00
  | .hashReset alg => commandWord alg 0 0 0x01
  | .hashUpdate => commandWord 0 0 0 0x02
  | .hashFinal => commandWord 0 0 0 0x03
  | .hmacInit alg => commandWord alg 0 0 0x08
  | .hmacReset => commandWord 0 0 0 0x09
  | .hmacUpdate => commandWord 0 0 0 0x0A
  | .hmacFinal => commandWord 0 0 0 0x0B
  | .pbkdf2 alg => commandWord alg 0 0 0x10
  | .crcInit => commandWord 0 0 0 0x18
  | .crcUpdate => commandWord 0 0 0 0x19
  | .cipherKey alg mode slot => commandWord alg mode.bit slot.sel 0x20
  | .cipherBlock slot => commandWord 0 0 slot.sel 0x21
  | .xtsInit => commandWord 0 0 0 0x28
  | .xtsProcess => commandWord 0 0 0 0x29
  | .erase mask => commandWord 0 0 mask 0x30
  | .eraseBuf => commandWord 0 0 0 0x31

end Sys2Proof
end

