-- ==== Sys2Proof/Machine/Bytes.lean ====
section
/-! DEFINITION. Byte sequences and their conversions to and from words (R11, R12). A byte sequence is a list, indexed
from 0. -/

namespace Sys2Proof.Machine

/-- `zeros(n)` (R12). -/
def zeros (n : Nat) : List Byte := List.replicate n 0

/-- Byte `i` of a sequence; the conversions below use it only on sequences long enough to have it. -/
def byteAt (b : List Byte) (i : Nat) : Byte := b.getD i 0

/-- `le32(b[0..3])`: byte 0 is the least significant (R12). -/
def le32 (b : List Byte) : Word := (byteAt b 3 ++ byteAt b 2 ++ byteAt b 1 ++ byteAt b 0 : BitVec (8 + 8 + 8 + 8))

/-- `be32(b[0..3])`: byte 0 is the most significant (R12). -/
def be32 (b : List Byte) : Word := (byteAt b 0 ++ byteAt b 1 ++ byteAt b 2 ++ byteAt b 3 : BitVec (8 + 8 + 8 + 8))

/-- `le64(b[0..7])` (R12). -/
def le64 (b : List Byte) : DWord := (le32 (b.drop 4) ++ le32 b : BitVec (32 + 32))

/-- `le32_bytes(w)` (R12). -/
def le32Bytes (w : Word) : List Byte :=
  [w.extractLsb' 0 8, w.extractLsb' 8 8, w.extractLsb' 16 8, w.extractLsb' 24 8]

/-- `be32_bytes(w)` (R12). -/
def be32Bytes (w : Word) : List Byte :=
  [w.extractLsb' 24 8, w.extractLsb' 16 8, w.extractLsb' 8 8, w.extractLsb' 0 8]

/-- `le64_bytes(w)` (R12). -/
def le64Bytes (w : DWord) : List Byte := le32Bytes (w.extractLsb' 0 32) ++ le32Bytes (w.extractLsb' 32 32)

/-- Bytewise exclusive or of two sequences of one length (R11, R151, R170). -/
def xorBytes (a b : List Byte) : List Byte := List.zipWith (· ^^^ ·) a b

/-- A sequence of `n` bytes as a vector: what the cipher interface takes (R205). -/
def toVec (n : Nat) (b : List Byte) : Vector Byte n := Vector.ofFn fun i => byteAt b i.val

/-- Bytewise exclusive or of two cipher blocks (R222). -/
def xorBlock (a b : Block) : Block := Vector.zipWith (· ^^^ ·) a b

end Sys2Proof.Machine
end

