-- ==== Sys2Proof/Config.lean ====
section
/-! DEFINITION. The configuration arguments, BUF_BYTES with its legal values (R7) and the cipher table (R201); the hash
table (R94); and what the spec leaves to the integrator, the external cipher functions (R8). -/

namespace Sys2Proof.Config

/-- The legal values of BUF_BYTES, the size of the local buffer: the powers of two from 1024 to 32768 (R7). -/
inductive BufSize where
  | b1024
  | b2048
  | b4096
  | b8192
  | b16384
  | b32768
  deriving DecidableEq, Repr

/-- BUF_BYTES as a number of bytes (R7). -/
def BufSize.bytes : BufSize → Nat
  | .b1024 => 1024
  | .b2048 => 2048
  | .b4096 => 4096
  | .b8192 => 8192
  | .b16384 => 16384
  | .b32768 => 32768

/-- One row of the hash part of the algorithm table (R94). -/
structure HashRow where
  alg : Byte
  blockBytes : Nat
  hashBytes : Nat
  iterations : Nat
  deriving DecidableEq, Repr

/-- The hash algorithms of R94: RIPEMD-160 alone. -/
def hashTable : List HashRow := [⟨0x01, 64, 20, 2000⟩]

/-- The functions column of the cipher table (R201): which pair of external functions a row names. -/
inductive CipherCore where
  /-- `AES256_Enc` and `AES256_Dec`. -/
  | aes256
  /-- Another pair, by a number: no row of this hardware names one (log entry 16). -/
  | other (n : Nat)
  deriving DecidableEq, Repr

/-- One row of the cipher algorithm table (R201). A slot holds 32 key bytes (R41), so no row has a longer key. -/
structure CipherRow where
  alg : Byte
  blockBytes : Nat
  keyBytes : Fin 33
  core : CipherCore
  deriving DecidableEq, Repr

/-- The row of AES-256 (R201). -/
def aes256Row : CipherRow := ⟨0x01, 16, 32, .aes256⟩

/-- The configuration arguments of the model. -/
structure Params where
  /-- BUF_BYTES (R7). -/
  bufSize : BufSize
  /-- The cipher algorithm table, indexed by ALG (R201, D22). -/
  ciphers : List CipherRow
  deriving DecidableEq, Repr

/-- The values that this hardware takes: 4096 bytes (R7), and AES-256 as the one cipher (R201). -/
def hardware : Params := ⟨.b4096, [aes256Row]⟩

/-- The external AES-256 core (R8, R207): for each key a permutation of the 16-byte blocks and nothing more.
DEDUCED, log entry 4: two total functions on the finite set of blocks with `Dec k (Enc k b) = b` are exactly a
permutation and its inverse, so this says what R8 assumes, all of it and no more. -/
opaque aes256 : Key → Equiv.Perm Block

/-- `AES256_Enc` (R8). -/
def aes256Enc (k : Key) (b : Block) : Block := aes256 k b

/-- `AES256_Dec` (R8). -/
def aes256Dec (k : Key) (b : Block) : Block := (aes256 k).symm b

/-- The encrypting functions of the other pairs; nothing is assumed of them (log entry 16). -/
opaque otherEnc : Nat → Key → Block → Block

/-- The decrypting functions of the other pairs; nothing is assumed of them (log entry 16). -/
opaque otherDec : Nat → Key → Block → Block

/-- The encrypting function that a row names (R201). -/
def CipherCore.enc : CipherCore → Key → Block → Block
  | .aes256 => aes256Enc
  | .other n => otherEnc n

/-- The decrypting function that a row names (R201). -/
def CipherCore.dec : CipherCore → Key → Block → Block
  | .aes256 => aes256Dec
  | .other n => otherDec n

end Sys2Proof.Config
end

