-- ==== Sys2Proof/Machine/State.lean ====
section
/-! DEFINITION. The state of the engine (R20), its value after reset (R49), and the reasons a step can stop: there
are none the spec gives (R66, R101, R260). -/

namespace Sys2Proof.Machine

/-- Why the machine could stop with a fault: it never does. No host transaction errors (R66), every command word has
a defined outcome (R101), and every error of a command is a completion code, not a trap (R260). So the type has no
constructor, nobody raises it, and that is safe. -/
inductive Fault where
  deriving DecidableEq, Repr

/-- Why the machine could refuse an instruction. -/
inductive Refusal where
  /-- An instruction of the opcode table that has no meaning yet, by its mnemonic. Raised only by an arm of `exec` that
  stands for such an instruction; there is none left. Safe: nothing is claimed of a refused instruction. -/
  | notModelled (mnemonic : String)
  deriving DecidableEq, Repr

/-- The completion codes of STATUS.ERRCODE (R263). Their byte values are `Code.byte`. -/
inductive Code where
  | ok
  | illegalCmd
  | badAlg
  | hashState
  | notKeyed
  | xtsMismatch
  | xtsNotReady
  | badArg
  | badLength
  | badRange
  | overlap
  deriving DecidableEq, Repr

/-- The engine phase (R42). -/
inductive Phase where
  | idle
  | busy
  | resetting
  deriving DecidableEq, Repr

/-- The five-word chaining state `H[0..4]` of the hash core (R37, R120). -/
structure Chain where
  h0 : Word
  h1 : Word
  h2 : Word
  h3 : Word
  h4 : Word
  deriving DecidableEq, Repr

/-- `H = [0,0,0,0,0]` (R38). -/
def Chain.zero : Chain := ⟨0, 0, 0, 0, 0⟩

/-- A hash context (R37). -/
structure HashCtx where
  active : Bool
  chain : Chain
  blk : List Byte
  nbits : DWord
  deriving DecidableEq, Repr

/-- The IDLE context, every field zero (R38). -/
def HashCtx.idle : HashCtx := ⟨false, Chain.zero, [], 0⟩

/-- An HMAC context (R39). -/
structure HmacCtx where
  keyed : Bool
  k0 : List Byte
  inner : HashCtx
  deriving DecidableEq, Repr

/-- The UNKEYED context: `k0` 64 zero bytes, `inner` IDLE (R39). -/
def HmacCtx.unkeyed : HmacCtx := ⟨false, List.replicate 64 0, HashCtx.idle⟩

/-- A cipher key slot (R41). -/
structure Slot where
  loaded : Bool
  alg : Byte
  mode : CipherMode
  key : Key
  deriving DecidableEq, Repr

/-- An unloaded slot (R41). -/
def Slot.empty : Slot := ⟨false, 0x00, .enc, Vector.replicate 32 0⟩

/-- The per-command scratch (R44, R171, R229): PBKDF2's private HMAC instance, its U value and T accumulator, the
pre-hash of a long key or password, the XTS tweak register and the doubler's working value. The widths are the
model's reading (DESIGN CHOICE, log entry 9). -/
structure Scratch where
  hmac : HmacCtx
  u : List Byte
  t : List Byte
  prehash : HashCtx
  tweak : List Byte
  doubler : BitVec 128
  deriving DecidableEq, Repr

/-- Zeroized scratch (R44). -/
def Scratch.zero : Scratch :=
  ⟨HmacCtx.unkeyed, List.replicate 20 0, List.replicate 20 0, HashCtx.idle, List.replicate 16 0, 0⟩

/-- What can happen next at the engine's ports or by the scheduler (R16, R73, R271). -/
inductive Event where
  /-- A host read transaction at a byte offset of the window (R63). -/
  | hostRead (offset : BitVec 16)
  /-- A host write transaction: offset, data, byte strobes (R63). -/
  | hostWrite (offset : BitVec 16) (data : Word) (strb : BitVec 4)
  /-- The engine's turn: it completes the command in flight, or ends the clearing sequence (R262, R293). -/
  | engine
  /-- `rst_n` goes low (R290). -/
  | rstLow
  /-- `rst_n` goes high (R291, R293). -/
  | rstHigh
  deriving DecidableEq, Repr

/-- The local buffer: address and byte pairs in canonical form (`Memory.wf`), R45, R60. -/
abbrev Memory := List Host.Cell

/-- The configuration arguments, the state of the engine (R20), and after it what stands outside: the pin `rst_n`, the events
to come and the word the last host read returned. -/
structure State where
  /-- The configuration arguments, BUF_BYTES (R7) and the cipher table (R201): what the engine is built with, which no step
  changes (log entries 8 and 16). -/
  config : Config.Params
  /-- CTRL.IRQ_EN (R25). -/
  irqEn : Bool
  /-- STATUS.DONE (R26). -/
  done : Bool
  /-- STATUS.ERR (R26). -/
  err : Bool
  /-- STATUS.OVERRUN (R26). -/
  overrun : Bool
  /-- STATUS.LOCKERR (R26). -/
  lockerr : Bool
  /-- STATUS.ERRCODE (R26, R263). -/
  errcode : Code
  /-- ARG0-ARG7 (R31). -/
  args : Vector Word 8
  /-- RESULT0-RESULT2 (R32). -/
  result0 : Word
  result1 : Word
  result2 : Word
  /-- The engine phase (R42); STATUS.BUSY and STATUS.RESETTING are views of it. -/
  phase : Phase
  /-- The command latch (R42): the word that CMD reads (R28), and the arguments of the command in flight. -/
  latchWord : Word
  latchArg : Vector Word 8
  /-- The hash context (R37). -/
  hctx : HashCtx
  /-- The HMAC context (R39). -/
  mctx : HmacCtx
  /-- The CRC register, before the final complement (R40). -/
  crc : Word
  /-- The cipher key slots (R41). -/
  slot0 : Slot
  slot1 : Slot
  /-- The XTS binding flag (R43). -/
  xtsBound : Bool
  /-- The per-command scratch (R44). -/
  scratch : Scratch
  /-- The local buffer (R45). -/
  buf : Memory
  /-- The level of the pin `rst_n` (R16). -/
  rstN : Bool
  /-- The model's own: the events to come, first one first (R73; log entries 1, 2). -/
  pending : List Event
  /-- The model's own: `h_rdata` of the last host read (R16; log entry 3). -/
  rdata : Word
  deriving DecidableEq, Repr

/-- The engine of the given configuration right after the reset sequence ends (R49). -/
def State.resetOf (c : Config.Params) : State where
  config := c
  irqEn := false
  done := false
  err := false
  overrun := false
  lockerr := false
  errcode := .ok
  args := Vector.replicate 8 0
  result0 := 0
  result1 := 0
  result2 := 0
  phase := .idle
  latchWord := 0
  latchArg := Vector.replicate 8 0
  hctx := HashCtx.idle
  mctx := HmacCtx.unkeyed
  crc := 0xFFFFFFFF
  slot0 := Slot.empty
  slot1 := Slot.empty
  xtsBound := false
  scratch := Scratch.zero
  buf := []
  rstN := true
  pending := []
  rdata := 0

/-- This hardware right after the reset sequence ends: its buffer is 4096 bytes and its one cipher AES-256 (R7, R49, R201). -/
def State.reset : State := State.resetOf Config.hardware

end Sys2Proof.Machine
end

