-- ==== Sys2Proof/Machine/Flags.lean ====
section
/-! DEFINITION. The flags: the byte of each completion code, the STATUS, CTRL and CTX_STATUS words as software reads
them, the write-1-to-clear rule and the interrupt line. -/

namespace Sys2Proof.Machine

/-- The value of each completion code in STATUS.ERRCODE (R263). -/
def Code.byte : Code → Byte
  | .ok => 0x00
  | .illegalCmd => 0x01
  | .badAlg => 0x02
  | .hashState => 0x03
  | .notKeyed => 0x04
  | .xtsMismatch => 0x05
  | .xtsNotReady => 0x06
  | .badArg => 0x07
  | .badLength => 0x08
  | .badRange => 0x09
  | .overlap => 0x0A

/-- A flag as one bit of a word. -/
def bit (b : Bool) : BitVec 1 := BitVec.ofBool b

/-- STATUS.BUSY: the phase is BUSY or RESETTING (R42). -/
def State.isBusy (s : State) : Bool := s.phase != .idle

/-- STATUS.RESETTING: the phase is RESETTING (R42). -/
def State.isResetting (s : State) : Bool := s.phase == .resetting

/-- The STATUS word (R26): ERRCODE in bits 15:8, then RESETTING, LOCKERR, OVERRUN, ERR, DONE, BUSY from bit 5 down. -/
def statusWord (s : State) : Word :=
  ((0 : BitVec 16) ++ s.errcode.byte ++ (0 : BitVec 2) ++ bit s.isResetting ++ bit s.lockerr ++ bit s.overrun
    ++ bit s.err ++ bit s.done ++ bit s.isBusy : BitVec (16 + 8 + 2 + 1 + 1 + 1 + 1 + 1 + 1))

/-- The CTRL word (R25): IRQ_EN in bit 0, every other bit reads 0. -/
def ctrlWord (s : State) : Word := ((0 : BitVec 31) ++ bit s.irqEn : BitVec (31 + 1))

/-- A slot's mode bit: 1 for DEC (R34, R41). -/
def Slot.isDec (k : Slot) : Bool := k.mode == .dec

/-- The CTX_STATUS word (R34). -/
def ctxStatusWord (s : State) : Word :=
  ((0 : BitVec 23) ++ bit s.xtsBound ++ bit s.slot1.isDec ++ bit s.slot1.loaded ++ bit s.slot0.isDec
    ++ bit s.slot0.loaded ++ (0 : BitVec 2) ++ bit s.mctx.keyed ++ bit s.hctx.active
    : BitVec (23 + 1 + 1 + 1 + 1 + 1 + 2 + 1 + 1))

/-- A full-strobe write of `v` to STATUS: write 1 to clear DONE, ERR, OVERRUN, LOCKERR, and nothing else (R27). It
is how a host acknowledges a completion (R273): the nearest thing here to a return from an exception. -/
def clearFlags (v : Word) (s : State) : State :=
  { s with
    done := s.done && !v.getLsbD 1
    err := s.err && !v.getLsbD 2
    overrun := s.overrun && !v.getLsbD 3
    lockerr := s.lockerr && !v.getLsbD 4 }

/-- The level output `irq` (R47, R270): derived at every instant, never stored. -/
def State.irq (s : State) : Bool := s.irqEn && s.done

end Sys2Proof.Machine
end

