-- ==== Sys2Proof/Machine/Ops.lean ====
section
/-! DEFINITION. The shared operations: the buffer memory (R13, R45, R60), the acceptance of a command (R261), its
completion with a code, which is also how it reports an error (R262, R264), and the two steps of a reset (R291, R293). -/

namespace Sys2Proof.Machine

/-- What a buffer byte that no entry lists reads as: the reset contents of Buf (R45, R49). -/
def Memory.unlisted : Byte := 0x00

/-- `Buf[a]` (R13). -/
def Memory.get : Memory → Nat → Byte
  | [], _ => Memory.unlisted
  | (b, v) :: m, a => if a = b then v else Memory.get m a

/-- The memory with `Buf[a] <- v`: sorted by address, and with no entry that holds the unlisted value. -/
def Memory.put : Memory → Nat → Byte → Memory
  | [], a, v => if v = Memory.unlisted then [] else [(a, v)]
  | (b, w) :: m, a, v =>
    if a < b then (if v = Memory.unlisted then (b, w) :: m else (a, v) :: (b, w) :: m)
    else if a = b then (if v = Memory.unlisted then m else (a, v) :: m)
    else (b, w) :: Memory.put m a v

/-- `MemRead(addr, n)` (R13). -/
def Memory.read (m : Memory) (a : Nat) : Nat → List Byte
  | 0 => []
  | n + 1 => Memory.get m a :: Memory.read m (a + 1) n

/-- `MemWrite(addr, len(v), v)` (R13). -/
def Memory.write (m : Memory) (a : Nat) : List Byte → Memory
  | [] => m
  | v :: vs => Memory.write (Memory.put m a v) (a + 1) vs

/-- The canonical form: addresses strictly rising, none below `lo`, and no entry that holds the unlisted value. -/
def Memory.wfFrom : Nat → Memory → Bool
  | _, [] => true
  | lo, (a, v) :: m => decide (lo ≤ a) && decide (v ≠ Memory.unlisted) && Memory.wfFrom (a + 1) m

/-- The canonical form of the buffer memory. -/
def Memory.wf (m : Memory) : Bool := Memory.wfFrom 0 m

/-- Every listed address exists in a Buf of size `b` (R60). -/
def Memory.inBuf (b : Config.BufSize) (m : Memory) : Bool := m.all fun c => decide (c.1 < b.bytes)

/-- Acceptance of the command word `w` (R28, R261). -/
def accepted (w : Word) (s : State) : State :=
  { s with latchWord := w, latchArg := s.args, phase := .busy, done := false, err := false, errcode := .ok }

/-- The state after the completion step with a code (R262): STATUS says how the command ended, the scratch is zero,
and the phase is IDLE. -/
def finished (c : Code) (s : State) : State :=
  { s with errcode := c, err := c != .ok, done := true, phase := .idle, scratch := Scratch.zero }

/-- `complete(code)`, the one way a command ends (R13, R262). -/
def complete (c : Code) (s : State) : Host.Outcome State Fault Refusal := .next (finished c s)

/-- `raise E`: the command is abandoned with no effect on any state other than STATUS, and completes with E (R13,
R264). It is applied to the state before any effect of the command. -/
def raiseError (c : Code) (s : State) : Host.Outcome State Fault Refusal := complete c s

/-- The start of a reset (R290, R291): the phase is RESETTING, IRQ_EN is 0, the command in flight is abandoned, and
STATUS reads 0x21, so every other flag of it is 0 (DEDUCED, log entry 6). Everything else is hidden until the end of
the reset overwrites it (R292, R293; log entry 7). -/
def resetStarted (s : State) : State :=
  { s with
    phase := .resetting, irqEn := false, done := false, err := false, overrun := false, lockerr := false, errcode := .ok }

/-- The end of a reset (R291, R293): every piece of the engine's state has its value of R49. The configuration, the pin, the
events to come and the word last read are no part of that state and stay. -/
def resetEnded (s : State) : State :=
  { State.resetOf s.config with rstN := s.rstN, pending := s.pending, rdata := s.rdata }

end Sys2Proof.Machine
end

