-- ==== Sys2Proof/Machine/Operands.lean ====
section
/-! DEFINITION. The operand forms: the latched arguments (R42, R97), the range and overlap predicates (R99, R100), and
a buffer range as source or destination (R13). -/

namespace Sys2Proof.Machine

/-- `ARG[i]`, the latched copy of argument register `i`, as an exact unsigned integer (R13, R42, R97). -/
def arg (s : State) (i : Fin 8) : Nat := s.latchArg[i].toNat

/-- `{ARG3, ARG2}`, the 64-bit start data unit of XTS_PROCESS (R97). -/
def startUnit (s : State) : DWord := (s.latchArg[3] ++ s.latchArg[2] : BitVec (32 + 32))

/-- `inrange(a, n)` over BUF_BYTES = `b`, on exact integers (R7, R99). -/
def inRange (b : Config.BufSize) (a n : Nat) : Bool := decide (a ≤ b.bytes) && decide (n ≤ b.bytes - a)

/-- `overlap(a, n, b, m)` (R100). -/
def overlaps (a n b m : Nat) : Bool := decide (n > 0) && decide (m > 0) && decide (a < b + m) && decide (b < a + n)

/-- `MemRead(a, n)` on the buffer of a state (R13). -/
def memRead (s : State) (a n : Nat) : List Byte := s.buf.read a n

/-- `MemWrite(a, len(v), v)` on the buffer of a state (R13). -/
def memWrite (s : State) (a : Nat) (v : List Byte) : State := { s with buf := s.buf.write a v }

/-- The slot that SEL bit 8 selects (R95, R200). -/
def State.slot (s : State) : SlotId → Slot
  | .slot0 => s.slot0
  | .slot1 => s.slot1

/-- The state with a slot replaced. -/
def State.setSlot (s : State) (n : SlotId) (k : Slot) : State :=
  match n with
  | .slot0 => { s with slot0 := k }
  | .slot1 => { s with slot1 := k }

end Sys2Proof.Machine
end

