-- ==== Sys2Proof/Machine/Crc.lean ====
section
/-! DEFINITION. The CRC-32 generator (R190-R195): the algorithm and the commands CRC_INIT, CRC_UPDATE. -/

namespace Sys2Proof.Machine

/-- The initial register value and the final exclusive-or value (R190). -/
def crcInitial : Word := 0xFFFFFFFF

/-- One shift of the register, with the reflected polynomial when bit 0 falls out (R190). -/
def crcShift (c : Word) : Word := if c.getLsbD 0 then (c >>> 1) ^^^ 0xEDB88320 else c >>> 1

/-- `n` shifts. -/
def crcShifts : Nat → Word → Word
  | 0, c => c
  | n + 1, c => crcShifts n (crcShift c)

/-- `crc_byte(crc, b)`: the byte enters at bits 7:0, then eight shifts (R190). -/
def crcByte (c : Word) (b : Byte) : Word := crcShifts 8 (c ^^^ b.zeroExtend 32)

/-- `crc_bytes(crc, data)` (R190). -/
def crcBytes (c : Word) (data : List Byte) : Word := data.foldl crcByte c

/-- `CRC32(M)` (R190). -/
def crc32 (m : List Byte) : Word := crcBytes crcInitial m ^^^ 0xFFFFFFFF

/-- CRC_INIT (R192). -/
def execCrcInit (s : State) : Host.Outcome State Fault Refusal := complete .ok { s with crc := crcInitial }

/-- CRC_UPDATE (R193): ARG0 = src, ARG1 = len. -/
def execCrcUpdate (s : State) : Host.Outcome State Fault Refusal :=
  if !inRange s.config.bufSize (arg s 0) (arg s 1) then raiseError .badRange s
  else complete .ok { s with crc := crcBytes s.crc (memRead s (arg s 0) (arg s 1)) }

end Sys2Proof.Machine
end

