-- ==== Sys2Proof/Machine/Control.lean ====
section
/-! DEFINITION. The control commands NOP, ERASE, ERASE_BUF (R250-R253). -/

namespace Sys2Proof.Machine

/-- NOP (R250). -/
def execNop (s : State) : Host.Outcome State Fault Refusal := complete .ok s

/-- The contexts that mask `m` selects, zeroized: bit 0 the hash context, bit 1 the HMAC context, bit 2 both slots and
the XTS binding, bit 3 the CRC register (R95, R251). -/
def erased (m : BitVec 4) (s : State) : State :=
  { s with
    hctx := if m.getLsbD 0 then HashCtx.idle else s.hctx
    mctx := if m.getLsbD 1 then HmacCtx.unkeyed else s.mctx
    slot0 := if m.getLsbD 2 then Slot.empty else s.slot0
    slot1 := if m.getLsbD 2 then Slot.empty else s.slot1
    xtsBound := if m.getLsbD 2 then false else s.xtsBound
    crc := if m.getLsbD 3 then crcInitial else s.crc }

/-- ERASE (R251). -/
def execErase (m : BitVec 4) (s : State) : Host.Outcome State Fault Refusal := complete .ok (erased m s)

/-- ERASE_BUF (R252): ARG0 = addr, ARG1 = len. -/
def execEraseBuf (s : State) : Host.Outcome State Fault Refusal :=
  if !inRange s.config.bufSize (arg s 0) (arg s 1) then raiseError .badRange s
  else complete .ok (memWrite s (arg s 0) (zeros (arg s 1)))

end Sys2Proof.Machine
end

