-- ==== Sys2Proof/WellFormed.lean ====
section
/-! DEFINITION. Which commands name only algorithms that exist (R94). Every field of `Instr` has exactly the
width of its field in the word, so every `Instr` can be encoded; what is left to check is the algorithm id. A
command that fails this check still decodes and still runs: it completes with BAD_ALG (R94, R263; log entry 12). -/

namespace Sys2Proof

/-- `alg` is the id of a hash (R94, kind hash). -/
def legalHash (alg : Byte) : Bool := Config.hashTable.any fun r => r.alg == alg

/-- `alg` is the id of a block cipher: the cipher table `ciphers` lists it (R94, R201). -/
def legalCipher (ciphers : List Config.CipherRow) (alg : Byte) : Bool := ciphers.any fun r => r.alg == alg

/-- The algorithm id is in the legal set of its opcode (R94, column "legal in"; for a cipher, the table of R201). -/
def Instr.wellFormed (ciphers : List Config.CipherRow) : Instr → Bool
  | .hashReset alg => legalHash alg
  | .hmacInit alg => legalHash alg
  | .pbkdf2 alg => legalHash alg
  | .cipherKey alg _ _ => legalCipher ciphers alg
  | .nop => true
  | .hashUpdate => true
  | .hashFinal => true
  | .hmacReset => true
  | .hmacUpdate => true
  | .hmacFinal => true
  | .crcInit => true
  | .crcUpdate => true
  | .cipherBlock _ => true
  | .xtsInit => true
  | .xtsProcess => true
  | .erase _ => true
  | .eraseBuf => true

end Sys2Proof
end

