-- ==== Sys2Proof/Machine/Hash.lean ====
section
/-! DEFINITION. The RIPEMD-160 hash core (R120-R135): the compression function, streaming and finalisation, and the
commands HASH_RESET, HASH_UPDATE, HASH_FINAL. -/

namespace Sys2Proof.Machine

/-- The initial chaining value (R122). -/
def Chain.iv : Chain := ⟨0x67452301, 0xEFCDAB89, 0x98BADCFE, 0x10325476, 0xC3D2E1F0⟩

/-- The nonlinear function of round `j` (R123). -/
def rmdF (j : Nat) (x y z : Word) : Word :=
  if j ≤ 15 then x ^^^ y ^^^ z
  else if j ≤ 31 then (x &&& y) ||| (~~~x &&& z)
  else if j ≤ 47 then (x ||| ~~~y) ^^^ z
  else if j ≤ 63 then (x &&& z) ||| (y &&& ~~~z)
  else x ^^^ (y ||| ~~~z)

/-- The additive constants of the left line, one for each group of 16 rounds (R124). -/
def leftK : List Word := [0x00000000, 0x5A827999, 0x6ED9EBA1, 0x8F1BBCDC, 0xA953FD4E]

/-- The additive constants of the right line (R124). -/
def rightK : List Word := [0x50A28BE6, 0x5C4DD124, 0x6D703EF3, 0x7A6D76E9, 0x00000000]

/-- Message-word selection of the left line, one row for each group of 16 rounds (R125). -/
def leftR : List (List Nat) :=
  [[0, 1, 2, 3, 4, 5, 6, 7, 8, 9, 10, 11, 12, 13, 14, 15],
   [7, 4, 13, 1, 10, 6, 15, 3, 12, 0, 9, 5, 2, 14, 11, 8],
   [3, 10, 14, 4, 9, 15, 8, 1, 2, 7, 0, 6, 13, 11, 5, 12],
   [1, 9, 11, 10, 0, 8, 12, 4, 13, 3, 7, 15, 14, 5, 6, 2],
   [4, 0, 5, 9, 7, 12, 2, 10, 14, 1, 3, 8, 11, 6, 15, 13]]

/-- Message-word selection of the right line (R125). -/
def rightR : List (List Nat) :=
  [[5, 14, 7, 0, 9, 2, 11, 4, 13, 6, 15, 8, 1, 10, 3, 12],
   [6, 11, 3, 7, 0, 13, 5, 10, 14, 15, 8, 12, 4, 9, 1, 2],
   [15, 5, 1, 3, 7, 14, 6, 9, 11, 8, 12, 2, 10, 0, 4, 13],
   [8, 6, 4, 1, 3, 11, 15, 0, 5, 12, 2, 13, 9, 7, 10, 14],
   [12, 15, 10, 4, 1, 5, 8, 7, 6, 2, 13, 14, 0, 3, 9, 11]]

/-- Rotation amounts of the left line (R126). -/
def leftS : List (List Nat) :=
  [[11, 14, 15, 12, 5, 8, 7, 9, 11, 13, 14, 15, 6, 7, 9, 8],
   [7, 6, 8, 13, 11, 9, 7, 15, 7, 12, 15, 9, 11, 7, 13, 12],
   [11, 13, 6, 7, 14, 9, 13, 15, 14, 8, 13, 6, 5, 12, 7, 5],
   [11, 12, 14, 15, 14, 15, 9, 8, 9, 14, 5, 6, 8, 6, 5, 12],
   [9, 15, 5, 11, 6, 8, 13, 12, 5, 12, 13, 14, 11, 8, 5, 6]]

/-- Rotation amounts of the right line (R126). -/
def rightS : List (List Nat) :=
  [[8, 9, 9, 11, 13, 15, 15, 5, 7, 7, 8, 11, 14, 14, 12, 6],
   [9, 13, 15, 7, 12, 8, 9, 11, 7, 7, 12, 7, 6, 15, 13, 11],
   [9, 7, 15, 11, 8, 6, 6, 14, 12, 13, 5, 14, 13, 13, 7, 5],
   [15, 5, 8, 11, 14, 14, 6, 14, 6, 9, 12, 9, 12, 5, 15, 8],
   [8, 5, 12, 9, 12, 5, 14, 6, 8, 13, 6, 5, 15, 13, 11, 11]]

/-- Entry `j` of a table whose rows list 16 rounds each. -/
def roundEntry (t : List (List Nat)) (j : Nat) : Nat := (t.getD (j / 16) []).getD (j % 16) 0

/-- The sixteen message words of a 64-byte block (R121). -/
def blockWords (b : List Byte) : List Word := (List.range 16).map fun i => le32 (b.drop (4 * i))

/-- The five working registers of one line of the compression function (R127). -/
structure Line where
  a : Word
  b : Word
  c : Word
  d : Word
  e : Word
  deriving DecidableEq, Repr

/-- One round of one line (R127): `f` the value of the nonlinear function, `x` the message word, `k` the additive
constant, `s` the rotation. -/
def Line.round (f x k : Word) (s : Nat) (l : Line) : Line :=
  ⟨l.e, (l.a + f + x + k).rotateLeft s + l.e, l.b, l.c.rotateLeft 10, l.d⟩

/-- Round `j` of the left line (R127). -/
def leftRound (x : List Word) (l : Line) (j : Nat) : Line :=
  l.round (rmdF j l.b l.c l.d) (x.getD (roundEntry leftR j) 0) (leftK.getD (j / 16) 0) (roundEntry leftS j)

/-- Round `j` of the right line, whose functions run in reverse order (R127). -/
def rightRound (x : List Word) (l : Line) (j : Nat) : Line :=
  l.round (rmdF (79 - j) l.b l.c l.d) (x.getD (roundEntry rightR j) 0) (rightK.getD (j / 16) 0) (roundEntry rightS j)

/-- `compress(H, B)` (R127). The two lines do not meet before the end, so each runs its 80 rounds by itself. -/
@[irreducible] def compress (h : Chain) (b : List Byte) : Chain :=
  let x := blockWords b
  let start : Line := ⟨h.h0, h.h1, h.h2, h.h3, h.h4⟩
  let l := (List.range 80).foldl (leftRound x) start
  let r := (List.range 80).foldl (rightRound x) start
  ⟨h.h1 + l.c + r.d, h.h2 + l.d + r.e, h.h3 + l.e + r.a, h.h4 + l.a + r.b, h.h0 + l.b + r.c⟩

/-- Compressing the first `n` 64-byte blocks of a sequence, in order. -/
def compressBlocks : Nat → Chain → List Byte → Chain
  | 0, h, _ => h
  | n + 1, h, b => compressBlocks n (compress h (b.take 64)) (b.drop 64)

/-- The context that HASH_RESET starts: `{active = 1, H = IV, blk = [], nbits = 0}` (R130, R134). -/
def HashCtx.fresh : HashCtx := ⟨true, Chain.iv, [], 0⟩

/-- `absorb(ctx, data)` (R128). -/
def HashCtx.absorb (c : HashCtx) (data : List Byte) : HashCtx :=
  let buf := c.blk ++ data
  let n := buf.length / 64
  { c with
    chain := compressBlocks n c.chain buf
    blk := buf.drop (64 * n)
    nbits := c.nbits + BitVec.ofNat 64 (8 * data.length) }

/-- The padding after `n` bytes of a last block: 0x80, zeros to 56 mod 64, the bit count little-endian (R129). -/
def hashPad (n : Nat) (nbits : DWord) : List Byte :=
  0x80 :: (zeros ((55 - (n : Int)) % 64).toNat ++ le64Bytes nbits)

/-- The digest bytes of a chaining state (R69, R129). -/
def Chain.bytes (h : Chain) : List Byte :=
  le32Bytes h.h0 ++ le32Bytes h.h1 ++ le32Bytes h.h2 ++ le32Bytes h.h3 ++ le32Bytes h.h4

/-- `finish(ctx)`, the 20-byte digest (R129). -/
def HashCtx.finish (c : HashCtx) : List Byte :=
  let buf := c.blk ++ hashPad c.blk.length c.nbits
  (compressBlocks (buf.length / 64) c.chain buf).bytes

/-- `RMD160(M)` (R134). -/
def rmd160 (m : List Byte) : List Byte := (HashCtx.fresh.absorb m).finish

/-- HASH_RESET (R130). -/
def execHashReset (alg : Byte) (s : State) : Host.Outcome State Fault Refusal :=
  if !legalHash alg then raiseError .badAlg s
  else complete .ok { s with hctx := HashCtx.fresh }

/-- HASH_UPDATE (R131): ARG0 = src, ARG1 = len. -/
def execHashUpdate (s : State) : Host.Outcome State Fault Refusal :=
  if !s.hctx.active then raiseError .hashState s
  else if !inRange s.config.bufSize (arg s 0) (arg s 1) then raiseError .badRange s
  else complete .ok { s with hctx := s.hctx.absorb (memRead s (arg s 0) (arg s 1)) }

/-- HASH_FINAL (R132): ARG0 = dst. -/
def execHashFinal (s : State) : Host.Outcome State Fault Refusal :=
  if !s.hctx.active then raiseError .hashState s
  else if !inRange s.config.bufSize (arg s 0) 20 then raiseError .badRange s
  else complete .ok { memWrite s (arg s 0) s.hctx.finish with hctx := HashCtx.idle }

end Sys2Proof.Machine
end

