-- ==== Sys2Proof/Machine/Hmac.lean ====
section
/-! DEFINITION. The HMAC wrapper (R150-R158): the construction and the commands HMAC_INIT, HMAC_RESET, HMAC_UPDATE,
HMAC_FINAL. -/

namespace Sys2Proof.Machine

/-- The block-size key `K0(key)`: a key longer than 64 bytes is pre-hashed (R150). -/
def hmacK0 (key : List Byte) : List Byte :=
  if key.length > 64 then rmd160 key ++ zeros 44 else key ++ zeros (64 - key.length)

/-- 64 bytes of 0x36 (R151). -/
def ipad : List Byte := List.replicate 64 0x36

/-- 64 bytes of 0x5c (R151). -/
def opad : List Byte := List.replicate 64 0x5c

/-- `HMAC(key, m)` (R151). -/
def hmac (key m : List Byte) : List Byte :=
  rmd160 (xorBytes (hmacK0 key) opad ++ rmd160 (xorBytes (hmacK0 key) ipad ++ m))

/-- `prime(mctx)` (R152). -/
def HmacCtx.prime (c : HmacCtx) : HmacCtx :=
  { c with inner := HashCtx.fresh.absorb (xorBytes c.k0 ipad) }

/-- The HMAC context keyed with `key` and primed (R153). -/
def HmacCtx.keyedWith (key : List Byte) : HmacCtx :=
  HmacCtx.prime { keyed := true, k0 := hmacK0 key, inner := HashCtx.idle }

/-- The HMAC of everything absorbed since the last priming (R156). -/
def HmacCtx.output (c : HmacCtx) : List Byte := rmd160 (xorBytes c.k0 opad ++ c.inner.finish)

/-- The context in which a long key is pre-hashed, part of the scratch (R44, R150, R171). -/
def prehashScratch (key : List Byte) : HashCtx :=
  if key.length > 64 then HashCtx.fresh.absorb key else HashCtx.idle

/-- HMAC_INIT (R153): ARG0 = key address, ARG1 = key length. -/
def execHmacInit (alg : Byte) (s : State) : Host.Outcome State Fault Refusal :=
  if !legalHash alg then raiseError .badAlg s
  else if !inRange s.config.bufSize (arg s 0) (arg s 1) then raiseError .badRange s
  else
    let key := memRead s (arg s 0) (arg s 1)
    complete .ok { s with
      mctx := HmacCtx.keyedWith key
      scratch := { s.scratch with prehash := prehashScratch key } }

/-- HMAC_RESET (R154). -/
def execHmacReset (s : State) : Host.Outcome State Fault Refusal :=
  if !s.mctx.keyed then raiseError .notKeyed s
  else complete .ok { s with mctx := s.mctx.prime }

/-- HMAC_UPDATE (R155): ARG0 = src, ARG1 = len. -/
def execHmacUpdate (s : State) : Host.Outcome State Fault Refusal :=
  if !s.mctx.keyed then raiseError .notKeyed s
  else if !inRange s.config.bufSize (arg s 0) (arg s 1) then raiseError .badRange s
  else
    let data := memRead s (arg s 0) (arg s 1)
    complete .ok { s with mctx := { s.mctx with inner := s.mctx.inner.absorb data } }

/-- HMAC_FINAL (R156): ARG0 = dst. -/
def execHmacFinal (s : State) : Host.Outcome State Fault Refusal :=
  if !s.mctx.keyed then raiseError .notKeyed s
  else if !inRange s.config.bufSize (arg s 0) 20 then raiseError .badRange s
  else complete .ok { memWrite s (arg s 0) s.mctx.output with mctx := s.mctx.prime }

end Sys2Proof.Machine
end

