-- ==== Sys2Proof/Machine/Pbkdf2.lean ====
section
/-! DEFINITION. PBKDF2 key derivation (R170-R176): the function and the command PBKDF2. -/

namespace Sys2Proof.Machine

/-- The working pair of one output block: the U value and the T accumulator (R170). -/
structure UT where
  u : List Byte
  t : List Byte
  deriving DecidableEq, Repr

/-- `U_1` of block `i`, also the first value of T; the index is appended big-endian (R170). -/
def pbkdf2First (p s : List Byte) (i : Nat) : UT :=
  let u := hmac p (s ++ be32Bytes (BitVec.ofNat 32 i))
  ⟨u, u⟩

/-- `n` further rounds of one block: `U <- HMAC(P, U)`, `T <- T ^ U` (R170). -/
def pbkdf2Rounds (p : List Byte) : Nat → UT → UT
  | 0, x => x
  | n + 1, x =>
    let u := hmac p x.u
    pbkdf2Rounds p n ⟨u, xorBytes x.t u⟩

/-- U and T after the `c` rounds of block `i`, `c` at least 1 (R170, R173). -/
def pbkdf2Block (p s : List Byte) (c i : Nat) : UT := pbkdf2Rounds p (c - 1) (pbkdf2First p s i)

/-- The number of output blocks, `ceil(dkLen / 20)` (R170). -/
def pbkdf2Blocks (dkLen : Nat) : Nat := (dkLen + 19) / 20

/-- `PBKDF2(P, S, c, dkLen)`: the blocks from index 1 on, concatenated and truncated (R170). -/
def pbkdf2 (p s : List Byte) (c dkLen : Nat) : List Byte :=
  ((List.range (pbkdf2Blocks dkLen)).flatMap fun i => (pbkdf2Block p s c (i + 1)).t).take dkLen

/-- What the scratch holds when the last block is done, before it is zeroized (R44, R171). -/
def pbkdf2Scratch (p s : List Byte) (c dkLen : Nat) (old : Scratch) : Scratch :=
  let last := pbkdf2Block p s c (pbkdf2Blocks dkLen)
  { old with hmac := HmacCtx.keyedWith p, u := last.u, t := last.t, prehash := prehashScratch p }

/-- PBKDF2 (R172): ARG0, ARG1 = password, ARG2, ARG3 = salt, ARG4 = iterations, ARG5 = dkLen, ARG6 = dst. -/
def execPbkdf2 (alg : Byte) (s : State) : Host.Outcome State Fault Refusal :=
  if !legalHash alg then raiseError .badAlg s
  else if arg s 4 == 0 || arg s 5 == 0 then raiseError .badArg s
  else if !(inRange s.config.bufSize (arg s 0) (arg s 1) && inRange s.config.bufSize (arg s 2) (arg s 3) && inRange s.config.bufSize (arg s 6) (arg s 5)) then
    raiseError .badRange s
  else if overlaps (arg s 6) (arg s 5) (arg s 0) (arg s 1) || overlaps (arg s 6) (arg s 5) (arg s 2) (arg s 3) then
    raiseError .overlap s
  else
    let p := memRead s (arg s 0) (arg s 1)
    let salt := memRead s (arg s 2) (arg s 3)
    complete .ok { memWrite s (arg s 6) (pbkdf2 p salt (arg s 4) (arg s 5)) with
      scratch := pbkdf2Scratch p salt (arg s 4) (arg s 5) s.scratch }

end Sys2Proof.Machine
end

