-- ==== Sys2Proof/Machine/Cipher.lean ====
section
/-! DEFINITION. The AES-256 block cipher interface adapter (R200-R210): the slot cipher and the commands CIPHER_KEY,
CIPHER_BLOCK. -/

namespace Sys2Proof.Machine

/-- The cipher table's row of an algorithm id (R201). -/
def cipherRow (ciphers : List Config.CipherRow) (alg : Byte) : Option Config.CipherRow :=
  ciphers.find? fun r => r.alg == alg

/-- `keysize(ALG)`, 0 for an id the table does not list (R203). -/
def keySize (ciphers : List Config.CipherRow) (alg : Byte) : Nat := ((cipherRow ciphers alg).map (·.keyBytes.val)).getD 0

/-- `blocksize(ALG)`, 0 for an id the table does not list (R223). -/
def cipherBlockSize (ciphers : List Config.CipherRow) (alg : Byte) : Nat :=
  ((cipherRow ciphers alg).map (·.blockBytes)).getD 0

/-- The external functions of an algorithm id: those its row names (R201). A loaded slot's id is always listed; for any
other R202 names AES-256. -/
def cipherCore (ciphers : List Config.CipherRow) (alg : Byte) : Config.CipherCore :=
  ((cipherRow ciphers alg).map (·.core)).getD .aes256

/-- `cipher(slot, x)`: the external functions of the slot's algorithm, in the slot's direction (R202, R207). -/
def Slot.cipher (ciphers : List Config.CipherRow) (k : Slot) (x : Block) : Block :=
  match k.mode with
  | .enc => (cipherCore ciphers k.alg).enc k.key x
  | .dec => (cipherCore ciphers k.alg).dec k.key x

/-- CIPHER_KEY (R203): ARG0 = key address; a successful one clears `xts_bound`. -/
def execCipherKey (alg : Byte) (mode : CipherMode) (n : SlotId) (s : State) : Host.Outcome State Fault Refusal :=
  if !legalCipher s.config.ciphers alg then raiseError .badAlg s
  else if !inRange s.config.bufSize (arg s 0) (keySize s.config.ciphers alg) then raiseError .badRange s
  else
    let key := toVec 32 (memRead s (arg s 0) (keySize s.config.ciphers alg))
    complete .ok { s.setSlot n { loaded := true, alg := alg, mode := mode, key := key } with xtsBound := false }

/-- CIPHER_BLOCK (R204): ARG0 = src, ARG1 = dst; the whole input is read before the output is written. -/
def execCipherBlock (n : SlotId) (s : State) : Host.Outcome State Fault Refusal :=
  if !(s.slot n).loaded then raiseError .notKeyed s
  else if !(inRange s.config.bufSize (arg s 0) 16 && inRange s.config.bufSize (arg s 1) 16) then raiseError .badRange s
  else
    let x := toVec 16 (memRead s (arg s 0) 16)
    complete .ok (memWrite s (arg s 1) ((s.slot n).cipher s.config.ciphers x).toList)

end Sys2Proof.Machine
end

