-- ==== Sys2Proof/Machine/Xts.lean ====
section
/-! DEFINITION. The XTS mode controller (R220-R232): the GF(2^128) doubler, the tweaks, one sub-block, and the
commands XTS_INIT, XTS_PROCESS. -/

namespace Sys2Proof.Machine

/-- A tweak as a 128-bit value, two little-endian halves, bytes 0-7 the low half (R220). -/
def tweakValue (t : Block) : BitVec 128 := (le64 (t.toList.drop 8) ++ le64 t.toList : BitVec (64 + 64))

/-- The 16 bytes of a 128-bit tweak value (R220). -/
def tweakBytes (v : BitVec 128) : Block := toVec 16 (le64Bytes (v.extractLsb' 0 64) ++ le64Bytes (v.extractLsb' 64 64))

/-- The doubler on the 128-bit value: shift left, and 135 into the low half if bit 127 falls out (R220). -/
def doubleValue (v : BitVec 128) : BitVec 128 := if v.getLsbD 127 then (v <<< 1) ^^^ 135 else v <<< 1

/-- `double(T)` (R220). -/
def double (t : Block) : Block := tweakBytes (doubleValue (tweakValue t))

/-- `double^j(T)` (R220). -/
def doubleIter : Nat → Block → Block
  | 0, t => t
  | j + 1, t => double (doubleIter j t)

/-- What the tweak cipher encrypts for data unit `u`: the unit number little-endian, then 8 zero bytes (R221). -/
def unitBlock (u : DWord) : Block := toVec 16 (le64Bytes u ++ zeros 8)

/-- `tweak(u, j)` under slot 1's key: always encrypted, whatever slot 1's mode (R221; "cipher2 always runs in encrypt
mode"), by the functions of slot 1's algorithm. -/
def State.tweak (s : State) (u : DWord) (j : Nat) : Block :=
  doubleIter j ((cipherCore s.config.ciphers s.slot1.alg).enc s.slot1.key (unitBlock u))

/-- `xts_block(P, u, j)` (R222). -/
def State.xtsBlock (s : State) (p : Block) (u : DWord) (j : Nat) : Block :=
  xorBlock (s.slot0.cipher s.config.ciphers (xorBlock p (s.tweak u j))) (s.tweak u j)

/-- The data unit of global sub-block `g`, counted from sub-block 0 of unit `u0`, mod 2^64 (R224, R228). -/
def unitOf (u0 : DWord) (g : Nat) : DWord := u0 + BitVec.ofNat 64 (g / 32)

/-- The loop of R224: `n` sub-blocks in place, the first at address `a` with global index `g`. The ciphers are those
of `s`, which no sub-block changes. -/
def xtsRun (s : State) (u0 : DWord) : Nat → Nat → Nat → Memory → Memory
  | 0, _, _, m => m
  | n + 1, g, a, m =>
    let p := toVec 16 (m.read a 16)
    xtsRun s u0 n (g + 1) (a + 16) (m.write a (s.xtsBlock p (unitOf u0 g) (g % 32)).toList)

/-- What the scratch holds after `n` sub-blocks from index `g`: the last tweak (R229). -/
def xtsScratch (s : State) (u0 : DWord) (g n : Nat) (old : Scratch) : Scratch :=
  if n = 0 then old
  else
    let last := g + n - 1
    let t := s.tweak (unitOf u0 last) (last % 32)
    { old with tweak := t.toList, doubler := tweakValue t }

/-- XTS_INIT (R223). -/
def execXtsInit (s : State) : Host.Outcome State Fault Refusal :=
  if !(s.slot0.loaded && s.slot1.loaded) then raiseError .xtsMismatch s
  else if s.slot0.alg != s.slot1.alg then raiseError .xtsMismatch s
  else if cipherBlockSize s.config.ciphers s.slot0.alg != 16 || cipherBlockSize s.config.ciphers s.slot1.alg != 16 then raiseError .xtsMismatch s
  else complete .ok { s with xtsBound := true }

/-- XTS_PROCESS (R224): ARG0 = addr, ARG1 = len, ARG3 and ARG2 = start data unit, ARG4 = start block. -/
def execXtsProcess (s : State) : Host.Outcome State Fault Refusal :=
  if !s.xtsBound then raiseError .xtsNotReady s
  else if arg s 4 > 31 then raiseError .badArg s
  else if arg s 1 % 16 != 0 then raiseError .badLength s
  else if !inRange s.config.bufSize (arg s 0) (arg s 1) then raiseError .badRange s
  else
    let n := arg s 1 / 16
    let g := arg s 4 + n
    let un := unitOf (startUnit s) g
    complete .ok { s with
      buf := xtsRun s (startUnit s) n (arg s 4) (arg s 0) s.buf
      result0 := un.extractLsb' 0 32
      result1 := un.extractLsb' 32 32
      result2 := BitVec.ofNat 32 (g % 32)
      scratch := xtsScratch s (startUnit s) (arg s 4) n s.scratch }

end Sys2Proof.Machine
end

