-- ==== Sys2Proof/Machine/Dispatch.lean ====
section
/-! DEFINITION. The meaning of each command, one arm for each constructor of Instr. -/

namespace Sys2Proof.Machine

def exec (i : Instr) (s : State) : Host.Outcome State Fault Refusal :=
  match i with
  | .nop => Sys2Proof.Machine.execNop s
  | .hashReset alg => Sys2Proof.Machine.execHashReset alg s
  | .hashUpdate => Sys2Proof.Machine.execHashUpdate s
  | .hashFinal => Sys2Proof.Machine.execHashFinal s
  | .hmacInit alg => Sys2Proof.Machine.execHmacInit alg s
  | .hmacReset => Sys2Proof.Machine.execHmacReset s
  | .hmacUpdate => Sys2Proof.Machine.execHmacUpdate s
  | .hmacFinal => Sys2Proof.Machine.execHmacFinal s
  | .pbkdf2 alg => Sys2Proof.Machine.execPbkdf2 alg s
  | .crcInit => Sys2Proof.Machine.execCrcInit s
  | .crcUpdate => Sys2Proof.Machine.execCrcUpdate s
  | .cipherKey alg mode n => Sys2Proof.Machine.execCipherKey alg mode n s
  | .cipherBlock n => Sys2Proof.Machine.execCipherBlock n s
  | .xtsInit => Sys2Proof.Machine.execXtsInit s
  | .xtsProcess => Sys2Proof.Machine.execXtsProcess s
  | .erase m => Sys2Proof.Machine.execErase m s
  | .eraseBuf => Sys2Proof.Machine.execEraseBuf s

end Sys2Proof.Machine
end

