-- ==== Sys2Proof/Machine/HostPort.lean ====
section
/-! DEFINITION. The host's side of the engine: the register map (R22-R36, R78), reads and writes of it in each phase
(R27, R28, R31, R62-R66, R72, R267, R292). -/

namespace Sys2Proof.Machine

/-- What stands at an offset of the host window (R22, R78). `window a` is the buffer word whose lowest byte is
`Buf[a]` (R62). -/
inductive Target where
  | id
  | version
  | ctrl
  | status
  | cmd
  | hashInfo
  | cipherInfo
  | arg (i : Fin 8)
  | result0
  | result1
  | result2
  | crcValue
  | ctxStatus
  | bufSize
  | window (a : Nat)
  | reserved
  deriving DecidableEq, Repr

/-- The window offset of the buffer's first byte (R62). -/
def windowBase : Nat := 0x1000

/-- The register, buffer word or reserved word at a byte offset, whose two low bits are ignored (R22, R63); BUF_BYTES says
where the window ends (R62). -/
def locate (b : Config.BufSize) (offset : BitVec 16) : Target :=
  let o := (offset &&& 0xFFFC).toNat
  if o = 0x000 then .id
  else if o = 0x004 then .version
  else if o = 0x008 then .ctrl
  else if o = 0x00C then .status
  else if o = 0x010 then .cmd
  else if o = 0x018 then .hashInfo
  else if o = 0x01C then .cipherInfo
  else if 0x020 ≤ o ∧ o < 0x040 then .arg (Fin.ofNat 8 ((o - 0x020) / 4))
  else if o = 0x040 then .result0
  else if o = 0x044 then .result1
  else if o = 0x048 then .result2
  else if o = 0x050 then .crcValue
  else if o = 0x054 then .ctxStatus
  else if o = 0x058 then .bufSize
  else if windowBase ≤ o ∧ o < windowBase + b.bytes then .window (o - windowBase)
  else .reserved

/-- The value of ID, "PBK2" (R23). -/
def idValue : Word := 0x50424B32

/-- The value of VERSION: major 1, minor 0 (R24). -/
def versionValue : Word := 0x00010000

/-- The value of HASH_INFO: the table's row of hash id 0x01, recommended iterations, hash size, block size (R29). -/
def hashInfoValue : Word :=
  match Config.hashTable.find? fun r => r.alg == 0x01 with
  | some r =>
    (BitVec.ofNat 16 r.iterations ++ BitVec.ofNat 8 r.hashBytes ++ BitVec.ofNat 8 r.blockBytes : BitVec (16 + 8 + 8))
  | none => 0

/-- The value of CIPHER_INFO: key size, block size and id of AES-256, a constant (R30). -/
def cipherInfoValue : Word :=
  ((0 : BitVec 8) ++ BitVec.ofNat 8 Config.aes256Row.keyBytes.val ++ BitVec.ofNat 8 Config.aes256Row.blockBytes
    ++ Config.aes256Row.alg : BitVec (8 + 8 + 8 + 8))

/-- What a host read of a target returns while the phase is IDLE (R22-R36, R62). -/
def targetValue (s : State) : Target → Word
  | .id => idValue
  | .version => versionValue
  | .ctrl => ctrlWord s
  | .status => statusWord s
  | .cmd => s.latchWord
  | .hashInfo => hashInfoValue
  | .cipherInfo => cipherInfoValue
  | .arg i => s.args[i]
  | .result0 => s.result0
  | .result1 => s.result1
  | .result2 => s.result2
  | .crcValue => s.crc ^^^ 0xFFFFFFFF
  | .ctxStatus => ctxStatusWord s
  | .bufSize => BitVec.ofNat 32 s.config.bufSize.bytes
  | .window a => le32 (s.buf.read a 4)
  | .reserved => 0

/-- What a read of STATUS returns while RESETTING: BUSY and RESETTING set (R291, R292). -/
def resettingStatus : Word := 0x00000021

/-- The word that a host read at an offset returns, in each phase (R62, R72, R292). -/
def hostReadValue (s : State) (offset : BitVec 16) : Word :=
  match s.phase, locate s.config.bufSize offset with
  | .resetting, .status => resettingStatus
  | .resetting, _ => 0
  | .busy, .window _ => 0
  | _, t => targetValue s t

/-- The one side effect of a host read: a window read while BUSY sets LOCKERR (R65, R72). -/
def readMark (s : State) (offset : BitVec 16) : State :=
  match s.phase, locate s.config.bufSize offset with
  | .busy, .window _ => { s with lockerr := true }
  | _, _ => s

/-- A host read transaction: the returned word stands in `rdata` (R16). -/
def hostRead (offset : BitVec 16) (s : State) : State :=
  { readMark s offset with rdata := hostReadValue s offset }

/-- Byte `i` of a word: bits 8i+7 down to 8i (R62). -/
def lane (w : Word) (i : Nat) : Byte := w.extractLsb' (8 * i) 8

/-- The word with the bytes whose strobe is set taken from `v` (R31). -/
def mergeStrobes (old v : Word) (strb : BitVec 4) : Word :=
  let pick := fun i => if strb.getLsbD i then lane v i else lane old i
  (pick 3 ++ pick 2 ++ pick 1 ++ pick 0 : BitVec (8 + 8 + 8 + 8))

/-- One byte of a window write, made only if its strobe is set (R62). -/
def putLane (v : Word) (strb : BitVec 4) (a : Nat) (m : Memory) (i : Nat) : Memory :=
  if strb.getLsbD i then m.put (a + i) (lane v i) else m

/-- A window write to the buffer word at `a` (R62). -/
def windowWrite (v : Word) (strb : BitVec 4) (a : Nat) (m : Memory) : Memory :=
  [0, 1, 2, 3].foldl (putLane v strb a) m

/-- A full-strobe write of `v` to CTRL: IRQ_EN at once, and a 1 in SOFT_RESET starts a reset (R25, R290, R302). -/
def writeCtrl (v : Word) (s : State) : State :=
  let s' := { s with irqEn := v.getLsbD 0 }
  if v.getLsbD 1 then resetStarted s' else s'

/-- A full-strobe write of `w` to CMD outside RESETTING: accepted when IDLE, dropped with OVERRUN when BUSY (R28, R267). -/
def writeCmd (w : Word) (s : State) : State :=
  if s.phase = .idle then accepted w s else { s with overrun := true }

/-- A write to a target outside RESETTING (R25, R27, R28, R31, R62, R64, R72). -/
def writeTarget (t : Target) (v : Word) (strb : BitVec 4) (s : State) : State :=
  match t with
  | .window a => if s.phase = .busy then { s with lockerr := true } else { s with buf := windowWrite v strb a s.buf }
  | .arg i => { s with args := s.args.set i (mergeStrobes s.args[i] v strb) }
  | .ctrl => if strb = 0xF then writeCtrl v s else s
  | .status => if strb = 0xF then clearFlags v s else s
  | .cmd => if strb = 0xF then writeCmd v s else s
  | .id => s
  | .version => s
  | .hashInfo => s
  | .cipherInfo => s
  | .result0 => s
  | .result1 => s
  | .result2 => s
  | .crcValue => s
  | .ctxStatus => s
  | .bufSize => s
  | .reserved => s

/-- A host write transaction; while RESETTING every write is ignored (R292). -/
def hostWrite (offset : BitVec 16) (v : Word) (strb : BitVec 4) (s : State) : State :=
  if s.phase = .resetting then s else writeTarget (locate s.config.bufSize offset) v strb s

/-- `rst_n` goes low: a hardware reset starts, or starts again (R290). -/
def rstFell (s : State) : State := { resetStarted s with rstN := false }

/-- `rst_n` goes high: from here on a reset in progress can end (R293). -/
def rstRose (s : State) : State := { s with rstN := true }

end Sys2Proof.Machine
end

