-- ==== Sys2Proof/Machine/Engine.lean ====
section
/-! DEFINITION. The engine's turn (R262, R293) and what each event does (R73, R271). -/

namespace Sys2Proof.Machine

/-- The completion step of the command in flight: the latched word is decoded and its command runs; a word that
does not decode completes with ILLEGAL_CMD (R14, R98, R262). -/
def runLatched (s : State) : Host.Outcome State Fault Refusal :=
  match decode s.latchWord with
  | .ok i => exec i s
  | .error _ => raiseError .illegalCmd s

/-- The engine's turn: it completes the command in flight, or ends the reset if `rst_n` is high (R262, R293). With
neither to do it changes nothing (log entry 2). -/
def engineTurn (s : State) : Host.Outcome State Fault Refusal :=
  match s.phase with
  | .idle => .next s
  | .busy => runLatched s
  | .resetting => .next (if s.rstN then resetEnded s else s)

/-- One event at the engine's ports, or its turn. -/
def handle (e : Event) (s : State) : Host.Outcome State Fault Refusal :=
  match e with
  | .hostRead offset => .next (hostRead offset s)
  | .hostWrite offset data strb => .next (hostWrite offset data strb s)
  | .engine => engineTurn s
  | .rstLow => .next (rstFell s)
  | .rstHigh => .next (rstRose s)

/-- One atomic step (R73, R271): the first of the events to come, or the engine's turn when there is none (R311). -/
def stepEvent (s : State) : Host.Outcome State Fault Refusal :=
  match s.pending with
  | [] => engineTurn s
  | e :: rest => handle e { s with pending := rest }

/-- The state in which the command word `w` has just been accepted and no host event comes before its completion. -/
def commandLoaded (w : Word) (s : State) : State := { accepted w s with pending := [] }

end Sys2Proof.Machine
end

