-- ==== Sys2Proof/Machine/Step.lean ====
section
/-! DEFINITION. One step of the machine, and the state in which a given command is the next to run. -/

namespace Sys2Proof.Machine

/-- One atomic step (R73, R271). -/
def step (s : State) : Host.Outcome State Fault Refusal := stepEvent s

/-- `s` with the command word `w` accepted (R28, R261), so that the very next step completes exactly that command
(log entry 1). Bits above `nbits` are zero. -/
def State.withFetchWord (s : State) (nbits w : Nat) : State :=
  commandLoaded (BitVec.ofNat 32 (w % 2 ^ nbits)) s

end Sys2Proof.Machine
end

