-- ==== Sys2Proof/Machine/HostProgram.lean ====
section
/-! DEFINITION. Host programs as lists of events: the bus transactions that the statements of the assembly syntax expand
to (R103, R104). They are the host's conventions; the engine sees only the transactions. -/

namespace Sys2Proof.Machine

/-- How many of ARG0, ARG1, … a command uses; the used ones are always the first ones (R97). -/
def operandCount : Instr → Nat
  | .nop => 0
  | .hashReset _ => 0
  | .hashUpdate => 2
  | .hashFinal => 1
  | .hmacInit _ => 2
  | .hmacReset => 0
  | .hmacUpdate => 2
  | .hmacFinal => 1
  | .pbkdf2 _ => 7
  | .crcInit => 0
  | .crcUpdate => 2
  | .cipherKey _ _ _ => 1
  | .cipherBlock _ => 2
  | .xtsInit => 0
  | .xtsProcess => 5
  | .erase _ => 0
  | .eraseBuf => 2

/-- `HostWrite32(offset, v, 0xF)`. -/
def writeWord (offset : Nat) (v : Word) : Event := .hostWrite (BitVec.ofNat 16 offset) v 0xF

/-- The writes of operands to ARGi, ARG(i+1), …, in increasing order (R103). -/
def argWrites (i : Nat) : List Word → List Event
  | [] => []
  | v :: vs => writeWord (0x020 + 4 * i) v :: argWrites (i + 1) vs

/-- A command statement: its operands to ARG0 on, then the command word to CMD (R103). It does not wait. -/
def issue (i : Instr) (operands : List Word) : List Event :=
  argWrites 0 (operands.take (operandCount i)) ++ [writeWord 0x010 (encode i)]

/-- Byte `j` of buffer word `k` in a `LOAD` of `b` at `a`: the byte to write, or none if the load does not touch it. -/
def loadByte (a : Nat) (b : List Byte) (k j : Nat) : Option Byte :=
  if a ≤ 4 * k + j then b[4 * k + j - a]? else none

/-- The write of buffer word `k` in a `LOAD`: little-endian, the strobe set for exactly the bytes being written (R104). -/
def loadWord (a : Nat) (b : List Byte) (k : Nat) : Event :=
  let byte := fun j => (loadByte a b k j).getD 0
  let strobe := fun j => BitVec.ofBool (loadByte a b k j).isSome
  .hostWrite (BitVec.ofNat 16 (windowBase + 4 * k)) (byte 3 ++ byte 2 ++ byte 1 ++ byte 0 : BitVec (8 + 8 + 8 + 8))
    (strobe 3 ++ strobe 2 ++ strobe 1 ++ strobe 0 : BitVec (1 + 1 + 1 + 1))

/-- The buffer words that `n` bytes at `a` touch. -/
def touchedWords (a n : Nat) : List Nat :=
  if n = 0 then [] else (List.range ((a + n - 1) / 4 - a / 4 + 1)).map fun d => a / 4 + d

/-- `LOAD addr, bytes` (R104). -/
def load (a : Nat) (b : List Byte) : List Event := (touchedWords a b.length).map (loadWord a b)

/-- `READ addr, n` (R104). -/
def readRange (a n : Nat) : List Event :=
  (touchedWords a n).map fun k => .hostRead (BitVec.ofNat 16 (windowBase + 4 * k))

/-- `WAIT` under a scheduler that gives the engine its turn before the poll: then one poll of STATUS is enough (R104,
R311; log entry 13). -/
def wait : List Event := [.engine, .hostRead 0x00C]

/-- The host writes of `EXPECT` after its wait: clear DONE and ERR (R104). -/
def expect : List Event := wait ++ [writeWord 0x00C 0x00000006]

/-- `RUN stmt` (R104). -/
def runStatement (i : Instr) (operands : List Word) : List Event := issue i operands ++ expect

/-- `SOFTRESET`, with the same scheduler as `wait` (R104). -/
def softReset : List Event := writeWord 0x008 0x00000002 :: wait

end Sys2Proof.Machine
end

