-- ==== Sys2Proof/Safety.lean ====
section
/-! DEFINITION. What counts as a sound state of the engine (the invariant), what a host can see of it, and the terms
in which claims about runs are made. -/

namespace Sys2Proof.Machine

/-- The invariant of a hash context (R38): an IDLE context is all zero; an ACTIVE one holds less than a block, and its
bit count agrees with the bytes held, block by block. -/
def HashCtx.wf (c : HashCtx) : Bool :=
  if c.active then decide (c.blk.length < 64) && decide (c.nbits.toNat % 512 = 8 * c.blk.length)
  else decide (c = HashCtx.idle)

/-- The invariant of an HMAC context (R39): an UNKEYED context is all zero; a KEYED one holds 64 key bytes and an
absorbing inner hash. -/
def HmacCtx.wf (c : HmacCtx) : Bool :=
  if c.keyed then decide (c.k0.length = 64) && c.inner.active && c.inner.wf
  else decide (c = HmacCtx.unkeyed)

/-- The invariant of a key slot (R41): an unloaded slot is all zero; a loaded one has an algorithm of the table. -/
def Slot.wf (ciphers : List Config.CipherRow) (k : Slot) : Bool :=
  if k.loaded then legalCipher ciphers k.alg else decide (k = Slot.empty)

/-- The invariant that reset establishes and every step keeps. -/
structure State.Inv (s : State) : Prop where
  /-- The buffer memory is in canonical form. -/
  bufCanonical : s.buf.wf = true
  /-- The engine has no memory outside Buf (R60). -/
  bufBounded : s.buf.inBuf s.config.bufSize = true
  /-- R38. -/
  hash : s.hctx.wf = true
  /-- R39. -/
  hmac : s.mctx.wf = true
  /-- R41. -/
  slot0 : s.slot0.wf s.config.ciphers = true
  /-- R41. -/
  slot1 : s.slot1.wf s.config.ciphers = true
  /-- XTS is bound only over two loaded slots of one algorithm with 16-byte blocks (R43, R223). -/
  bound : s.xtsBound = true →
    s.slot0.loaded = true ∧ s.slot1.loaded = true ∧ s.slot0.alg = s.slot1.alg ∧
      cipherBlockSize s.config.ciphers s.slot0.alg = 16
  /-- RESULT2 is a sub-block index (R32). -/
  resultIndex : s.result2.toNat < 32
  /-- The scratch holds zero whenever the phase is IDLE (R44). -/
  idleScratch : s.phase = .idle → s.scratch = Scratch.zero
  /-- While a command is in flight DONE, ERR and ERRCODE are 0 (R26, R261). -/
  busyStatus : s.phase = .busy → s.done = false ∧ s.err = false ∧ s.errcode = .ok
  /-- While RESETTING, IRQ_EN and every flag are 0, so that STATUS reads 0x21 and `irq` is 0 (R291, R292). -/
  resettingStatus : s.phase = .resetting →
    s.irqEn = false ∧ s.done = false ∧ s.err = false ∧ s.overrun = false ∧ s.lockerr = false ∧ s.errcode = .ok
  /-- ERR is set only beside a code other than 0 (R26). -/
  errCode : s.err = true → s.errcode ≠ .ok
  /-- `rst_n` is low only while RESETTING (R290, R293). -/
  pin : s.rstN = false → s.phase = .resetting

/-- The bytes of Buf that a command writes when it completes with OK: first address and length (R68). -/
def storedRange (i : Instr) (s : State) : Nat × Nat :=
  match i with
  | .hashFinal => (arg s 0, 20)
  | .hmacFinal => (arg s 0, 20)
  | .pbkdf2 _ => (arg s 6, arg s 5)
  | .cipherBlock _ => (arg s 1, 16)
  | .xtsProcess => (arg s 0, arg s 1)
  | .eraseBuf => (arg s 0, arg s 1)
  | .nop => (0, 0)
  | .hashReset _ => (0, 0)
  | .hashUpdate => (0, 0)
  | .hmacInit _ => (0, 0)
  | .hmacReset => (0, 0)
  | .hmacUpdate => (0, 0)
  | .crcInit => (0, 0)
  | .crcUpdate => (0, 0)
  | .cipherKey _ _ _ => (0, 0)
  | .xtsInit => (0, 0)
  | .erase _ => (0, 0)

/-- The event is a host transaction. -/
def Event.isHost : Event → Bool
  | .hostRead _ => true
  | .hostWrite _ _ _ => true
  | .engine => false
  | .rstLow => false
  | .rstHigh => false

/-- The event is a host write that starts a soft reset (R25, R290). -/
def Event.isSoftReset : Event → Bool
  | .hostWrite offset data strb => decide (offset &&& 0xFFFC = 0x008) && decide (strb = 0xF) && data.getLsbD 1
  | .hostRead _ => false
  | .engine => false
  | .rstLow => false
  | .rstHigh => false

/-- Two states that a host cannot tell apart by one read: they may differ in every secret that R46 names (the keys in the
slots, `hctx.H`, `hctx.blk`, `hctx.nbits`, `mctx.k0`, `mctx.inner`, the scratch), in the slots' algorithm ids and in the
latched arguments, and agree in everything else. -/
structure State.SameToHost (s t : State) : Prop where
  config : s.config = t.config
  irqEn : s.irqEn = t.irqEn
  done : s.done = t.done
  err : s.err = t.err
  overrun : s.overrun = t.overrun
  lockerr : s.lockerr = t.lockerr
  errcode : s.errcode = t.errcode
  args : s.args = t.args
  result0 : s.result0 = t.result0
  result1 : s.result1 = t.result1
  result2 : s.result2 = t.result2
  phase : s.phase = t.phase
  latchWord : s.latchWord = t.latchWord
  crc : s.crc = t.crc
  buf : s.buf = t.buf
  hashActive : s.hctx.active = t.hctx.active
  hmacKeyed : s.mctx.keyed = t.mctx.keyed
  loaded0 : s.slot0.loaded = t.slot0.loaded
  loaded1 : s.slot1.loaded = t.slot1.loaded
  mode0 : s.slot0.mode = t.slot0.mode
  mode1 : s.slot1.mode = t.slot1.mode
  xtsBound : s.xtsBound = t.xtsBound

/-- Running one outcome on: the next part runs on the next state, a stop stays a stop. -/
def andThen (o : Host.Outcome State Fault Refusal) (f : State → Host.Outcome State Fault Refusal) :
    Host.Outcome State Fault Refusal :=
  match o with
  | .next s => f s
  | .fault r => .fault r
  | .refused r => .refused r

/-- The outcome is a next state of which `p` holds. -/
def Answers (o : Host.Outcome State Fault Refusal) (p : State → Prop) : Prop := ∃ t, o = .next t ∧ p t

end Sys2Proof.Machine
end

