-- ==== Sys2Proof/Certificates/Slice0/Obligations.lean ====
section
/-! DEFINITION. The statements for the provers. Each `Obligations.<Name>` formalises what its docstring names; the terms
they share stand first. -/

namespace Sys2Proof.Claims

open Sys2Proof.Machine

/-- The outcome of a command that completes with code `c` out of the state `u` (R262). -/
def completes (c : Code) (u : State) : Host.Outcome State Fault Refusal := .next (finished c u)

/-- The state with other latched arguments. -/
def withArgs (a : Vector Word 8) (s : State) : State := { s with latchArg := a }

/-- The latched arguments of a command that uses ARG0 and ARG1 alone. -/
def args2 (a0 a1 : Nat) : Vector Word 8 := #v[BitVec.ofNat 32 a0, BitVec.ofNat 32 a1, 0, 0, 0, 0, 0, 0]

/-- The latched arguments of XTS_PROCESS (R97): address, length, unit low, unit high, start block. -/
def xtsArgs (a n : Nat) (lo hi b : Word) : Vector Word 8 := #v[BitVec.ofNat 32 a, BitVec.ofNat 32 n, lo, hi, b, 0, 0, 0]

/-- The state in which the host has put the bytes `c` at buffer address 0 and passes them as (address 0, length). -/
def loaded (c : List Byte) (s : State) : State := withArgs (args2 0 c.length) { s with buf := s.buf.write 0 c }

/-- Command `i` run once over each chunk of a list, the host loading the chunk before each run. -/
def feed (i : Instr) : List (List Byte) → State → Host.Outcome State Fault Refusal
  | [], s => .next s
  | c :: cs, s => andThen (exec i (loaded c s)) (feed i cs)

/-- XTS_PROCESS run over adjoining ranges of the given numbers of sub-blocks, from address `a` on, each run starting
at the position that RESULT0-RESULT2 hold (R226). -/
def xtsChain : List Nat → Nat → State → Host.Outcome State Fault Refusal
  | [], _, s => .next s
  | n :: ns, a, s =>
    andThen (exec .xtsProcess (withArgs (xtsArgs a (16 * n) s.result0 s.result1 s.result2) s)) (xtsChain ns (a + 16 * n))

/-- The number that a little-endian byte sequence stands for. -/
def littleEndian : List Byte → Nat
  | [] => 0
  | b :: bs => b.toNat + 256 * littleEndian bs

/-- The words of one opcode (R93, R98, R101): those whose fixed bits fit decode to their command, and every other word with
the same OP completes with ILLEGAL_CMD and no other effect. -/
def encodedBy (mask value : Word) (command : Word → Instr) : Prop :=
  ∀ w : Word,
    (w &&& mask = value → decode w = .ok (command w)) ∧
    (w &&& 0xFF = value &&& 0xFF → w &&& mask ≠ value →
      ∀ s : State, s.latchWord = w → runLatched s = completes .illegalCmd s)

/-- The words of R127's pseudocode: the left line's five variables, then the right line's. -/
structure TenWords where
  a : Word
  b : Word
  c : Word
  d : Word
  e : Word
  a' : Word
  b' : Word
  c' : Word
  d' : Word
  e' : Word

/-- The body of R127's loop for one `j`, assignment by assignment, both lines in one pass. -/
def loopBody (x : List Word) (w : TenWords) (j : Nat) : TenWords :=
  let t := (w.a + rmdF j w.b w.c w.d + x.getD (roundEntry leftR j) 0 + leftK.getD (j / 16) 0).rotateLeft
    (roundEntry leftS j) + w.e
  let w := { w with a := w.e }
  let w := { w with e := w.d }
  let w := { w with d := w.c.rotateLeft 10 }
  let w := { w with c := w.b }
  let w := { w with b := t }
  let t := (w.a' + rmdF (79 - j) w.b' w.c' w.d' + x.getD (roundEntry rightR j) 0 + rightK.getD (j / 16) 0).rotateLeft
    (roundEntry rightS j) + w.e'
  let w := { w with a' := w.e' }
  let w := { w with e' := w.d' }
  let w := { w with d' := w.c'.rotateLeft 10 }
  let w := { w with c' := w.b' }
  { w with b' := t }

/-- The engine's state without what a failed command may change: everything but STATUS, the phase and the scratch
(R262, R264). -/
structure SameButStatus (s t : State) : Prop where
  config : t.config = s.config
  irqEn : t.irqEn = s.irqEn
  args : t.args = s.args
  result0 : t.result0 = s.result0
  result1 : t.result1 = s.result1
  result2 : t.result2 = s.result2
  latchWord : t.latchWord = s.latchWord
  latchArg : t.latchArg = s.latchArg
  hctx : t.hctx = s.hctx
  mctx : t.mctx = s.mctx
  crc : t.crc = s.crc
  slot0 : t.slot0 = s.slot0
  slot1 : t.slot1 = s.slot1
  xtsBound : t.xtsBound = s.xtsBound
  buf : t.buf = s.buf
  rstN : t.rstN = s.rstN
  rdata : t.rdata = s.rdata

/-- Two states of the engine with the same effects of their commands: Buf, the contexts, the results and the code. -/
structure SameEffects (s t : State) : Prop where
  errcode : s.errcode = t.errcode
  buf : s.buf = t.buf
  hctx : s.hctx = t.hctx
  mctx : s.mctx = t.mctx
  crc : s.crc = t.crc
  slot0 : s.slot0 = t.slot0
  slot1 : s.slot1 = t.slot1
  xtsBound : s.xtsBound = t.xtsBound
  result0 : s.result0 = t.result0
  result1 : s.result1 = t.result1
  result2 : s.result2 = t.result2

end Sys2Proof.Claims

open Sys2Proof Sys2Proof.Machine Sys2Proof.Claims

/-! ### Encoding -/

/-- The worked encodings of R105, each word written out from R91: it decodes to the command, the command encodes to it,
and 0x00000221 decodes to none. -/
def Obligations.WorkedEncodingsDecode : Prop :=
  (decode 0x00010001 = .ok (.hashReset 0x01) ∧ encode (.hashReset 0x01) = 0x00010001) ∧
  (decode 0x00010008 = .ok (.hmacInit 0x01) ∧ encode (.hmacInit 0x01) = 0x00010008) ∧
  (decode 0x00010010 = .ok (.pbkdf2 0x01) ∧ encode (.pbkdf2 0x01) = 0x00010010) ∧
  (decode 0x00011020 = .ok (.cipherKey 0x01 .dec .slot0) ∧ encode (.cipherKey 0x01 .dec .slot0) = 0x00011020) ∧
  (decode 0x00010120 = .ok (.cipherKey 0x01 .enc .slot1) ∧ encode (.cipherKey 0x01 .enc .slot1) = 0x00010120) ∧
  (decode 0x00000121 = .ok (.cipherBlock .slot1) ∧ encode (.cipherBlock .slot1) = 0x00000121) ∧
  (decode 0x00000F30 = .ok (.erase 0xF) ∧ encode (.erase 0xF) = 0x00000F30) ∧
  (decode 0x00000029 = .ok .xtsProcess ∧ encode .xtsProcess = 0x00000029) ∧
  (decode 0x00000130 = .ok (.erase 0x1) ∧ encode (.erase 0x1) = 0x00000130) ∧
  decode 0x00000221 = .error .fixedBitSet

/-- Decoding undoes encoding, for every command and every value of its fields (R90-R98). -/
def Obligations.DecodeUndoesEncode : Prop := ∀ i : Instr, decode (encode i) = .ok i

/-- Each decodable word has one meaning: encoding the decoded command gives the word back, so no bit of it is dropped
(R92, R98). -/
def Obligations.EncodeUndoesDecode : Prop := ∀ (w : Word) (i : Instr), decode w = .ok i → encode i = w

/-- R98: at most one row of the opcode map fits a word, the word decodes exactly when one does, and then to that row's
command. -/
def Obligations.DecodingIsByTheOneFittingRow : Prop :=
  ∀ w : Word,
    (∀ r ∈ opcodeTable, ∀ r' ∈ opcodeTable, w &&& r.mask = r.value → w &&& r'.mask = r'.value → r = r') ∧
    (∀ r ∈ opcodeTable, w &&& r.mask = r.value → decode w = .ok (r.make w)) ∧
    ((∀ r ∈ opcodeTable, w &&& r.mask ≠ r.value) → ∃ e, decode w = .error e)

/-! ### Steps, the invariant, reset -/

/-- A step runs the decoded command: with a command in flight and the engine's turn next (no event to come, or an
engine event first), a word that decodes runs as its command, from the state with that event taken off the list. And a command
loaded by `withFetchWord` is the very next to run, whatever the state. Without a command in flight nothing runs: while IDLE the
engine's turn changes nothing, so a command runs only after its acceptance and is never run again (R28, R262, R274). (The list
of events to come, whose turn it is when it is empty, and that the engine's turn with nothing to do is a step that changes
nothing, are the model's choice: log entries 1 and 2.) -/
def Obligations.StepRunsTheDecodedCommand : Prop :=
  ∀ (s : State) (i : Instr),
    (s.phase = .busy → decode s.latchWord = .ok i →
      (s.pending = [] → step s = exec i s) ∧
      (∀ rest, s.pending = .engine :: rest → step s = exec i { s with pending := rest })) ∧
    step (s.withFetchWord 32 (encode i).toNat) = exec i { accepted (encode i) s with pending := [] } ∧
    (s.phase = .idle →
      (s.pending = [] → step s = .next s) ∧
      (∀ rest, s.pending = .engine :: rest → step s = .next { s with pending := rest }))

/-- Whatever the state, every step answers a next state, and the configuration arguments, BUF_BYTES (R7) and the cipher table
(R201), are in it what they were. That no step faults or refuses is the model's deduction (DEDUCED, log entry 15) from R66 (no transaction errors), R101
(every word has an outcome) and R260 (every error is a completion code); that the engine's turn with nothing to do answers
too is log entry 2. -/
def Obligations.EveryStepAnswersANextState : Prop := ∀ s : State, Answers (step s) fun t => t.config = s.config

/-- Every step keeps the invariant, from every state that has it. (That every flag of STATUS is 0 while RESETTING is read
from "STATUS reads 0x00000021": log entry 6.) -/
def Obligations.StepKeepsTheInvariant : Prop := ∀ s t : State, s.Inv → step s = .next t → t.Inv

/-- The reset state has the invariant, on this hardware and in any other configuration (R7, R201). -/
def Obligations.ResetHasTheInvariant : Prop := State.reset.Inv ∧ ∀ c : Config.Params, (State.resetOf c).Inv

/-- R49: what the reset state holds, and what the host reads in it, in every configuration (R7, R201); this hardware's
is a buffer of 4096 bytes and the one cipher AES-256. -/
def Obligations.ResetLeavesTheStatedValues : Prop :=
  State.reset = State.resetOf
      { bufSize := .b4096, ciphers := [{ alg := 0x01, blockBytes := 16, keyBytes := 32, core := .aes256 }] } ∧
  hostReadValue State.reset 0x058 = 0x00001000 ∧
  ∀ c : Config.Params, let r := State.resetOf c
    (hostReadValue r 0x000 = 0x50424B32 ∧ hostReadValue r 0x004 = 0x00010000 ∧
      hostReadValue r 0x018 = 0x07D01440 ∧ hostReadValue r 0x01C = 0x00201001 ∧
      hostReadValue r 0x058 = BitVec.ofNat 32 c.bufSize.bytes) ∧
    (hostReadValue r 0x008 = 0 ∧ r.irqEn = false) ∧
    (hostReadValue r 0x00C = 0 ∧ r.done = false ∧ r.err = false ∧
      r.overrun = false ∧ r.lockerr = false ∧ r.errcode = .ok) ∧
    (hostReadValue r 0x010 = 0 ∧ r.latchWord = 0) ∧
    (∀ i : Fin 8, r.latchArg[i] = 0 ∧ r.args[i] = 0) ∧
    (r.result0 = 0 ∧ r.result1 = 0 ∧ r.result2 = 0) ∧
    (r.crc = 0xFFFFFFFF ∧ hostReadValue r 0x050 = 0) ∧
    hostReadValue r 0x054 = 0 ∧
    r.phase = .idle ∧
    (∀ a, r.buf.get a = 0x00) ∧
    r.hctx = { active := false, chain := ⟨0, 0, 0, 0, 0⟩, blk := [], nbits := 0 } ∧
    r.mctx = { keyed := false, k0 := zeros 64, inner := { active := false, chain := ⟨0, 0, 0, 0, 0⟩, blk := [], nbits := 0 } } ∧
    (∀ n, r.slot n = { loaded := false, alg := 0x00, mode := .enc, key := Vector.replicate 32 0 }) ∧
    r.xtsBound = false ∧
    r.scratch = Scratch.zero ∧
    r.irq = false

/-- R311: a command in flight completes once the host's pending transactions are done, however many they are, unless
one of them starts a reset. (The model's scheduler gives the engine its turn as soon as the list is empty: log entry 2.) -/
def Obligations.AcceptedCommandCompletes : Prop :=
  ∀ s : State, s.phase = .busy → (∀ e ∈ s.pending, e.isHost = true ∧ e.isSoftReset = false) →
    Answers (core.run (s.pending.length + 1) s) fun t => t.phase = .idle ∧ t.done = true ∧ t.pending = []

/-! ### The completion step and what commands leave alone -/

/-- R262 and R264: the completion step of whatever word is latched, when the engine's turn is next: no event to come, or an
engine event first. STATUS tells the code, DONE is set, the phase is IDLE,
the scratch is zero, OVERRUN and LOCKERR stay, and with a code other than OK nothing else differs. A word that does not
decode completes with ILLEGAL_CMD (R101). -/
def Obligations.CompletionStep : Prop :=
  ∀ (s : State) (rest : List Event), s.phase = .busy → (s.pending = [] ∧ rest = []) ∨ s.pending = .engine :: rest →
    Answers (step s) fun t =>
      t.done = true ∧ t.phase = .idle ∧ t.scratch = Scratch.zero ∧
      (t.err = true ↔ t.errcode ≠ .ok) ∧
      (hostReadValue t 0x00C).extractLsb' 8 8 = t.errcode.byte ∧
      (hostReadValue t 0x00C).getLsbD 0 = false ∧ (hostReadValue t 0x00C).getLsbD 1 = true ∧
      (hostReadValue t 0x00C).getLsbD 2 = t.err ∧
      t.overrun = s.overrun ∧ t.lockerr = s.lockerr ∧ t.pending = rest ∧
      (t.errcode ≠ .ok → SameButStatus s t) ∧
      ((∃ e, decode s.latchWord = .error e) → t.errcode = .illegalCmd)

/-- The frame of every command on the host's side: no command changes the configuration or writes CTRL, ARG0-ARG7, the latch, OVERRUN or LOCKERR
(R21, R31, R35, R42, R48), and RESULT0-RESULT2 are written by XTS_PROCESS alone (R32). -/
def Obligations.CommandsLeaveHostRegistersAlone : Prop :=
  ∀ (i : Instr) (s t : State), exec i s = .next t →
    t.config = s.config ∧ t.irqEn = s.irqEn ∧ t.args = s.args ∧ t.latchWord = s.latchWord ∧ t.latchArg = s.latchArg ∧
    t.overrun = s.overrun ∧ t.lockerr = s.lockerr ∧ t.rstN = s.rstN ∧ t.pending = s.pending ∧ t.rdata = s.rdata ∧
    (i ≠ .xtsProcess → t.result0 = s.result0 ∧ t.result1 = s.result1 ∧ t.result2 = s.result2)

/-- The frame of every command on the contexts: each context is changed by the commands of its own family and by ERASE
alone; a slot by CIPHER_KEY to it; the XTS binding by CIPHER_KEY, XTS_INIT and ERASE. -/
def Obligations.CommandsChangeOnlyTheirContexts : Prop :=
  ∀ (i : Instr) (s t : State), exec i s = .next t →
    ((∀ alg, i ≠ .hashReset alg) → i ≠ .hashUpdate → i ≠ .hashFinal → (∀ m, i ≠ .erase m) → t.hctx = s.hctx) ∧
    ((∀ alg, i ≠ .hmacInit alg) → i ≠ .hmacReset → i ≠ .hmacUpdate → i ≠ .hmacFinal → (∀ m, i ≠ .erase m) →
      t.mctx = s.mctx) ∧
    (i ≠ .crcInit → i ≠ .crcUpdate → (∀ m, i ≠ .erase m) → t.crc = s.crc) ∧
    (∀ n, (∀ alg mode, i ≠ .cipherKey alg mode n) → (∀ m, i ≠ .erase m) → t.slot n = s.slot n) ∧
    ((∀ alg mode n, i ≠ .cipherKey alg mode n) → i ≠ .xtsInit → (∀ m, i ≠ .erase m) → t.xtsBound = s.xtsBound)

/-- The frame of every command on Buf (R68): every byte outside the range that the command stores to reads as before,
and a command that stores nothing changes no byte. -/
def Obligations.CommandsStoreOnlyInTheirRange : Prop :=
  ∀ (i : Instr) (s t : State), s.buf.wf = true → exec i s = .next t →
    ∀ a, ¬ ((storedRange i s).1 ≤ a ∧ a < (storedRange i s).1 + (storedRange i s).2) → t.buf.get a = s.buf.get a

/-- R48 and R42: a command's behaviour depends neither on the flags nor on CTRL nor on ARG0-ARG7: with other values of them
the same command has the same effects, and OVERRUN, LOCKERR, IRQ_EN and ARG0-ARG7 keep the other values. -/
def Obligations.CommandsReadNoFlagAndNoArgRegister : Prop :=
  ∀ (i : Instr) (s t : State) (args : Vector Word 8) (irqEn done err overrun lockerr : Bool) (code : Code),
    exec i s = .next t →
    exec i { s with args := args, irqEn := irqEn, done := done, err := err, overrun := overrun, lockerr := lockerr,
                    errcode := code } =
      .next { t with args := args, irqEn := irqEn, overrun := overrun, lockerr := lockerr }

/-! ### Operand checks -/

/-- R7: BUF_BYTES takes exactly the powers of two from 1024 to 32768, and 4096 on this hardware. R99: over each of them,
`inrange` holds exactly of the ranges that lie in Buf, on exact integers; an empty range may stand at its end.
R100: `overlap` holds exactly when the two ranges share an address. -/
def Obligations.OperandPredicatesAreExact : Prop :=
  ((∀ n : Nat, (∃ b : Config.BufSize, b.bytes = n) ↔ ∃ k, n = 2 ^ k ∧ 1024 ≤ n ∧ n ≤ 32768) ∧
    State.reset.config.bufSize.bytes = 4096) ∧
  (∀ (b : Config.BufSize) (a n : Nat),
    (inRange b a n = true ↔ a + n ≤ b.bytes) ∧ (inRange b a 0 = true ↔ a ≤ b.bytes)) ∧
  ∀ a n b m : Nat, overlaps a n b m = true ↔ ∃ x, (a ≤ x ∧ x < a + n) ∧ (b ≤ x ∧ x < b + m)

/-! ### The commands: result, errors in their order, and (by the equation) the whole frame -/

/-- R250: NOP has no effect but its completion. -/
def Obligations.NopCompletes : Prop :=
  encodedBy 0xFFFFFFFF 0x00000000 (fun _ => .nop) ∧
  ∀ s : State, exec .nop s = completes .ok s

/-- R130. -/
def Obligations.HashResetStartsAFreshHash : Prop :=
  encodedBy 0xFF00FFFF 0x00000001 (fun w => .hashReset (w.extractLsb' 16 8)) ∧
  ∀ s : State,
    exec (.hashReset 0x01) s = completes .ok
      { s with hctx :=
        { active := true, chain := ⟨0x67452301, 0xEFCDAB89, 0x98BADCFE, 0x10325476, 0xC3D2E1F0⟩, blk := [], nbits := 0 } } ∧
    ∀ alg, alg ≠ 0x01 → exec (.hashReset alg) s = completes .badAlg s

/-- R131. -/
def Obligations.HashUpdateAbsorbs : Prop :=
  encodedBy 0xFFFFFFFF 0x00000002 (fun _ => .hashUpdate) ∧
  ∀ s : State,
    (s.hctx.active = false → exec .hashUpdate s = completes .hashState s) ∧
    (s.hctx.active = true → arg s 0 + arg s 1 > s.config.bufSize.bytes → exec .hashUpdate s = completes .badRange s) ∧
    (s.hctx.active = true → arg s 0 + arg s 1 ≤ s.config.bufSize.bytes →
      exec .hashUpdate s = completes .ok { s with hctx := s.hctx.absorb (s.buf.read (arg s 0) (arg s 1)) } ∧
      (arg s 1 = 0 → s.hctx.wf = true → exec .hashUpdate s = completes .ok s))

/-- R132. -/
def Obligations.HashFinalWritesTheDigest : Prop :=
  encodedBy 0xFFFFFFFF 0x00000003 (fun _ => .hashFinal) ∧
  ∀ s : State,
    (s.hctx.active = false → exec .hashFinal s = completes .hashState s) ∧
    (s.hctx.active = true → arg s 0 + 20 > s.config.bufSize.bytes → exec .hashFinal s = completes .badRange s) ∧
    (s.hctx.active = true → arg s 0 + 20 ≤ s.config.bufSize.bytes →
      exec .hashFinal s = completes .ok
        { s with
          buf := s.buf.write (arg s 0) s.hctx.finish
          hctx := { active := false, chain := ⟨0, 0, 0, 0, 0⟩, blk := [], nbits := 0 } } ∧
      s.hctx.finish.length = 20)

/-- R153. -/
def Obligations.HmacInitKeysTheContext : Prop :=
  encodedBy 0xFF00FFFF 0x00000008 (fun w => .hmacInit (w.extractLsb' 16 8)) ∧
  ∀ s : State,
    (∀ alg, alg ≠ 0x01 → exec (.hmacInit alg) s = completes .badAlg s) ∧
    (arg s 0 + arg s 1 > s.config.bufSize.bytes → exec (.hmacInit 0x01) s = completes .badRange s) ∧
    (arg s 0 + arg s 1 ≤ s.config.bufSize.bytes →
      exec (.hmacInit 0x01) s = completes .ok
        { s with mctx :=
          { keyed := true
            k0 := hmacK0 (s.buf.read (arg s 0) (arg s 1))
            inner := HashCtx.fresh.absorb (xorBytes (hmacK0 (s.buf.read (arg s 0) (arg s 1))) (List.replicate 64 0x36)) } })

/-- R154. -/
def Obligations.HmacResetReprimes : Prop :=
  encodedBy 0xFFFFFFFF 0x00000009 (fun _ => .hmacReset) ∧
  ∀ s : State,
    (s.mctx.keyed = false → exec .hmacReset s = completes .notKeyed s) ∧
    (s.mctx.keyed = true →
      exec .hmacReset s = completes .ok
        { s with mctx := { s.mctx with inner := HashCtx.fresh.absorb (xorBytes s.mctx.k0 (List.replicate 64 0x36)) } })

/-- R155. -/
def Obligations.HmacUpdateAbsorbs : Prop :=
  encodedBy 0xFFFFFFFF 0x0000000A (fun _ => .hmacUpdate) ∧
  ∀ s : State,
    (s.mctx.keyed = false → exec .hmacUpdate s = completes .notKeyed s) ∧
    (s.mctx.keyed = true → arg s 0 + arg s 1 > s.config.bufSize.bytes → exec .hmacUpdate s = completes .badRange s) ∧
    (s.mctx.keyed = true → arg s 0 + arg s 1 ≤ s.config.bufSize.bytes →
      exec .hmacUpdate s = completes .ok
        { s with mctx := { s.mctx with inner := s.mctx.inner.absorb (s.buf.read (arg s 0) (arg s 1)) } } ∧
      (arg s 1 = 0 → s.mctx.wf = true → exec .hmacUpdate s = completes .ok s))

/-- R156. -/
def Obligations.HmacFinalWritesTheMac : Prop :=
  encodedBy 0xFFFFFFFF 0x0000000B (fun _ => .hmacFinal) ∧
  ∀ s : State,
    (s.mctx.keyed = false → exec .hmacFinal s = completes .notKeyed s) ∧
    (s.mctx.keyed = true → arg s 0 + 20 > s.config.bufSize.bytes → exec .hmacFinal s = completes .badRange s) ∧
    (s.mctx.keyed = true → arg s 0 + 20 ≤ s.config.bufSize.bytes →
      exec .hmacFinal s = completes .ok
        { s with
          buf := s.buf.write (arg s 0)
            (rmd160 (xorBytes s.mctx.k0 (List.replicate 64 0x5c) ++ s.mctx.inner.finish))
          mctx := { s.mctx with inner := HashCtx.fresh.absorb (xorBytes s.mctx.k0 (List.replicate 64 0x36)) } })

/-- R172 and R173, the success: the password and the salt are read from Buf, and dkLen derived bytes are written. -/
def Obligations.Pbkdf2WritesTheDerivedKey : Prop :=
  encodedBy 0xFF00FFFF 0x00000010 (fun w => .pbkdf2 (w.extractLsb' 16 8)) ∧
  ∀ s : State, arg s 4 ≥ 1 → arg s 5 ≥ 1 →
    arg s 0 + arg s 1 ≤ s.config.bufSize.bytes → arg s 2 + arg s 3 ≤ s.config.bufSize.bytes → arg s 6 + arg s 5 ≤ s.config.bufSize.bytes →
    overlaps (arg s 6) (arg s 5) (arg s 0) (arg s 1) = false → overlaps (arg s 6) (arg s 5) (arg s 2) (arg s 3) = false →
    exec (.pbkdf2 0x01) s = completes .ok
      { s with
        buf := s.buf.write (arg s 6)
          (pbkdf2 (s.buf.read (arg s 0) (arg s 1)) (s.buf.read (arg s 2) (arg s 3)) (arg s 4) (arg s 5)) }

/-- R172, the errors in their order: BAD_ALG, then BAD_ARG, then BAD_RANGE, then OVERLAP; none has any other effect. -/
def Obligations.Pbkdf2ErrorsInOrder : Prop :=
  ∀ (s : State) (alg : Byte),
    (alg ≠ 0x01 → exec (.pbkdf2 alg) s = completes .badAlg s) ∧
    (alg = 0x01 →
      (arg s 4 = 0 ∨ arg s 5 = 0 → exec (.pbkdf2 alg) s = completes .badArg s) ∧
      (arg s 4 ≠ 0 → arg s 5 ≠ 0 →
        (arg s 0 + arg s 1 > s.config.bufSize.bytes ∨ arg s 2 + arg s 3 > s.config.bufSize.bytes ∨ arg s 6 + arg s 5 > s.config.bufSize.bytes →
          exec (.pbkdf2 alg) s = completes .badRange s) ∧
        (arg s 0 + arg s 1 ≤ s.config.bufSize.bytes → arg s 2 + arg s 3 ≤ s.config.bufSize.bytes →
          arg s 6 + arg s 5 ≤ s.config.bufSize.bytes →
          (overlaps (arg s 6) (arg s 5) (arg s 0) (arg s 1) = true ∨ overlaps (arg s 6) (arg s 5) (arg s 2) (arg s 3) = true) →
          exec (.pbkdf2 alg) s = completes .overlap s)))

/-- R170 and R174: PBKDF2 gives dkLen bytes; a shorter key is a prefix of a longer one; and one iteration gives `U_1` of
each block (R173), here of the first. -/
def Obligations.Pbkdf2KeysArePrefixes : Prop :=
  ∀ (p s : List Byte) (c d d' : Nat), d ≤ d' →
    (pbkdf2 p s c d).length = d ∧ pbkdf2 p s c d = (pbkdf2 p s c d').take d ∧
    pbkdf2 p s 1 20 = hmac p (s ++ [0x00, 0x00, 0x00, 0x01])

/-- R171: PBKDF2 neither reads nor changes `hctx` and `mctx`, on success and on every error, and its scratch is zero
after it. -/
def Obligations.Pbkdf2UsesNoHostContext : Prop :=
  ∀ (alg : Byte) (s : State) (h : HashCtx) (m : HmacCtx),
    Answers (exec (.pbkdf2 alg) s) fun t =>
      t.hctx = s.hctx ∧ t.mctx = s.mctx ∧ t.scratch = Scratch.zero ∧
      exec (.pbkdf2 alg) { s with hctx := h, mctx := m } = .next { t with hctx := h, mctx := m }

/-- R192 and R193. -/
def Obligations.CrcCommandsCompute : Prop :=
  encodedBy 0xFFFFFFFF 0x00000018 (fun _ => .crcInit) ∧ encodedBy 0xFFFFFFFF 0x00000019 (fun _ => .crcUpdate) ∧
  ∀ s : State,
    exec .crcInit s = completes .ok { s with crc := 0xFFFFFFFF } ∧
    (Answers (exec .crcInit s) fun t => hostReadValue t 0x050 = 0x00000000) ∧
    (arg s 0 + arg s 1 > s.config.bufSize.bytes → exec .crcUpdate s = completes .badRange s) ∧
    (arg s 0 + arg s 1 ≤ s.config.bufSize.bytes →
      exec .crcUpdate s = completes .ok { s with crc := crcBytes s.crc (s.buf.read (arg s 0) (arg s 1)) } ∧
      (arg s 1 = 0 → exec .crcUpdate s = completes .ok s))

/-- R203, slot by slot: first over any cipher table (R201), then with the numbers of this hardware's, where AES-256 with ALG
0x01 and a 32-byte key is the one row. That the bytes of a shorter key stand first in the slot's 32, with zeros after them, is
the model's choice (log entry 16). -/
def Obligations.CipherKeyLoadsASlot : Prop :=
  encodedBy 0xFF00EEFF 0x00000020 (fun w => .cipherKey (w.extractLsb' 16 8) (if w.getLsbD 12 then .dec else .enc)
    (if w.getLsbD 8 then .slot1 else .slot0)) ∧
  ∀ (s : State) (mode : CipherMode),
    (∀ alg n, (∀ row ∈ s.config.ciphers, row.alg ≠ alg) → exec (.cipherKey alg mode n) s = completes .badAlg s) ∧
    (∀ alg row, s.config.ciphers.find? (fun x => x.alg == alg) = some row →
      (∀ n, arg s 0 + row.keyBytes.val > s.config.bufSize.bytes →
        exec (.cipherKey alg mode n) s = completes .badRange s) ∧
      (arg s 0 + row.keyBytes.val ≤ s.config.bufSize.bytes →
        let key := toVec 32 (s.buf.read (arg s 0) row.keyBytes.val)
        exec (.cipherKey alg mode .slot0) s = completes .ok
          { s with slot0 := { loaded := true, alg := alg, mode := mode, key := key }, xtsBound := false } ∧
        exec (.cipherKey alg mode .slot1) s = completes .ok
          { s with slot1 := { loaded := true, alg := alg, mode := mode, key := key }, xtsBound := false })) ∧
    (s.config.ciphers = Config.hardware.ciphers →
      (∀ alg n, alg ≠ 0x01 → exec (.cipherKey alg mode n) s = completes .badAlg s) ∧
      (∀ n, arg s 0 + 32 > s.config.bufSize.bytes → exec (.cipherKey 0x01 mode n) s = completes .badRange s) ∧
      (arg s 0 + 32 ≤ s.config.bufSize.bytes →
        let key := toVec 32 (s.buf.read (arg s 0) 32)
        exec (.cipherKey 0x01 mode .slot0) s = completes .ok
          { s with slot0 := { loaded := true, alg := 0x01, mode := mode, key := key }, xtsBound := false } ∧
        exec (.cipherKey 0x01 mode .slot1) s = completes .ok
          { s with slot1 := { loaded := true, alg := 0x01, mode := mode, key := key }, xtsBound := false }))

/-- R204 and R202: the block at src goes through the slot's cipher in the slot's direction, whatever the overlap of src
and dst. The cipher is the pair of functions that the row of the slot's algorithm names (R201); with this hardware's table
it is AES-256 in every slot. How a row names other functions is the model's choice (log entry 16). -/
def Obligations.CipherBlockRunsOneBlock : Prop :=
  encodedBy 0xFFFFFEFF 0x00000021 (fun w => .cipherBlock (if w.getLsbD 8 then .slot1 else .slot0)) ∧
  ∀ (s : State) (n : SlotId),
    let key := (s.slot n).key
    let x := toVec 16 (s.buf.read (arg s 0) 16)
    let writes := fun y : Block => exec (.cipherBlock n) s = completes .ok { s with buf := s.buf.write (arg s 1) y.toList }
    ((s.slot n).loaded = false → exec (.cipherBlock n) s = completes .notKeyed s) ∧
    ((s.slot n).loaded = true → arg s 0 + 16 > s.config.bufSize.bytes ∨ arg s 1 + 16 > s.config.bufSize.bytes →
      exec (.cipherBlock n) s = completes .badRange s) ∧
    ((s.slot n).loaded = true → arg s 0 + 16 ≤ s.config.bufSize.bytes → arg s 1 + 16 ≤ s.config.bufSize.bytes →
      (∀ row, s.config.ciphers.find? (fun x => x.alg == (s.slot n).alg) = some row →
        ((s.slot n).mode = .enc → writes (row.core.enc key x)) ∧ ((s.slot n).mode = .dec → writes (row.core.dec key x))) ∧
      (s.config.ciphers = Config.hardware.ciphers →
        ((s.slot n).mode = .enc → writes (Config.aes256Enc key x)) ∧
        ((s.slot n).mode = .dec → writes (Config.aes256Dec key x))))

/-- R223, stated over the cipher table (R201); with this hardware's, two loaded slots are enough. -/
def Obligations.XtsInitBindsTwoLoadedSlots : Prop :=
  encodedBy 0xFFFFFFFF 0x00000028 (fun _ => .xtsInit) ∧
  ∀ s : State,
    let size := cipherBlockSize s.config.ciphers
    (s.slot0.loaded = false ∨ s.slot1.loaded = false → exec .xtsInit s = completes .xtsMismatch s) ∧
    (s.slot0.alg ≠ s.slot1.alg → exec .xtsInit s = completes .xtsMismatch s) ∧
    (size s.slot0.alg ≠ 16 ∨ size s.slot1.alg ≠ 16 → exec .xtsInit s = completes .xtsMismatch s) ∧
    (s.slot0.loaded = true → s.slot1.loaded = true → s.slot0.alg = s.slot1.alg → size s.slot0.alg = 16 →
      exec .xtsInit s = completes .ok { s with xtsBound := true }) ∧
    (∀ alg row, s.config.ciphers.find? (fun x => x.alg == alg) = some row → size alg = row.blockBytes) ∧
    (s.config.ciphers = Config.hardware.ciphers → s.slot0.wf s.config.ciphers = true → s.slot1.wf s.config.ciphers = true →
      s.slot0.loaded = true → s.slot1.loaded = true → exec .xtsInit s = completes .ok { s with xtsBound := true })

/-- R224, the errors in their order: XTS_NOT_READY, then BAD_ARG, then BAD_LENGTH, then BAD_RANGE; none has any other effect. -/
def Obligations.XtsProcessErrorsInOrder : Prop :=
  encodedBy 0xFFFFFFFF 0x00000029 (fun _ => .xtsProcess) ∧
  ∀ s : State,
    (s.xtsBound = false → exec .xtsProcess s = completes .xtsNotReady s) ∧
    (s.xtsBound = true → arg s 4 > 31 → exec .xtsProcess s = completes .badArg s) ∧
    (s.xtsBound = true → arg s 4 ≤ 31 → arg s 1 % 16 ≠ 0 → exec .xtsProcess s = completes .badLength s) ∧
    (s.xtsBound = true → arg s 4 ≤ 31 → arg s 1 % 16 = 0 → arg s 0 + arg s 1 > s.config.bufSize.bytes →
      exec .xtsProcess s = completes .badRange s)

/-- R221, R222 and R224: each of the sub-blocks of the range becomes `cipher(slot[0], P ^ T) ^ T` with the tweak T of its
unit and index, every other byte stays, and RESULT0-RESULT2 hold the position after the last. The tweak is always made
by encryption under slot 1's key, whatever slot 1's mode; with this hardware's cipher table the functions of both slots are
AES-256's, in every state. How another table names its functions, and that its XTS makes the tweak with slot 1's, is the
model's choice (log entry 16). -/
def Obligations.XtsProcessTransformsEachSubBlock : Prop :=
  ∀ s : State, s.buf.wf = true → s.xtsBound = true → arg s 4 ≤ 31 → arg s 1 % 16 = 0 →
    arg s 0 + arg s 1 ≤ s.config.bufSize.bytes →
    let core := cipherCore s.config.ciphers
    let cipher := fun x : Block =>
      match s.slot0.mode with
      | .enc => (core s.slot0.alg).enc s.slot0.key x
      | .dec => (core s.slot0.alg).dec s.slot0.key x
    (s.config.ciphers = Config.hardware.ciphers → ∀ k : Slot,
      (core k.alg).enc k.key = Config.aes256Enc k.key ∧ (core k.alg).dec k.key = Config.aes256Dec k.key) ∧
    Answers (exec .xtsProcess s) fun t =>
      t.errcode = .ok ∧
      (∀ k, k < arg s 1 / 16 →
        let g := arg s 4 + k
        let u := (s.latchArg[3] ++ s.latchArg[2] : BitVec 64) + BitVec.ofNat 64 (g / 32)
        let tw := doubleIter (g % 32) ((core s.slot1.alg).enc s.slot1.key (toVec 16 (le64Bytes u ++ zeros 8)))
        t.buf.read (arg s 0 + 16 * k) 16 =
          (xorBlock (cipher (xorBlock (toVec 16 (s.buf.read (arg s 0 + 16 * k) 16)) tw)) tw).toList) ∧
      (∀ a, a < arg s 0 ∨ arg s 0 + arg s 1 ≤ a → t.buf.get a = s.buf.get a) ∧
      (t.result1 ++ t.result0 : BitVec 64) =
        (s.latchArg[3] ++ s.latchArg[2] : BitVec 64) + BitVec.ofNat 64 ((arg s 4 + arg s 1 / 16) / 32) ∧
      t.result2.toNat = (arg s 4 + arg s 1 / 16) % 32 ∧
      t.hctx = s.hctx ∧ t.mctx = s.mctx ∧ t.crc = s.crc ∧ t.slot0 = s.slot0 ∧ t.slot1 = s.slot1 ∧ t.xtsBound = true

/-- R251, mask bit by mask bit, for every mask. -/
def Obligations.EraseZeroizesTheSelectedContexts : Prop :=
  encodedBy 0xFFFFF0FF 0x00000030 (fun w => .erase (w.extractLsb' 8 4)) ∧
  ∀ (m : BitVec 4) (s : State),
    Answers (exec (.erase m) s) fun t =>
      t.errcode = .ok ∧
      t.hctx = (if m.getLsbD 0 then { active := false, chain := ⟨0, 0, 0, 0, 0⟩, blk := [], nbits := 0 } else s.hctx) ∧
      t.mctx = (if m.getLsbD 1 then { keyed := false, k0 := zeros 64, inner := HashCtx.idle } else s.mctx) ∧
      (∀ n, t.slot n = if m.getLsbD 2 then { loaded := false, alg := 0x00, mode := .enc, key := Vector.replicate 32 0 }
        else s.slot n) ∧
      t.xtsBound = (s.xtsBound && !m.getLsbD 2) ∧
      t.crc = (if m.getLsbD 3 then 0xFFFFFFFF else s.crc) ∧
      t.buf = s.buf ∧ t.args = s.args ∧ t.result0 = s.result0 ∧ t.result1 = s.result1 ∧ t.result2 = s.result2

/-- R252. -/
def Obligations.EraseBufZeroFills : Prop :=
  encodedBy 0xFFFFFFFF 0x00000031 (fun _ => .eraseBuf) ∧
  ∀ s : State,
    (arg s 0 + arg s 1 > s.config.bufSize.bytes → exec .eraseBuf s = completes .badRange s) ∧
    (arg s 0 + arg s 1 ≤ s.config.bufSize.bytes →
      exec .eraseBuf s = completes .ok { s with buf := s.buf.write (arg s 0) (List.replicate (arg s 1) 0) } ∧
      (s.buf.wf = true → Answers (exec .eraseBuf s) fun t =>
        ∀ a, t.buf.get a = if arg s 0 ≤ a ∧ a < arg s 0 + arg s 1 then 0 else s.buf.get a))

/-! ### What sequences of commands compute -/

/-- R127: the compression function is the interleaved loop of the rule's pseudocode. -/
def Obligations.CompressIsTheInterleavedLoop : Prop :=
  ∀ (h : Chain) (b : List Byte),
    let x := (List.range 16).map fun i => le32 (b.drop (4 * i))
    let w := (List.range 80).foldl (loopBody x) ⟨h.h0, h.h1, h.h2, h.h3, h.h4, h.h0, h.h1, h.h2, h.h3, h.h4⟩
    compress h b = ⟨h.h1 + w.c + w.d', h.h2 + w.d + w.e', h.h3 + w.e + w.a', h.h4 + w.a + w.b', h.h0 + w.b + w.c'⟩

/-- R133: for any split of a message into chunks, HASH_RESET, HASH_UPDATE of each chunk and HASH_FINAL write the digest of
the whole message. -/
def Obligations.HashOfAnySplitIsTheDigest : Prop :=
  ∀ (s : State) (cs : List (List Byte)) (dst : Nat), s.buf.wf = true →
    (∀ c ∈ cs, c.length ≤ s.config.bufSize.bytes) → dst + 20 ≤ s.config.bufSize.bytes →
    Answers (andThen (andThen (exec (.hashReset 0x01) s) (feed .hashUpdate cs))
        fun t => exec .hashFinal (withArgs (args2 dst 0) t)) fun t =>
      t.errcode = .ok ∧ t.buf.read dst 20 = rmd160 cs.flatten ∧ t.hctx = HashCtx.idle

/-- R151 and R156: from a freshly primed context under a key, HMAC_UPDATE of the chunks of a message in any split and
HMAC_FINAL write HMAC of the whole message, and leave the context freshly primed under the same key. -/
def Obligations.HmacOfAnySplitIsTheMac : Prop :=
  ∀ (s : State) (key : List Byte) (cs : List (List Byte)) (dst : Nat), s.buf.wf = true →
    key.length ≤ s.config.bufSize.bytes → (∀ c ∈ cs, c.length ≤ s.config.bufSize.bytes) → dst + 20 ≤ s.config.bufSize.bytes →
    Answers (andThen (andThen (exec (.hmacInit 0x01) (loaded key s)) (feed .hmacUpdate cs))
        fun t => exec .hmacFinal (withArgs (args2 dst 0) t)) fun t =>
      t.errcode = .ok ∧
      t.buf.read dst 20 =
        rmd160 (xorBytes (hmacK0 key) (List.replicate 64 0x5c) ++
          rmd160 (xorBytes (hmacK0 key) (List.replicate 64 0x36) ++ cs.flatten)) ∧
      Answers (exec (.hmacInit 0x01) (loaded key s)) fun t₀ => t.mctx = t₀.mctx

/-- R191: CRC_VALUE reads the register with every bit complemented, and after CRC_INIT and CRC_UPDATE over the chunks of a message in any split, CRC_VALUE reads its CRC-32. -/
def Obligations.CrcOfAnySplitIsTheChecksum : Prop :=
  ∀ (s : State) (cs : List (List Byte)), s.buf.wf = true → (∀ c ∈ cs, c.length ≤ s.config.bufSize.bytes) →
    Answers (andThen (exec .crcInit s) (feed .crcUpdate cs)) fun t =>
      t.errcode = .ok ∧ hostReadValue t 0x050 = t.crc ^^^ 0xFFFFFFFF ∧ hostReadValue t 0x050 = crc32 cs.flatten

/-- R8 on the command CIPHER_BLOCK: what a slot keyed ENC writes, the same slot keyed DEC turns back into the input, if the
slot's algorithm is AES-256, as every listed one of this hardware is (R201). It rests
on what R8 assumes of the external AES-256 functions (log entry 4). -/
def Obligations.CipherBlockDecryptsWhatItEncrypted : Prop :=
  ∀ (s : State) (n : SlotId) (dst' : Nat), s.buf.wf = true → (s.slot n).loaded = true → (s.slot n).mode = .enc →
    cipherCore s.config.ciphers (s.slot n).alg = .aes256 →
    arg s 0 + 16 ≤ s.config.bufSize.bytes → arg s 1 + 16 ≤ s.config.bufSize.bytes → dst' + 16 ≤ s.config.bufSize.bytes →
    Answers (exec (.cipherBlock n) s) fun t =>
      Answers (exec (.cipherBlock n) (withArgs (args2 (arg s 1) dst') (t.setSlot n { s.slot n with mode := .dec })))
        fun t' => t'.buf.read dst' 16 = s.buf.read (arg s 0) 16

/-- R220: the doubler on the number that the tweak's bytes stand for, little-endian: twice it, and if that does not fit in
128 bits, the rest of it with 135 exclusive-ored in; and its powers. -/
def Obligations.DoublerShiftsAndReduces : Prop :=
  ∀ t : Block,
    (littleEndian t.toList < 2 ^ 127 → littleEndian (double t).toList = 2 * littleEndian t.toList) ∧
    (2 ^ 127 ≤ littleEndian t.toList →
      littleEndian (double t).toList = (2 * littleEndian t.toList - 2 ^ 128) ^^^ 135) ∧
    doubleIter 0 t = t ∧ ∀ j, doubleIter (j + 1) t = double (doubleIter j t)

/-- R226 and R227: a range processed in any number of calls, each starting where RESULT0-RESULT2 of the call before
leave off, gives what one call over the whole range gives. -/
def Obligations.XtsCallsCompose : Prop :=
  ∀ (s : State) (ns : List Nat) (a : Nat), s.xtsBound = true → s.result2.toNat ≤ 31 →
    a + 16 * ns.sum ≤ s.config.bufSize.bytes →
    Answers (exec .xtsProcess (withArgs (xtsArgs a (16 * ns.sum) s.result0 s.result1 s.result2) s)) fun t =>
      Answers (xtsChain ns a s) fun t' =>
        t.errcode = .ok ∧ t'.buf = t.buf ∧ t'.result0 = t.result0 ∧ t'.result1 = t.result1 ∧ t'.result2 = t.result2

/-- R230: XTS_PROCESS with slot 0 keyed DEC, under the same keys and from the same position, restores what XTS_PROCESS
with slot 0 keyed ENC wrote, slot 1 being in either mode; slot 0's algorithm is AES-256, as every listed one of this
hardware is (R201). It rests on what R8 assumes of the external AES-256 functions,
`AES256_Dec(k, AES256_Enc(k, b)) = b`; the form in which the model holds that assumption is log entry 4. -/
def Obligations.XtsDecryptsWhatItEncrypted : Prop :=
  ∀ (s : State) (mode : CipherMode), s.buf.wf = true → s.xtsBound = true → s.slot0.mode = .enc →
    cipherCore s.config.ciphers s.slot0.alg = .aes256 → arg s 4 ≤ 31 → arg s 1 % 16 = 0 → arg s 0 + arg s 1 ≤ s.config.bufSize.bytes →
    Answers (exec .xtsProcess s) fun t =>
      Answers (exec .xtsProcess
          { t with slot0 := { t.slot0 with mode := .dec }, slot1 := { t.slot1 with mode := mode } }) fun t' =>
        t'.errcode = .ok ∧ t'.buf = s.buf

/-- R305: a successful CIPHER_KEY, of any algorithm of the cipher table and to either slot, unbinds XTS, so that XTS_PROCESS
then completes with XTS_NOT_READY and writes nothing. -/
def Obligations.RekeyingUnbindsXts : Prop :=
  ∀ (s : State) (alg : Byte) (row : Config.CipherRow) (mode : CipherMode) (n : SlotId) (a : Vector Word 8),
    s.config.ciphers.find? (fun x => x.alg == alg) = some row → arg s 0 + row.keyBytes.val ≤ s.config.bufSize.bytes →
    Answers (exec (.cipherKey alg mode n) s) fun t =>
      t.errcode = .ok ∧ t.xtsBound = false ∧
      exec .xtsProcess (withArgs a t) = completes .xtsNotReady (withArgs a t) ∧ t.buf = s.buf

/-! ### The host's side -/

/-- R28, R261 and R267: a full-strobe CMD write while IDLE accepts the word, whatever it is, in that same step; while BUSY
it is dropped and sets OVERRUN, and nothing else changes. -/
def Obligations.CmdWriteIsAcceptedOnlyWhenIdle : Prop :=
  ∀ (s : State) (offset : BitVec 16) (w : Word) (rest : List Event), offset &&& 0xFFFC = 0x010 →
    s.pending = .hostWrite offset w 0xF :: rest →
    (s.phase = .idle →
      step s = .next
        { s with
          latchWord := w, latchArg := s.args, phase := .busy, done := false, err := false, errcode := .ok, pending := rest } ∧
      Answers (step s) fun t => hostReadValue t 0x010 = w ∧ t.irq = false) ∧
    (s.phase = .busy → step s = .next { s with overrun := true, pending := rest })

/-- R103: the bus writes of a command statement, from an IDLE engine: the command is accepted with its word and its
operands, in ARG0 on; the other arguments are what ARG held. -/
def Obligations.IssuedCommandIsAcceptedWithItsOperands : Prop :=
  ∀ (s : State) (i : Instr) (operands : List Word) (rest : List Event), s.phase = .idle →
    operands.length = operandCount i → s.pending = issue i operands ++ rest →
    Answers (core.run (operands.length + 1) s) fun t =>
      t.phase = .busy ∧ t.latchWord = encode i ∧ t.pending = rest ∧ t.buf = s.buf ∧
      ∀ k : Fin 8, t.latchArg[k] = operands.getD k.val s.args[k]

/-- R31, R63 and R64: an ARG write, with any strobes and at any of the four offsets of the register's word, in the IDLE and
the BUSY phase, replaces exactly the bytes whose strobe is set, which a read at any of the four offsets then returns, and
leaves every other argument register and the latch as they are. -/
def Obligations.ArgWriteReplacesStrobedBytes : Prop :=
  ∀ (s : State) (i : Fin 8) (offset : BitVec 16) (v : Word) (strb : BitVec 4) (rest : List Event),
    s.phase ≠ .resetting → offset &&& 0xFFFC = BitVec.ofNat 16 (0x020 + 4 * i.val) →
    s.pending = .hostWrite offset v strb :: rest →
    Answers (step s) fun t =>
      t = { s with args := t.args, pending := rest } ∧
      (∀ o : BitVec 16, o &&& 0xFFFC = BitVec.ofNat 16 (0x020 + 4 * i.val) → hostReadValue t o = t.args[i]) ∧
      (∀ k : Fin 4, t.args[i].extractLsb' (8 * k.val) 8 =
        if strb.getLsbD k.val then v.extractLsb' (8 * k.val) 8 else s.args[i].extractLsb' (8 * k.val) 8) ∧
      ∀ j : Fin 8, j ≠ i → t.args[j] = s.args[j]

/-- R64 and R36: a write to a register other than ARG0-ARG7 with any strobe clear, and a write to a read-only register
or a reserved offset with any strobes, are ignored and set no flag. -/
def Obligations.IgnoredRegisterWritesChangeNothing : Prop :=
  ∀ (s : State) (offset : BitVec 16) (v : Word) (strb : BitVec 4) (rest : List Event),
    s.pending = .hostWrite offset v strb :: rest →
    (offset.toNat < 0x1000 → ¬ (0x020 ≤ offset.toNat ∧ offset.toNat < 0x040) → strb ≠ 0xF →
      step s = .next { s with pending := rest }) ∧
    (offset.toNat < 0x008 ∨ (0x014 ≤ offset.toNat ∧ offset.toNat < 0x020) ∨
        (0x040 ≤ offset.toNat ∧ offset.toNat < 0x1000) ∨ 0x1000 + s.config.bufSize.bytes ≤ offset.toNat →
      step s = .next { s with pending := rest })

/-- R22-R36, R62, R63, R65, R71, R298: what the host reads at every offset while IDLE, and at every offset but the buffer
window's while BUSY, each of a word's four offsets reading that word, and that the read changes nothing but `rdata`; reserved
offsets read 0. The registers show the values they have before the completion while a command is in flight. (The window while
BUSY is `WindowIsLockedWhileBusy`.) -/
def Obligations.RegisterMapReads : Prop :=
  ∀ (s : State) (offset : BitVec 16), s.phase ≠ .resetting →
    let v := hostReadValue s offset
    (∀ rest, s.phase = .idle ∨ offset.toNat < 0x1000 ∨ 0x1000 + s.config.bufSize.bytes ≤ offset.toNat →
      s.pending = .hostRead offset :: rest → step s = .next { s with rdata := v, pending := rest }) ∧
    v = hostReadValue s (offset &&& 0xFFFC) ∧
    (offset &&& 0xFFFC = 0x000 → v = 0x50424B32) ∧
    (offset &&& 0xFFFC = 0x004 → v = 0x00010000) ∧
    (offset &&& 0xFFFC = 0x008 → v = if s.irqEn then 1 else 0) ∧
    (offset &&& 0xFFFC = 0x00C →
      v = (0 : BitVec 16) ++ s.errcode.byte ++ (0 : BitVec 3) ++ BitVec.ofBool s.lockerr ++ BitVec.ofBool s.overrun ++
        BitVec.ofBool s.err ++ BitVec.ofBool s.done ++ BitVec.ofBool (s.phase == .busy)) ∧
    (offset &&& 0xFFFC = 0x010 → v = s.latchWord) ∧
    (offset &&& 0xFFFC = 0x018 → v = 0x07D01440) ∧
    (offset &&& 0xFFFC = 0x01C → v = 0x00201001) ∧
    (∀ i : Fin 8, offset &&& 0xFFFC = BitVec.ofNat 16 (0x020 + 4 * i.val) → v = s.args[i]) ∧
    (offset &&& 0xFFFC = 0x040 → v = s.result0) ∧
    (offset &&& 0xFFFC = 0x044 → v = s.result1) ∧
    (offset &&& 0xFFFC = 0x048 → v = s.result2) ∧
    (offset &&& 0xFFFC = 0x050 → v = s.crc ^^^ 0xFFFFFFFF) ∧
    (offset &&& 0xFFFC = 0x054 →
      v = (0 : BitVec 23) ++ BitVec.ofBool s.xtsBound ++ BitVec.ofBool (s.slot1.mode == .dec) ++
        BitVec.ofBool s.slot1.loaded ++ BitVec.ofBool (s.slot0.mode == .dec) ++ BitVec.ofBool s.slot0.loaded ++
        (0 : BitVec 2) ++ BitVec.ofBool s.mctx.keyed ++ BitVec.ofBool s.hctx.active) ∧
    (offset &&& 0xFFFC = 0x058 → v = BitVec.ofNat 32 s.config.bufSize.bytes) ∧
    (∀ k, s.phase = .idle → 4 * k + 3 < s.config.bufSize.bytes →
      offset &&& 0xFFFC = BitVec.ofNat 16 (0x1000 + 4 * k) →
      v = (s.buf.get (4 * k + 3) ++ s.buf.get (4 * k + 2) ++ s.buf.get (4 * k + 1) ++ s.buf.get (4 * k) : BitVec 32)) ∧
    ((0x014 ≤ offset.toNat ∧ offset.toNat < 0x018) ∨ (0x04C ≤ offset.toNat ∧ offset.toNat < 0x050) ∨
        (0x05C ≤ offset.toNat ∧ offset.toNat < 0x1000) ∨ 0x1000 + s.config.bufSize.bytes ≤ offset.toNat →
      v = 0)

/-- R26, R34, R63 and R263: the codes' values, and the fields of STATUS and CTX_STATUS, bit by bit, as the host reads them
at each of their offsets while IDLE or BUSY. -/
def Obligations.StatusWordsShowTheFields : Prop :=
  (Code.ok.byte = 0x00 ∧ Code.illegalCmd.byte = 0x01 ∧ Code.badAlg.byte = 0x02 ∧ Code.hashState.byte = 0x03 ∧
    Code.notKeyed.byte = 0x04 ∧ Code.xtsMismatch.byte = 0x05 ∧ Code.xtsNotReady.byte = 0x06 ∧ Code.badArg.byte = 0x07 ∧
    Code.badLength.byte = 0x08 ∧ Code.badRange.byte = 0x09 ∧ Code.overlap.byte = 0x0A) ∧
  ∀ (s : State) (offset : BitVec 16), s.phase ≠ .resetting →
    let v := hostReadValue s offset
    (offset &&& 0xFFFC = 0x00C →
      v.getLsbD 0 = decide (s.phase = .busy) ∧ v.getLsbD 1 = s.done ∧ v.getLsbD 2 = s.err ∧ v.getLsbD 3 = s.overrun ∧
      v.getLsbD 4 = s.lockerr ∧ v.getLsbD 5 = false ∧ v.extractLsb' 6 2 = 0 ∧
      v.extractLsb' 8 8 = s.errcode.byte ∧ v.extractLsb' 16 16 = 0) ∧
    (offset &&& 0xFFFC = 0x054 →
      v.getLsbD 0 = s.hctx.active ∧ v.getLsbD 1 = s.mctx.keyed ∧ v.extractLsb' 2 2 = 0 ∧ v.getLsbD 4 = s.slot0.loaded ∧
      v.getLsbD 5 = decide (s.slot0.mode = .dec) ∧ v.getLsbD 6 = s.slot1.loaded ∧
      v.getLsbD 7 = decide (s.slot1.mode = .dec) ∧ v.getLsbD 8 = s.xtsBound ∧ v.extractLsb' 9 23 = 0)

/-- R27 and R63: a full-strobe write to STATUS, at any of its four offsets, clears the flags whose bits are 1 and changes
nothing else, in the IDLE and the BUSY phase. -/
def Obligations.StatusWriteOneClears : Prop :=
  ∀ (s : State) (offset : BitVec 16) (v : Word) (rest : List Event), s.phase ≠ .resetting → offset &&& 0xFFFC = 0x00C →
    s.pending = .hostWrite offset v 0xF :: rest →
    step s = .next
      { s with
        done := if v.getLsbD 1 then false else s.done
        err := if v.getLsbD 2 then false else s.err
        overrun := if v.getLsbD 3 then false else s.overrun
        lockerr := if v.getLsbD 4 then false else s.lockerr
        pending := rest }

/-- R62 and R63: while IDLE a window read, at any of the four offsets of a buffer word, returns its four bytes,
little-endian, and a window write there changes exactly the bytes of it whose strobe is set, and nothing outside Buf. -/
def Obligations.WindowWriteChangesStrobedBytes : Prop :=
  ∀ (s : State) (k : Nat) (offset : BitVec 16) (v : Word) (strb : BitVec 4) (rest : List Event), s.buf.wf = true →
    s.phase = .idle → 4 * k + 3 < s.config.bufSize.bytes → offset &&& 0xFFFC = BitVec.ofNat 16 (0x1000 + 4 * k) →
    hostReadValue s offset =
      (s.buf.get (4 * k + 3) ++ s.buf.get (4 * k + 2) ++ s.buf.get (4 * k + 1) ++ s.buf.get (4 * k) : BitVec 32) ∧
    (s.pending = .hostWrite offset v strb :: rest →
      Answers (step s) fun t =>
        t = { s with buf := t.buf, pending := rest } ∧
        (∀ i : Fin 4, t.buf.get (4 * k + i.val) =
          if strb.getLsbD i.val then v.extractLsb' (8 * i.val) 8 else s.buf.get (4 * k + i.val)) ∧
        ∀ a, a < 4 * k ∨ 4 * k + 4 ≤ a → t.buf.get a = s.buf.get a)

/-- R72: while BUSY the buffer window is locked: a write is ignored, a read returns 0, and each sets LOCKERR and nothing
else; while RESETTING an access is ignored, reads 0 and sets nothing. -/
def Obligations.WindowIsLockedWhileBusy : Prop :=
  ∀ (s : State) (offset : BitVec 16) (rest : List Event),
    0x1000 ≤ offset.toNat → offset.toNat < 0x1000 + s.config.bufSize.bytes →
    (s.phase = .busy →
      (∀ v strb, s.pending = .hostWrite offset v strb :: rest →
        step s = .next { s with lockerr := true, pending := rest }) ∧
      (s.pending = .hostRead offset :: rest →
        step s = .next { s with lockerr := true, rdata := 0x00000000, pending := rest })) ∧
    (s.phase = .resetting →
      (∀ v strb, s.pending = .hostWrite offset v strb :: rest → step s = .next { s with pending := rest }) ∧
      (s.pending = .hostRead offset :: rest → step s = .next { s with rdata := 0x00000000, pending := rest }))

/-- R292: while RESETTING every host write is ignored, every host read returns 0 except STATUS, which reads 0x21, and
`irq` is 0. That `irq` is 0 needs the invariant. -/
def Obligations.NothingWorksWhileResetting : Prop :=
  ∀ (s : State) (offset : BitVec 16) (rest : List Event), s.phase = .resetting →
    (∀ v strb, s.pending = .hostWrite offset v strb :: rest → step s = .next { s with pending := rest }) ∧
    (s.pending = .hostRead offset :: rest →
      step s = .next
        { s with rdata := if offset &&& 0xFFFC = 0x00C then 0x00000021 else 0x00000000, pending := rest }) ∧
    (s.Inv → s.irq = false)

/-- R63, R290-R294: a soft reset written at any of CTRL's four offsets while IDLE or BUSY, and the engine's
turn after it, leave the reset state, whatever stood before: the command in flight never completes and nothing survives.
The last clause, that Buf still holds its bytes in the RESETTING state between the two, is no rule of the spec: R291 zeroizes
them during the sequence, R292 hides them, and that the model clears them at reset-end is its own deduction (DEDUCED, log
entry 7). -/
def Obligations.SoftResetLeavesNothing : Prop :=
  ∀ (s : State) (offset : BitVec 16) (v : Word) (rest : List Event), s.phase ≠ .resetting → s.rstN = true →
    v.getLsbD 1 = true → offset &&& 0xFFFC = 0x008 → s.pending = .hostWrite offset v 0xF :: .engine :: rest →
    core.run 2 s = .next { State.resetOf s.config with pending := rest, rdata := s.rdata } ∧
    Answers (step s) fun t =>
      t.phase = .resetting ∧ t.irq = false ∧
      (∀ o : BitVec 16, o &&& 0xFFFC = 0x00C → hostReadValue t o = 0x00000021) ∧ t.buf = s.buf

/-- R290 and R293: `rst_n` low starts the same reset from any phase; reset-end is enabled while RESETTING with `rst_n` high
and sets every piece of the engine's state to its reset value; while `rst_n` is low the engine stays RESETTING, its turn
changing nothing (log entry 2). -/
def Obligations.HardwareResetWaitsForThePin : Prop :=
  ∀ (s : State) (rest : List Event),
    (s.pending = .rstLow :: .engine :: .rstHigh :: .engine :: rest →
      core.run 4 s = .next { State.resetOf s.config with pending := rest, rdata := s.rdata } ∧
      Answers (core.run 2 s) fun t => t.phase = .resetting ∧ t.irq = false ∧ t.pending = .rstHigh :: .engine :: rest) ∧
    (s.phase = .resetting → (s.pending = [] ∧ rest = []) ∨ s.pending = .engine :: rest →
      (s.rstN = true → step s = .next { State.resetOf s.config with pending := rest, rdata := s.rdata }) ∧
      (s.rstN = false → step s = .next { s with pending := rest }))

/-- R25, R63, R270 and R302: `irq` is IRQ_EN and DONE; a full-strobe write without SOFT_RESET at any of CTRL's four offsets
sets IRQ_EN at once, in the IDLE and the BUSY phase, and changes nothing else; and a completion, when the
engine's turn is next (no event to come, or an engine event first), raises `irq` exactly when IRQ_EN is set. -/
def Obligations.InterruptFollowsEnableAndDone : Prop :=
  ∀ s : State, s.irq = (s.irqEn && s.done) ∧
    (∀ (offset : BitVec 16) (v : Word) (rest : List Event), s.phase ≠ .resetting → v.getLsbD 1 = false →
      offset &&& 0xFFFC = 0x008 → s.pending = .hostWrite offset v 0xF :: rest →
      step s = .next { s with irqEn := v.getLsbD 0, pending := rest } ∧
      Answers (step s) fun t => t.irq = (v.getLsbD 0 && s.done)) ∧
    (∀ rest : List Event, s.phase = .busy → (s.pending = [] ∧ rest = []) ∨ s.pending = .engine :: rest →
      Answers (step s) fun t => t.irq = s.irqEn ∧ t.pending = rest)

/-- R46: no host read returns a secret: two states that differ only in the secrets read the same at every offset, and the
read leaves them as alike as before. -/
def Obligations.ReadsRevealNoSecret : Prop :=
  ∀ (s t : State) (offset : BitVec 16), s.SameToHost t →
    hostReadValue s offset = hostReadValue t offset ∧ (hostRead offset s).SameToHost (hostRead offset t)

/-- R72, R301 and R298: no host transaction but a soft reset can change what the command in flight does: after it the
engine is still BUSY with the same command, and the completion has the same effects. -/
def Obligations.HostCannotDisturbTheCommandInFlight : Prop :=
  ∀ (s : State) (e : Event), s.phase = .busy → e.isHost = true → e.isSoftReset = false →
    Answers (handle e s) fun s' =>
      s'.phase = .busy ∧
      Answers (engineTurn s) fun t => Answers (engineTurn s') fun t' => SameEffects t t'
end

