-- ==== Sys2Proof/Laws/Bytes.lean ====
section
/-! SUPPORT. The laws of byte sequences: lengths, the conversions undo each other, and exclusive or cancels. -/

namespace Sys2Proof.Machine

@[simp] theorem zeros_length (n : Nat) : (zeros n).length = n := by simp [zeros]
@[simp] theorem le32Bytes_length (w : Word) : (le32Bytes w).length = 4 := rfl
@[simp] theorem be32Bytes_length (w : Word) : (be32Bytes w).length = 4 := rfl
@[simp] theorem le64Bytes_length (w : DWord) : (le64Bytes w).length = 8 := rfl
@[simp] theorem xorBytes_length (a b : List Byte) : (xorBytes a b).length = min a.length b.length := by simp [xorBytes]

@[simp] theorem le32_le32Bytes (w : Word) : le32 (le32Bytes w) = w := by
  apply BitVec.eq_of_getLsbD_eq
  intro i hi
  simp only [le32, le32Bytes, byteAt, List.getD_cons_zero, List.getD_cons_succ, BitVec.getLsbD_append,
    BitVec.getLsbD_extractLsb']
  interval_cases i <;> simp

@[simp] theorem be32_be32Bytes (w : Word) : be32 (be32Bytes w) = w := by
  apply BitVec.eq_of_getLsbD_eq
  intro i hi
  simp only [be32, be32Bytes, byteAt, List.getD_cons_zero, List.getD_cons_succ, BitVec.getLsbD_append,
    BitVec.getLsbD_extractLsb']
  interval_cases i <;> simp

theorem le32_congr {a b : List Byte} (h : ∀ i, i < 4 → byteAt a i = byteAt b i) : le32 a = le32 b := by
  simp only [le32, h 0 (by omega), h 1 (by omega), h 2 (by omega), h 3 (by omega)]

@[simp] theorem le64_le64Bytes (w : DWord) : le64 (le64Bytes w) = w := by
  have h1 : le32 (le64Bytes w) = w.extractLsb' 0 32 := by
    rw [← le32_le32Bytes (w.extractLsb' 0 32)]
    apply le32_congr
    intro i hi
    interval_cases i <;> rfl
  have h2 : (le64Bytes w).drop 4 = le32Bytes (w.extractLsb' 32 32) := rfl
  simp only [le64, h2, h1, le32_le32Bytes]
  apply BitVec.eq_of_getLsbD_eq
  intro i hi
  simp only [BitVec.getLsbD_append, BitVec.getLsbD_extractLsb']
  by_cases h : i < 32
  · simp [h]
  · simp [h, show 32 + (i - 32) = i by omega, show i - 32 < 32 by omega]

theorem append_toNat {n m : Nat} (x : BitVec n) (y : BitVec m) : (x ++ y).toNat = x.toNat * 2 ^ m + y.toNat := by
  rw [BitVec.toNat_append, ← Nat.shiftLeft_add_eq_or_of_lt y.isLt, Nat.shiftLeft_eq]

/-- The two halves of a 64-bit value put together again. -/
theorem halves_append (x : DWord) : (x.extractLsb' 32 32 ++ x.extractLsb' 0 32 : BitVec (32 + 32)) = x := by
  apply BitVec.eq_of_getLsbD_eq
  intro i hi
  simp only [BitVec.getLsbD_append, BitVec.getLsbD_extractLsb']
  by_cases h : i < 32
  · simp [h]
  · simp [h, show 32 + (i - 32) = i by omega, show i - 32 < 32 by omega]

theorem xorBlock_cancel (a b : Block) : xorBlock (xorBlock a b) b = a := by
  apply Vector.ext
  intro i hi
  simp [xorBlock]

theorem toVec_getElem (n : Nat) (b : List Byte) (i : Nat) (hi : i < n) : (toVec n b)[i] = byteAt b i := by
  simp [toVec]

@[simp] theorem toVec_toList (n : Nat) (v : Vector Byte n) : toVec n v.toList = v := by
  apply Vector.ext
  intro i hi
  simp [toVec, byteAt]

theorem toList_toVec (n : Nat) (b : List Byte) (h : b.length = n) : (toVec n b).toList = b := by
  apply List.ext_getElem (by simp [h])
  intro i h1 h2
  rw [Vector.getElem_toList, toVec_getElem]
  simp [byteAt, h2]

end Sys2Proof.Machine
end

