-- ==== Sys2Proof/Laws/Decode.lean ====
section
/-! SUPPORT. The laws of the opcode map: OP is fixed in every row, and no two rows share one (R98). -/

namespace Sys2Proof

theorem opcodeTable_op_fixed : ∀ r ∈ opcodeTable, r.mask &&& 0xFF = 0xFF := by decide

/-- A word that fits a row has the row's OP. -/
theorem op_of_fits {w : Word} {r : OpcodeRow} (hr : r ∈ opcodeTable) (h : w &&& r.mask = r.value) :
    w &&& 0xFF = r.value &&& 0xFF := by
  rw [← h, BitVec.and_assoc, opcodeTable_op_fixed r hr]

/-- Two rows with one OP are the same row. -/
theorem opcodeTable_op_unique : ∀ r ∈ opcodeTable, ∀ r' ∈ opcodeTable, r.value &&& 0xFF = r'.value &&& 0xFF → r = r' := by
  have inj : ∀ i j : Fin 17, opcodeTable[i].value &&& 0xFF = opcodeTable[j].value &&& 0xFF → i = j := by decide
  intro r hr r' hr' h
  obtain ⟨i, hi, rfl⟩ := List.getElem_of_mem hr
  obtain ⟨j, hj, rfl⟩ := List.getElem_of_mem hr'
  have hij : (⟨i, hi⟩ : Fin 17) = ⟨j, hj⟩ := inj _ _ h
  cases hij
  rfl

end Sys2Proof
end

