-- ==== Sys2Proof/Laws/Hash.lean ====
section
/-! SUPPORT. The laws of the hash core: absorbing in two parts is absorbing at once, what absorbing leaves in a context,
and the length of a digest. -/

namespace Sys2Proof.Machine

theorem compressBlocks_append (n : Nat) (h : Chain) (b c : List Byte) (hb : 64 * n ≤ b.length) :
    compressBlocks n h (b ++ c) = compressBlocks n h b := by
  induction n generalizing h b with
  | zero => rfl
  | succ n ih =>
    simp only [compressBlocks]
    rw [List.take_append_of_le_length (by omega), List.drop_append_of_le_length (by omega)]
    exact ih _ _ (by simp; omega)

theorem compressBlocks_add (n k : Nat) (h : Chain) (b : List Byte) :
    compressBlocks (n + k) h b = compressBlocks k (compressBlocks n h b) (b.drop (64 * n)) := by
  induction n generalizing h b with
  | zero => simp [compressBlocks]
  | succ n ih =>
    rw [Nat.add_right_comm]
    simp only [compressBlocks, ih, List.drop_drop]
    congr 2
    omega

@[simp] theorem HashCtx.absorb_active (c : HashCtx) (d : List Byte) : (c.absorb d).active = c.active := rfl

@[simp] theorem HashCtx.absorb_nbits (c : HashCtx) (d : List Byte) :
    (c.absorb d).nbits = c.nbits + BitVec.ofNat 64 (8 * d.length) := rfl

theorem HashCtx.absorb_blk_length (c : HashCtx) (d : List Byte) :
    (c.absorb d).blk.length = (c.blk.length + d.length) % 64 := by
  simp only [HashCtx.absorb, List.length_drop, List.length_append]
  omega

/-- Absorbing two sequences one after the other is absorbing their concatenation (R128). -/
theorem HashCtx.absorb_append (c : HashCtx) (a b : List Byte) : (c.absorb a).absorb b = c.absorb (a ++ b) := by
  have hle : 64 * ((c.blk ++ a).length / 64) ≤ (c.blk ++ a).length := by omega
  have hn : (c.blk ++ (a ++ b)).length / 64 =
      (c.blk ++ a).length / 64 + ((c.blk ++ a).drop (64 * ((c.blk ++ a).length / 64)) ++ b).length / 64 := by
    simp only [List.length_append, List.length_drop]; omega
  unfold HashCtx.absorb
  simp only [hn]
  rw [← List.append_assoc, compressBlocks_add, compressBlocks_append _ _ _ _ hle,
    List.drop_append_of_le_length hle, Nat.mul_add, ← List.drop_drop, List.drop_append_of_le_length hle]
  congr 1
  rw [BitVec.add_assoc, List.length_append, Nat.mul_add, BitVec.ofNat_add]

/-- Absorbing nothing changes nothing, for a context whose partial block is shorter than a block (R128). -/
theorem HashCtx.absorb_nil (c : HashCtx) (h : c.blk.length < 64) : c.absorb [] = c := by
  have : c.blk.length / 64 = 0 := by omega
  simp [HashCtx.absorb, this, compressBlocks]

@[simp] theorem Chain.bytes_length (h : Chain) : h.bytes.length = 20 := rfl

/-- A digest is 20 bytes long (R120). -/
@[simp] theorem HashCtx.finish_length (c : HashCtx) : c.finish.length = 20 := rfl

@[simp] theorem rmd160_length (m : List Byte) : (rmd160 m).length = 20 := rfl

end Sys2Proof.Machine
end

