-- ==== Sys2Proof/Laws/Hmac.lean ====
section
/-! SUPPORT. The laws of HMAC and PBKDF2: lengths, and that a keyed context's output is the HMAC of what it absorbed. -/

namespace Sys2Proof.Machine

@[simp] theorem ipad_length : ipad.length = 64 := by simp [ipad]
@[simp] theorem opad_length : opad.length = 64 := by simp [opad]

@[simp] theorem hmacK0_length (key : List Byte) : (hmacK0 key).length = 64 := by
  unfold hmacK0
  split
  · simp
  · simp; omega

@[simp] theorem hmac_length (key m : List Byte) : (hmac key m).length = 20 := rfl

@[simp] theorem HmacCtx.prime_keyed (c : HmacCtx) : c.prime.keyed = c.keyed := rfl
@[simp] theorem HmacCtx.prime_k0 (c : HmacCtx) : c.prime.k0 = c.k0 := rfl
@[simp] theorem HmacCtx.keyedWith_keyed (key : List Byte) : (HmacCtx.keyedWith key).keyed = true := rfl
@[simp] theorem HmacCtx.keyedWith_k0 (key : List Byte) : (HmacCtx.keyedWith key).k0 = hmacK0 key := rfl

/-- Re-priming a context that still has the key it was keyed with gives the freshly keyed context (R152). -/
theorem HmacCtx.prime_keyedWith (key : List Byte) (inner : HashCtx) :
    HmacCtx.prime { HmacCtx.keyedWith key with inner := inner } = HmacCtx.keyedWith key := rfl

/-- The output of a freshly keyed context that absorbed `m` is `HMAC(key, m)` (R151, R156). -/
theorem HmacCtx.output_keyedWith (key m : List Byte) :
    HmacCtx.output { HmacCtx.keyedWith key with inner := (HmacCtx.keyedWith key).inner.absorb m } = hmac key m := by
  simp only [HmacCtx.output, HmacCtx.keyedWith, HmacCtx.prime, HashCtx.absorb_append, hmac, rmd160]

theorem pbkdf2First_lengths (p s : List Byte) (i : Nat) :
    (pbkdf2First p s i).u.length = 20 ∧ (pbkdf2First p s i).t.length = 20 := ⟨rfl, rfl⟩

theorem pbkdf2Rounds_lengths (p : List Byte) (n : Nat) (x : UT) (hu : x.u.length = 20) (ht : x.t.length = 20) :
    (pbkdf2Rounds p n x).u.length = 20 ∧ (pbkdf2Rounds p n x).t.length = 20 := by
  induction n generalizing x with
  | zero => exact ⟨hu, ht⟩
  | succ n ih => exact ih _ (by simp) (by simp [ht])

@[simp] theorem pbkdf2Block_t_length (p s : List Byte) (c i : Nat) : (pbkdf2Block p s c i).t.length = 20 :=
  (pbkdf2Rounds_lengths p _ _ (pbkdf2First_lengths p s i).1 (pbkdf2First_lengths p s i).2).2

theorem pbkdf2_blocks_length (p s : List Byte) (c l : Nat) :
    ((List.range l).flatMap fun i => (pbkdf2Block p s c (i + 1)).t).length = 20 * l := by
  induction l with
  | zero => rfl
  | succ l ih => rw [List.range_succ, List.flatMap_append, List.length_append, ih]; simp; omega

/-- PBKDF2 gives exactly dkLen bytes (R170). -/
@[simp] theorem pbkdf2_length (p s : List Byte) (c d : Nat) : (pbkdf2 p s c d).length = d := by
  simp only [pbkdf2, List.length_take, pbkdf2_blocks_length, pbkdf2Blocks]
  omega

end Sys2Proof.Machine
end

