-- ==== Sys2Proof/Laws/Memory.lean ====
section
/-! SUPPORT. The laws of the buffer memory: read after write, the frame of a write, and that every operation keeps the
canonical form and the bounds of Buf. -/

namespace Sys2Proof.Machine

/-! ### One byte -/

@[simp] theorem Memory.get_nil (a : Nat) : Memory.get [] a = Memory.unlisted := rfl

/-- Below its lowest address a canonical memory reads the unlisted value. -/
theorem Memory.get_below {m : Memory} {lo x : Nat} (h : Memory.wfFrom lo m = true) (hx : x < lo) :
    Memory.get m x = Memory.unlisted := by
  induction m generalizing lo with
  | nil => rfl
  | cons c m ih =>
    simp only [Memory.wfFrom, Bool.and_eq_true, decide_eq_true_eq] at h
    simp only [Memory.get]
    rw [if_neg (by omega)]
    exact ih h.2 (by omega)

theorem Memory.get_put (m : Memory) (a b : Nat) (v : Byte) (lo : Nat) (h : Memory.wfFrom lo m = true) :
    Memory.get (Memory.put m a v) b = if b = a then v else Memory.get m b := by
  induction m generalizing lo with
  | nil => unfold Memory.put; split <;> simp_all [Memory.get]
  | cons c m ih =>
    obtain ⟨k, w⟩ := c
    simp only [Memory.wfFrom, Bool.and_eq_true, decide_eq_true_eq] at h
    have low : ∀ x, x ≤ k → Memory.get m x = Memory.unlisted := fun x hx => Memory.get_below h.2 (by omega)
    unfold Memory.put
    by_cases hak : a < k
    · rw [if_pos hak]
      by_cases hv : v = Memory.unlisted
      · rw [if_pos hv]
        by_cases hb : b = a
        · subst hb; simp only [Memory.get]; rw [if_neg (by omega), if_pos trivial, low b (by omega), hv]
        · rw [if_neg hb]
      · rw [if_neg hv]
        by_cases hb : b = a
        · simp [Memory.get, hb]
        · simp [Memory.get, hb]
    · rw [if_neg hak]
      by_cases hk : a = k
      · subst hk
        rw [if_pos rfl]
        by_cases hv : v = Memory.unlisted
        · rw [if_pos hv]
          by_cases hb : b = a
          · subst hb; rw [if_pos rfl, low b (by omega), hv]
          · simp [Memory.get, hb]
        · rw [if_neg hv]; simp only [Memory.get]; split <;> simp_all
      · rw [if_neg hk]
        simp only [Memory.get, ih (k + 1) h.2]
        split
        · rw [if_neg (by omega)]
        · rfl

theorem Memory.wfFrom_mono (m : Memory) {lo lo' : Nat} (hlo : lo' ≤ lo) (h : Memory.wfFrom lo m = true) :
    Memory.wfFrom lo' m = true := by
  cases m with
  | nil => rfl
  | cons c m =>
    simp only [Memory.wfFrom, Bool.and_eq_true, decide_eq_true_eq] at h ⊢
    exact ⟨⟨by omega, h.1.2⟩, h.2⟩

theorem Memory.wfFrom_put (m : Memory) (a : Nat) (v : Byte) (lo : Nat) (ha : lo ≤ a)
    (h : Memory.wfFrom lo m = true) : Memory.wfFrom lo (Memory.put m a v) = true := by
  induction m generalizing lo with
  | nil => unfold Memory.put; split <;> simp_all [Memory.wfFrom]
  | cons c m ih =>
    obtain ⟨k, w⟩ := c
    simp only [Memory.wfFrom, Bool.and_eq_true, decide_eq_true_eq] at h
    unfold Memory.put
    split
    · split <;> simp_all [Memory.wfFrom]
    · split
      · split
        · exact Memory.wfFrom_mono m (by omega) h.2
        · subst a; simp_all [Memory.wfFrom]
      · simp only [Memory.wfFrom, Bool.and_eq_true, decide_eq_true_eq]
        exact ⟨h.1, ih _ (by omega) h.2⟩

theorem Memory.wf_put {m : Memory} (a : Nat) (v : Byte) (h : m.wf = true) : (m.put a v).wf = true :=
  Memory.wfFrom_put m a v 0 (Nat.zero_le a) h

theorem Memory.inBuf_put {n : Config.BufSize} {m : Memory} {a : Nat} (v : Byte) (ha : a < n.bytes) (h : m.inBuf n = true) :
    (m.put a v).inBuf n = true := by
  induction m with
  | nil => unfold Memory.put; split <;> simp_all [Memory.inBuf]
  | cons c m ih =>
    have hc : c.1 < n.bytes ∧ Memory.inBuf n m = true := by simpa [Memory.inBuf] using h
    have cons : ∀ (x : Host.Cell) (l : Memory), x.1 < n.bytes → Memory.inBuf n l = true →
        Memory.inBuf n (x :: l) = true := by
      intro x l hx hl
      simp only [Memory.inBuf, List.all_cons, Bool.and_eq_true, decide_eq_true_eq] at hl ⊢
      exact ⟨hx, hl⟩
    unfold Memory.put
    split
    · split
      · exact h
      · exact cons _ _ ha h
    · split
      · split
        · exact hc.2
        · exact cons _ _ ha hc.2
      · exact cons _ _ hc.1 (ih hc.2)

/-! ### Ranges -/

@[simp] theorem Memory.read_length (m : Memory) (a n : Nat) : (m.read a n).length = n := by
  induction n generalizing a with
  | zero => rfl
  | succ n ih => simp [Memory.read, ih]

theorem Memory.read_getElem (m : Memory) (a n i : Nat) (h : i < (m.read a n).length) :
    (m.read a n)[i] = m.get (a + i) := by
  induction n generalizing a i with
  | zero => simp [Memory.read] at h
  | succ n ih =>
    cases i with
    | zero => simp [Memory.read]
    | succ i =>
      simp only [Memory.read, List.getElem_cons_succ]
      rw [ih]
      congr 1
      omega

theorem Memory.read_add (m : Memory) (a n k : Nat) : m.read a (n + k) = m.read a n ++ m.read (a + n) k := by
  induction n generalizing a with
  | zero => simp [Memory.read]
  | succ n ih =>
    rw [Nat.add_right_comm, Memory.read, Memory.read, ih]
    simp [Nat.add_comm, Nat.add_left_comm]

theorem Memory.read_congr {m m' : Memory} (a n : Nat) (h : ∀ x, a ≤ x → x < a + n → m.get x = m'.get x) :
    m.read a n = m'.read a n := by
  apply List.ext_getElem (by simp)
  intro i h1 h2
  simp only [Memory.read_length] at h1
  rw [Memory.read_getElem, Memory.read_getElem]
  exact h _ (by omega) (by omega)

theorem Memory.wf_write {m : Memory} (a : Nat) (v : List Byte) (h : m.wf = true) : (m.write a v).wf = true := by
  induction v generalizing a m with
  | nil => exact h
  | cons x v ih => exact ih _ (Memory.wf_put a x h)

theorem Memory.inBuf_write {n : Config.BufSize} {m : Memory} {a : Nat} (v : List Byte) (ha : a + v.length ≤ n.bytes)
    (h : m.inBuf n = true) : (m.write a v).inBuf n = true := by
  induction v generalizing a m with
  | nil => exact h
  | cons x v ih =>
    simp only [List.length_cons] at ha
    exact ih (by omega) (Memory.inBuf_put x (by omega) h)

/-- What every byte reads as after a range is written: the written byte inside it, the old one outside. -/
theorem Memory.get_write {m : Memory} (a : Nat) (v : List Byte) (b : Nat) (h : m.wf = true) :
    (m.write a v).get b = if a ≤ b ∧ b < a + v.length then v.getD (b - a) 0 else m.get b := by
  induction v generalizing a m with
  | nil => simp only [Memory.write, List.length_nil]; rw [if_neg (by omega)]
  | cons x v ih =>
    simp only [Memory.write]
    rw [ih (a + 1) (Memory.wf_put a x h), m.get_put a b x 0 h]
    simp only [List.length_cons]
    by_cases hb : b = a
    · subst hb
      rw [if_neg (by omega), if_pos rfl, if_pos (by omega)]
      simp
    · by_cases hin : a + 1 ≤ b ∧ b < a + 1 + v.length
      · rw [if_pos hin, if_pos (by omega)]
        have : b - a = (b - (a + 1)) + 1 := by omega
        rw [this, List.getD_cons_succ]
      · rw [if_neg hin, if_neg hb, if_neg (by omega)]

/-- The frame of a range write. -/
theorem Memory.get_write_outside {m : Memory} {a : Nat} (v : List Byte) {b : Nat} (h : m.wf = true)
    (hb : ¬ (a ≤ b ∧ b < a + v.length)) : (m.write a v).get b = m.get b := by
  rw [Memory.get_write a v b h, if_neg hb]

/-- Reading the range just written gives the bytes written. -/
theorem Memory.read_write_same {m : Memory} (a : Nat) (v : List Byte) (h : m.wf = true) :
    (m.write a v).read a v.length = v := by
  apply List.ext_getElem (by simp)
  intro i h1 h2
  rw [Memory.read_getElem, Memory.get_write a v _ h, if_pos (by omega)]
  simp [h2]

/-- A write leaves every range it does not meet as it was. -/
theorem Memory.read_write_disjoint {m : Memory} {a : Nat} (v : List Byte) {b n : Nat} (h : m.wf = true)
    (hd : b + n ≤ a ∨ a + v.length ≤ b) : (m.write a v).read b n = m.read b n :=
  Memory.read_congr b n fun x hx hx' => Memory.get_write_outside v h (by omega)

theorem Memory.write_append (m : Memory) (a : Nat) (v w : List Byte) :
    m.write a (v ++ w) = (m.write a v).write (a + v.length) w := by
  induction v generalizing a m with
  | nil => simp [Memory.write]
  | cons x v ih =>
    simp only [List.cons_append, Memory.write, ih, List.length_cons]
    congr 1
    omega

/-! ### Equality: a canonical memory is determined by what its addresses read as -/

theorem Memory.wfFrom_ext {m m' : Memory} {lo : Nat} (h : Memory.wfFrom lo m = true) (h' : Memory.wfFrom lo m' = true)
    (heq : ∀ x, m.get x = m'.get x) : m = m' := by
  induction m generalizing m' lo with
  | nil =>
    cases m' with
    | nil => rfl
    | cons c m' =>
      simp only [Memory.wfFrom, Bool.and_eq_true, decide_eq_true_eq] at h'
      have := heq c.1
      simp [Memory.get] at this
      exact absurd this.symm h'.1.2
  | cons c m ih =>
    obtain ⟨k, w⟩ := c
    simp only [Memory.wfFrom, Bool.and_eq_true, decide_eq_true_eq] at h
    cases m' with
    | nil =>
      have := heq k
      simp [Memory.get] at this
      exact absurd this h.1.2
    | cons c' m' =>
      obtain ⟨k', w'⟩ := c'
      simp only [Memory.wfFrom, Bool.and_eq_true, decide_eq_true_eq] at h'
      have hk : k = k' := by
        rcases Nat.lt_trichotomy k k' with hlt | heq' | hgt
        · have := heq k
          simp only [Memory.get, if_pos] at this
          rw [if_neg (by omega), Memory.get_below h'.2 (by omega)] at this
          exact absurd this h.1.2
        · exact heq'
        · have := heq k'
          simp only [Memory.get, if_pos] at this
          rw [if_neg (by omega), Memory.get_below h.2 (by omega)] at this
          exact absurd this.symm h'.1.2
      subst hk
      have hw : w = w' := by simpa [Memory.get] using heq k
      subst hw
      congr 1
      apply ih h.2 h'.2
      intro x
      by_cases hx : x = k
      · subst hx; rw [Memory.get_below h.2 (by omega), Memory.get_below h'.2 (by omega)]
      · simpa [Memory.get, hx] using heq x

/-- Two canonical memories that read the same everywhere are the same data. -/
theorem Memory.ext {m m' : Memory} (h : m.wf = true) (h' : m'.wf = true) (heq : ∀ x, m.get x = m'.get x) : m = m' :=
  Memory.wfFrom_ext h h' heq

/-- Writing back what a range already holds changes nothing. -/
theorem Memory.write_read_self {m : Memory} (a n : Nat) (h : m.wf = true) : m.write a (m.read a n) = m := by
  apply Memory.ext (Memory.wf_write _ _ h) h
  intro x
  rw [Memory.get_write _ _ _ h]
  split
  · rename_i hx
    simp only [Memory.read_length] at hx
    rw [List.getD_eq_getElem _ _ (by simp; omega), Memory.read_getElem]
    congr 1
    omega
  · rfl

/-! ### The host's word write -/

theorem Memory.wf_putLane {m : Memory} (v : Word) (strb : BitVec 4) (a i : Nat) (h : m.wf = true) :
    (putLane v strb a m i).wf = true := by
  unfold putLane; split
  · exact Memory.wf_put _ _ h
  · exact h

theorem Memory.wf_windowWrite {m : Memory} (v : Word) (strb : BitVec 4) (a : Nat) (h : m.wf = true) :
    (windowWrite v strb a m).wf = true := by
  simp only [windowWrite, List.foldl]
  exact Memory.wf_putLane _ _ _ _ (Memory.wf_putLane _ _ _ _ (Memory.wf_putLane _ _ _ _ (Memory.wf_putLane _ _ _ _ h)))

theorem Memory.inBuf_windowWrite {n : Config.BufSize} {m : Memory} (v : Word) (strb : BitVec 4) {a : Nat} (ha : a + 3 < n.bytes)
    (h : m.inBuf n = true) : (windowWrite v strb a m).inBuf n = true := by
  have key : ∀ (m : Memory) (i : Nat), i ≤ 3 → m.inBuf n = true → (putLane v strb a m i).inBuf n = true := by
    intro m i hi hm
    unfold putLane; split
    · exact Memory.inBuf_put _ (by omega) hm
    · exact hm
  simp only [windowWrite, List.foldl]
  exact key _ 3 (by omega) (key _ 2 (by omega) (key _ 1 (by omega) (key _ 0 (by omega) h)))

theorem Memory.get_putLane {m : Memory} (v : Word) (strb : BitVec 4) (a i b : Nat) (h : m.wf = true) :
    (putLane v strb a m i).get b = if b = a + i ∧ strb.getLsbD i = true then lane v i else m.get b := by
  unfold putLane
  split <;> rename_i hs
  · rw [m.get_put _ _ _ 0 h]; simp [hs]
  · simp [hs]

/-- What every byte reads as after a host word write: the lane's byte where the strobe is set, the old one elsewhere. -/
theorem Memory.get_windowWrite {m : Memory} (v : Word) (strb : BitVec 4) (a b : Nat) (h : m.wf = true) :
    (windowWrite v strb a m).get b =
      if a ≤ b ∧ b < a + 4 ∧ strb.getLsbD (b - a) = true then lane v (b - a) else m.get b := by
  have h0 := Memory.wf_putLane v strb a 0 h
  have h1 := Memory.wf_putLane v strb a 1 h0
  have h2 := Memory.wf_putLane v strb a 2 h1
  simp only [windowWrite, List.foldl]
  rw [Memory.get_putLane _ _ _ _ _ h2, Memory.get_putLane _ _ _ _ _ h1, Memory.get_putLane _ _ _ _ _ h0,
    Memory.get_putLane _ _ _ _ _ h]
  by_cases hb : a ≤ b ∧ b < a + 4
  · obtain ⟨k, rfl⟩ : ∃ k, b = a + k := ⟨b - a, by omega⟩
    have hk : k < 4 := by omega
    interval_cases k <;> simp
  · rw [if_neg (by omega), if_neg (by omega), if_neg (by omega), if_neg (by omega), if_neg (by omega)]

end Sys2Proof.Machine
end

