-- ==== Sys2Proof/Laws/State.lean ====
section
/-! SUPPORT. The fields of a state after each shared operation on it: one lemma for each field and operation. -/

namespace Sys2Proof.Machine

/-! ### `accepted` -/

@[simp] theorem accepted_config (w : Word) (s : State) : (accepted w s).config = s.config := rfl
@[simp] theorem accepted_irqEn (w : Word) (s : State) : (accepted w s).irqEn = s.irqEn := rfl
@[simp] theorem accepted_done (w : Word) (s : State) : (accepted w s).done = false := rfl
@[simp] theorem accepted_err (w : Word) (s : State) : (accepted w s).err = false := rfl
@[simp] theorem accepted_overrun (w : Word) (s : State) : (accepted w s).overrun = s.overrun := rfl
@[simp] theorem accepted_lockerr (w : Word) (s : State) : (accepted w s).lockerr = s.lockerr := rfl
@[simp] theorem accepted_errcode (w : Word) (s : State) : (accepted w s).errcode = .ok := rfl
@[simp] theorem accepted_args (w : Word) (s : State) : (accepted w s).args = s.args := rfl
@[simp] theorem accepted_result0 (w : Word) (s : State) : (accepted w s).result0 = s.result0 := rfl
@[simp] theorem accepted_result1 (w : Word) (s : State) : (accepted w s).result1 = s.result1 := rfl
@[simp] theorem accepted_result2 (w : Word) (s : State) : (accepted w s).result2 = s.result2 := rfl
@[simp] theorem accepted_phase (w : Word) (s : State) : (accepted w s).phase = .busy := rfl
@[simp] theorem accepted_latchWord (w : Word) (s : State) : (accepted w s).latchWord = w := rfl
@[simp] theorem accepted_latchArg (w : Word) (s : State) : (accepted w s).latchArg = s.args := rfl
@[simp] theorem accepted_hctx (w : Word) (s : State) : (accepted w s).hctx = s.hctx := rfl
@[simp] theorem accepted_mctx (w : Word) (s : State) : (accepted w s).mctx = s.mctx := rfl
@[simp] theorem accepted_crc (w : Word) (s : State) : (accepted w s).crc = s.crc := rfl
@[simp] theorem accepted_slot0 (w : Word) (s : State) : (accepted w s).slot0 = s.slot0 := rfl
@[simp] theorem accepted_slot1 (w : Word) (s : State) : (accepted w s).slot1 = s.slot1 := rfl
@[simp] theorem accepted_xtsBound (w : Word) (s : State) : (accepted w s).xtsBound = s.xtsBound := rfl
@[simp] theorem accepted_scratch (w : Word) (s : State) : (accepted w s).scratch = s.scratch := rfl
@[simp] theorem accepted_buf (w : Word) (s : State) : (accepted w s).buf = s.buf := rfl
@[simp] theorem accepted_rstN (w : Word) (s : State) : (accepted w s).rstN = s.rstN := rfl
@[simp] theorem accepted_pending (w : Word) (s : State) : (accepted w s).pending = s.pending := rfl
@[simp] theorem accepted_rdata (w : Word) (s : State) : (accepted w s).rdata = s.rdata := rfl

/-! ### `finished` -/

@[simp] theorem finished_config (c : Code) (s : State) : (finished c s).config = s.config := rfl
@[simp] theorem finished_irqEn (c : Code) (s : State) : (finished c s).irqEn = s.irqEn := rfl
@[simp] theorem finished_done (c : Code) (s : State) : (finished c s).done = true := rfl
@[simp] theorem finished_err (c : Code) (s : State) : (finished c s).err = (c != .ok) := rfl
@[simp] theorem finished_overrun (c : Code) (s : State) : (finished c s).overrun = s.overrun := rfl
@[simp] theorem finished_lockerr (c : Code) (s : State) : (finished c s).lockerr = s.lockerr := rfl
@[simp] theorem finished_errcode (c : Code) (s : State) : (finished c s).errcode = c := rfl
@[simp] theorem finished_args (c : Code) (s : State) : (finished c s).args = s.args := rfl
@[simp] theorem finished_result0 (c : Code) (s : State) : (finished c s).result0 = s.result0 := rfl
@[simp] theorem finished_result1 (c : Code) (s : State) : (finished c s).result1 = s.result1 := rfl
@[simp] theorem finished_result2 (c : Code) (s : State) : (finished c s).result2 = s.result2 := rfl
@[simp] theorem finished_phase (c : Code) (s : State) : (finished c s).phase = .idle := rfl
@[simp] theorem finished_latchWord (c : Code) (s : State) : (finished c s).latchWord = s.latchWord := rfl
@[simp] theorem finished_latchArg (c : Code) (s : State) : (finished c s).latchArg = s.latchArg := rfl
@[simp] theorem finished_hctx (c : Code) (s : State) : (finished c s).hctx = s.hctx := rfl
@[simp] theorem finished_mctx (c : Code) (s : State) : (finished c s).mctx = s.mctx := rfl
@[simp] theorem finished_crc (c : Code) (s : State) : (finished c s).crc = s.crc := rfl
@[simp] theorem finished_slot0 (c : Code) (s : State) : (finished c s).slot0 = s.slot0 := rfl
@[simp] theorem finished_slot1 (c : Code) (s : State) : (finished c s).slot1 = s.slot1 := rfl
@[simp] theorem finished_xtsBound (c : Code) (s : State) : (finished c s).xtsBound = s.xtsBound := rfl
@[simp] theorem finished_scratch (c : Code) (s : State) : (finished c s).scratch = Scratch.zero := rfl
@[simp] theorem finished_buf (c : Code) (s : State) : (finished c s).buf = s.buf := rfl
@[simp] theorem finished_rstN (c : Code) (s : State) : (finished c s).rstN = s.rstN := rfl
@[simp] theorem finished_pending (c : Code) (s : State) : (finished c s).pending = s.pending := rfl
@[simp] theorem finished_rdata (c : Code) (s : State) : (finished c s).rdata = s.rdata := rfl

/-! ### `resetStarted` -/

@[simp] theorem resetStarted_config (s : State) : (resetStarted s).config = s.config := rfl
@[simp] theorem resetStarted_irqEn (s : State) : (resetStarted s).irqEn = false := rfl
@[simp] theorem resetStarted_done (s : State) : (resetStarted s).done = false := rfl
@[simp] theorem resetStarted_err (s : State) : (resetStarted s).err = false := rfl
@[simp] theorem resetStarted_overrun (s : State) : (resetStarted s).overrun = false := rfl
@[simp] theorem resetStarted_lockerr (s : State) : (resetStarted s).lockerr = false := rfl
@[simp] theorem resetStarted_errcode (s : State) : (resetStarted s).errcode = .ok := rfl
@[simp] theorem resetStarted_args (s : State) : (resetStarted s).args = s.args := rfl
@[simp] theorem resetStarted_result0 (s : State) : (resetStarted s).result0 = s.result0 := rfl
@[simp] theorem resetStarted_result1 (s : State) : (resetStarted s).result1 = s.result1 := rfl
@[simp] theorem resetStarted_result2 (s : State) : (resetStarted s).result2 = s.result2 := rfl
@[simp] theorem resetStarted_phase (s : State) : (resetStarted s).phase = .resetting := rfl
@[simp] theorem resetStarted_latchWord (s : State) : (resetStarted s).latchWord = s.latchWord := rfl
@[simp] theorem resetStarted_latchArg (s : State) : (resetStarted s).latchArg = s.latchArg := rfl
@[simp] theorem resetStarted_hctx (s : State) : (resetStarted s).hctx = s.hctx := rfl
@[simp] theorem resetStarted_mctx (s : State) : (resetStarted s).mctx = s.mctx := rfl
@[simp] theorem resetStarted_crc (s : State) : (resetStarted s).crc = s.crc := rfl
@[simp] theorem resetStarted_slot0 (s : State) : (resetStarted s).slot0 = s.slot0 := rfl
@[simp] theorem resetStarted_slot1 (s : State) : (resetStarted s).slot1 = s.slot1 := rfl
@[simp] theorem resetStarted_xtsBound (s : State) : (resetStarted s).xtsBound = s.xtsBound := rfl
@[simp] theorem resetStarted_scratch (s : State) : (resetStarted s).scratch = s.scratch := rfl
@[simp] theorem resetStarted_buf (s : State) : (resetStarted s).buf = s.buf := rfl
@[simp] theorem resetStarted_rstN (s : State) : (resetStarted s).rstN = s.rstN := rfl
@[simp] theorem resetStarted_pending (s : State) : (resetStarted s).pending = s.pending := rfl
@[simp] theorem resetStarted_rdata (s : State) : (resetStarted s).rdata = s.rdata := rfl

/-! ### `clearFlags` -/

@[simp] theorem clearFlags_config (v : Word) (s : State) : (clearFlags v s).config = s.config := rfl
@[simp] theorem clearFlags_irqEn (v : Word) (s : State) : (clearFlags v s).irqEn = s.irqEn := rfl
@[simp] theorem clearFlags_done (v : Word) (s : State) : (clearFlags v s).done = (s.done && !v.getLsbD 1) := rfl
@[simp] theorem clearFlags_err (v : Word) (s : State) : (clearFlags v s).err = (s.err && !v.getLsbD 2) := rfl
@[simp] theorem clearFlags_overrun (v : Word) (s : State) : (clearFlags v s).overrun = (s.overrun && !v.getLsbD 3) := rfl
@[simp] theorem clearFlags_lockerr (v : Word) (s : State) : (clearFlags v s).lockerr = (s.lockerr && !v.getLsbD 4) := rfl
@[simp] theorem clearFlags_errcode (v : Word) (s : State) : (clearFlags v s).errcode = s.errcode := rfl
@[simp] theorem clearFlags_args (v : Word) (s : State) : (clearFlags v s).args = s.args := rfl
@[simp] theorem clearFlags_result0 (v : Word) (s : State) : (clearFlags v s).result0 = s.result0 := rfl
@[simp] theorem clearFlags_result1 (v : Word) (s : State) : (clearFlags v s).result1 = s.result1 := rfl
@[simp] theorem clearFlags_result2 (v : Word) (s : State) : (clearFlags v s).result2 = s.result2 := rfl
@[simp] theorem clearFlags_phase (v : Word) (s : State) : (clearFlags v s).phase = s.phase := rfl
@[simp] theorem clearFlags_latchWord (v : Word) (s : State) : (clearFlags v s).latchWord = s.latchWord := rfl
@[simp] theorem clearFlags_latchArg (v : Word) (s : State) : (clearFlags v s).latchArg = s.latchArg := rfl
@[simp] theorem clearFlags_hctx (v : Word) (s : State) : (clearFlags v s).hctx = s.hctx := rfl
@[simp] theorem clearFlags_mctx (v : Word) (s : State) : (clearFlags v s).mctx = s.mctx := rfl
@[simp] theorem clearFlags_crc (v : Word) (s : State) : (clearFlags v s).crc = s.crc := rfl
@[simp] theorem clearFlags_slot0 (v : Word) (s : State) : (clearFlags v s).slot0 = s.slot0 := rfl
@[simp] theorem clearFlags_slot1 (v : Word) (s : State) : (clearFlags v s).slot1 = s.slot1 := rfl
@[simp] theorem clearFlags_xtsBound (v : Word) (s : State) : (clearFlags v s).xtsBound = s.xtsBound := rfl
@[simp] theorem clearFlags_scratch (v : Word) (s : State) : (clearFlags v s).scratch = s.scratch := rfl
@[simp] theorem clearFlags_buf (v : Word) (s : State) : (clearFlags v s).buf = s.buf := rfl
@[simp] theorem clearFlags_rstN (v : Word) (s : State) : (clearFlags v s).rstN = s.rstN := rfl
@[simp] theorem clearFlags_pending (v : Word) (s : State) : (clearFlags v s).pending = s.pending := rfl
@[simp] theorem clearFlags_rdata (v : Word) (s : State) : (clearFlags v s).rdata = s.rdata := rfl

/-! ### `memWrite` -/

@[simp] theorem memWrite_config (a : Nat) (v : List Byte) (s : State) : (memWrite s a v).config = s.config := rfl
@[simp] theorem memWrite_irqEn (a : Nat) (v : List Byte) (s : State) : (memWrite s a v).irqEn = s.irqEn := rfl
@[simp] theorem memWrite_done (a : Nat) (v : List Byte) (s : State) : (memWrite s a v).done = s.done := rfl
@[simp] theorem memWrite_err (a : Nat) (v : List Byte) (s : State) : (memWrite s a v).err = s.err := rfl
@[simp] theorem memWrite_overrun (a : Nat) (v : List Byte) (s : State) : (memWrite s a v).overrun = s.overrun := rfl
@[simp] theorem memWrite_lockerr (a : Nat) (v : List Byte) (s : State) : (memWrite s a v).lockerr = s.lockerr := rfl
@[simp] theorem memWrite_errcode (a : Nat) (v : List Byte) (s : State) : (memWrite s a v).errcode = s.errcode := rfl
@[simp] theorem memWrite_args (a : Nat) (v : List Byte) (s : State) : (memWrite s a v).args = s.args := rfl
@[simp] theorem memWrite_result0 (a : Nat) (v : List Byte) (s : State) : (memWrite s a v).result0 = s.result0 := rfl
@[simp] theorem memWrite_result1 (a : Nat) (v : List Byte) (s : State) : (memWrite s a v).result1 = s.result1 := rfl
@[simp] theorem memWrite_result2 (a : Nat) (v : List Byte) (s : State) : (memWrite s a v).result2 = s.result2 := rfl
@[simp] theorem memWrite_phase (a : Nat) (v : List Byte) (s : State) : (memWrite s a v).phase = s.phase := rfl
@[simp] theorem memWrite_latchWord (a : Nat) (v : List Byte) (s : State) : (memWrite s a v).latchWord = s.latchWord := rfl
@[simp] theorem memWrite_latchArg (a : Nat) (v : List Byte) (s : State) : (memWrite s a v).latchArg = s.latchArg := rfl
@[simp] theorem memWrite_hctx (a : Nat) (v : List Byte) (s : State) : (memWrite s a v).hctx = s.hctx := rfl
@[simp] theorem memWrite_mctx (a : Nat) (v : List Byte) (s : State) : (memWrite s a v).mctx = s.mctx := rfl
@[simp] theorem memWrite_crc (a : Nat) (v : List Byte) (s : State) : (memWrite s a v).crc = s.crc := rfl
@[simp] theorem memWrite_slot0 (a : Nat) (v : List Byte) (s : State) : (memWrite s a v).slot0 = s.slot0 := rfl
@[simp] theorem memWrite_slot1 (a : Nat) (v : List Byte) (s : State) : (memWrite s a v).slot1 = s.slot1 := rfl
@[simp] theorem memWrite_xtsBound (a : Nat) (v : List Byte) (s : State) : (memWrite s a v).xtsBound = s.xtsBound := rfl
@[simp] theorem memWrite_scratch (a : Nat) (v : List Byte) (s : State) : (memWrite s a v).scratch = s.scratch := rfl
@[simp] theorem memWrite_buf (a : Nat) (v : List Byte) (s : State) : (memWrite s a v).buf = s.buf.write a v := rfl
@[simp] theorem memWrite_rstN (a : Nat) (v : List Byte) (s : State) : (memWrite s a v).rstN = s.rstN := rfl
@[simp] theorem memWrite_pending (a : Nat) (v : List Byte) (s : State) : (memWrite s a v).pending = s.pending := rfl
@[simp] theorem memWrite_rdata (a : Nat) (v : List Byte) (s : State) : (memWrite s a v).rdata = s.rdata := rfl

/-! ### `erased` -/

@[simp] theorem erased_config (m : BitVec 4) (s : State) : (erased m s).config = s.config := rfl
@[simp] theorem erased_irqEn (m : BitVec 4) (s : State) : (erased m s).irqEn = s.irqEn := rfl
@[simp] theorem erased_done (m : BitVec 4) (s : State) : (erased m s).done = s.done := rfl
@[simp] theorem erased_err (m : BitVec 4) (s : State) : (erased m s).err = s.err := rfl
@[simp] theorem erased_overrun (m : BitVec 4) (s : State) : (erased m s).overrun = s.overrun := rfl
@[simp] theorem erased_lockerr (m : BitVec 4) (s : State) : (erased m s).lockerr = s.lockerr := rfl
@[simp] theorem erased_errcode (m : BitVec 4) (s : State) : (erased m s).errcode = s.errcode := rfl
@[simp] theorem erased_args (m : BitVec 4) (s : State) : (erased m s).args = s.args := rfl
@[simp] theorem erased_result0 (m : BitVec 4) (s : State) : (erased m s).result0 = s.result0 := rfl
@[simp] theorem erased_result1 (m : BitVec 4) (s : State) : (erased m s).result1 = s.result1 := rfl
@[simp] theorem erased_result2 (m : BitVec 4) (s : State) : (erased m s).result2 = s.result2 := rfl
@[simp] theorem erased_phase (m : BitVec 4) (s : State) : (erased m s).phase = s.phase := rfl
@[simp] theorem erased_latchWord (m : BitVec 4) (s : State) : (erased m s).latchWord = s.latchWord := rfl
@[simp] theorem erased_latchArg (m : BitVec 4) (s : State) : (erased m s).latchArg = s.latchArg := rfl
@[simp] theorem erased_hctx (m : BitVec 4) (s : State) : (erased m s).hctx = (if m.getLsbD 0 then HashCtx.idle else s.hctx) := rfl
@[simp] theorem erased_mctx (m : BitVec 4) (s : State) : (erased m s).mctx = (if m.getLsbD 1 then HmacCtx.unkeyed else s.mctx) := rfl
@[simp] theorem erased_crc (m : BitVec 4) (s : State) : (erased m s).crc = (if m.getLsbD 3 then crcInitial else s.crc) := rfl
@[simp] theorem erased_slot0 (m : BitVec 4) (s : State) : (erased m s).slot0 = (if m.getLsbD 2 then Slot.empty else s.slot0) := rfl
@[simp] theorem erased_slot1 (m : BitVec 4) (s : State) : (erased m s).slot1 = (if m.getLsbD 2 then Slot.empty else s.slot1) := rfl
@[simp] theorem erased_xtsBound (m : BitVec 4) (s : State) : (erased m s).xtsBound = (if m.getLsbD 2 then false else s.xtsBound) := rfl
@[simp] theorem erased_scratch (m : BitVec 4) (s : State) : (erased m s).scratch = s.scratch := rfl
@[simp] theorem erased_buf (m : BitVec 4) (s : State) : (erased m s).buf = s.buf := rfl
@[simp] theorem erased_rstN (m : BitVec 4) (s : State) : (erased m s).rstN = s.rstN := rfl
@[simp] theorem erased_pending (m : BitVec 4) (s : State) : (erased m s).pending = s.pending := rfl
@[simp] theorem erased_rdata (m : BitVec 4) (s : State) : (erased m s).rdata = s.rdata := rfl

/-! ### `setSlot` -/

@[simp] theorem State.setSlot_config (n : SlotId) (k : Slot) (s : State) : (s.setSlot n k).config = s.config := by cases n <;> rfl
@[simp] theorem State.setSlot_irqEn (n : SlotId) (k : Slot) (s : State) : (s.setSlot n k).irqEn = s.irqEn := by cases n <;> rfl
@[simp] theorem State.setSlot_done (n : SlotId) (k : Slot) (s : State) : (s.setSlot n k).done = s.done := by cases n <;> rfl
@[simp] theorem State.setSlot_err (n : SlotId) (k : Slot) (s : State) : (s.setSlot n k).err = s.err := by cases n <;> rfl
@[simp] theorem State.setSlot_overrun (n : SlotId) (k : Slot) (s : State) : (s.setSlot n k).overrun = s.overrun := by cases n <;> rfl
@[simp] theorem State.setSlot_lockerr (n : SlotId) (k : Slot) (s : State) : (s.setSlot n k).lockerr = s.lockerr := by cases n <;> rfl
@[simp] theorem State.setSlot_errcode (n : SlotId) (k : Slot) (s : State) : (s.setSlot n k).errcode = s.errcode := by cases n <;> rfl
@[simp] theorem State.setSlot_args (n : SlotId) (k : Slot) (s : State) : (s.setSlot n k).args = s.args := by cases n <;> rfl
@[simp] theorem State.setSlot_result0 (n : SlotId) (k : Slot) (s : State) : (s.setSlot n k).result0 = s.result0 := by cases n <;> rfl
@[simp] theorem State.setSlot_result1 (n : SlotId) (k : Slot) (s : State) : (s.setSlot n k).result1 = s.result1 := by cases n <;> rfl
@[simp] theorem State.setSlot_result2 (n : SlotId) (k : Slot) (s : State) : (s.setSlot n k).result2 = s.result2 := by cases n <;> rfl
@[simp] theorem State.setSlot_phase (n : SlotId) (k : Slot) (s : State) : (s.setSlot n k).phase = s.phase := by cases n <;> rfl
@[simp] theorem State.setSlot_latchWord (n : SlotId) (k : Slot) (s : State) : (s.setSlot n k).latchWord = s.latchWord := by cases n <;> rfl
@[simp] theorem State.setSlot_latchArg (n : SlotId) (k : Slot) (s : State) : (s.setSlot n k).latchArg = s.latchArg := by cases n <;> rfl
@[simp] theorem State.setSlot_hctx (n : SlotId) (k : Slot) (s : State) : (s.setSlot n k).hctx = s.hctx := by cases n <;> rfl
@[simp] theorem State.setSlot_mctx (n : SlotId) (k : Slot) (s : State) : (s.setSlot n k).mctx = s.mctx := by cases n <;> rfl
@[simp] theorem State.setSlot_crc (n : SlotId) (k : Slot) (s : State) : (s.setSlot n k).crc = s.crc := by cases n <;> rfl
@[simp] theorem State.setSlot_slot0 (n : SlotId) (k : Slot) (s : State) : (s.setSlot n k).slot0 = (if n = .slot0 then k else s.slot0) := by cases n <;> rfl
@[simp] theorem State.setSlot_slot1 (n : SlotId) (k : Slot) (s : State) : (s.setSlot n k).slot1 = (if n = .slot1 then k else s.slot1) := by cases n <;> rfl
@[simp] theorem State.setSlot_xtsBound (n : SlotId) (k : Slot) (s : State) : (s.setSlot n k).xtsBound = s.xtsBound := by cases n <;> rfl
@[simp] theorem State.setSlot_scratch (n : SlotId) (k : Slot) (s : State) : (s.setSlot n k).scratch = s.scratch := by cases n <;> rfl
@[simp] theorem State.setSlot_buf (n : SlotId) (k : Slot) (s : State) : (s.setSlot n k).buf = s.buf := by cases n <;> rfl
@[simp] theorem State.setSlot_rstN (n : SlotId) (k : Slot) (s : State) : (s.setSlot n k).rstN = s.rstN := by cases n <;> rfl
@[simp] theorem State.setSlot_pending (n : SlotId) (k : Slot) (s : State) : (s.setSlot n k).pending = s.pending := by cases n <;> rfl
@[simp] theorem State.setSlot_rdata (n : SlotId) (k : Slot) (s : State) : (s.setSlot n k).rdata = s.rdata := by cases n <;> rfl

/-! ### `State.resetOf` (R49) -/

theorem State.reset_eq : State.reset = State.resetOf Config.hardware := rfl

@[simp] theorem State.resetOf_config (c : Config.Params) : (State.resetOf c).config = c := rfl
@[simp] theorem State.resetOf_irqEn (c : Config.Params) : (State.resetOf c).irqEn = false := rfl
@[simp] theorem State.resetOf_done (c : Config.Params) : (State.resetOf c).done = false := rfl
@[simp] theorem State.resetOf_err (c : Config.Params) : (State.resetOf c).err = false := rfl
@[simp] theorem State.resetOf_overrun (c : Config.Params) : (State.resetOf c).overrun = false := rfl
@[simp] theorem State.resetOf_lockerr (c : Config.Params) : (State.resetOf c).lockerr = false := rfl
@[simp] theorem State.resetOf_errcode (c : Config.Params) : (State.resetOf c).errcode = .ok := rfl
@[simp] theorem State.resetOf_args (c : Config.Params) : (State.resetOf c).args = Vector.replicate 8 0 := rfl
@[simp] theorem State.resetOf_result0 (c : Config.Params) : (State.resetOf c).result0 = 0 := rfl
@[simp] theorem State.resetOf_result1 (c : Config.Params) : (State.resetOf c).result1 = 0 := rfl
@[simp] theorem State.resetOf_result2 (c : Config.Params) : (State.resetOf c).result2 = 0 := rfl
@[simp] theorem State.resetOf_phase (c : Config.Params) : (State.resetOf c).phase = .idle := rfl
@[simp] theorem State.resetOf_latchWord (c : Config.Params) : (State.resetOf c).latchWord = 0 := rfl
@[simp] theorem State.resetOf_latchArg (c : Config.Params) : (State.resetOf c).latchArg = Vector.replicate 8 0 := rfl
@[simp] theorem State.resetOf_hctx (c : Config.Params) : (State.resetOf c).hctx = HashCtx.idle := rfl
@[simp] theorem State.resetOf_mctx (c : Config.Params) : (State.resetOf c).mctx = HmacCtx.unkeyed := rfl
@[simp] theorem State.resetOf_crc (c : Config.Params) : (State.resetOf c).crc = 0xFFFFFFFF := rfl
@[simp] theorem State.resetOf_slot0 (c : Config.Params) : (State.resetOf c).slot0 = Slot.empty := rfl
@[simp] theorem State.resetOf_slot1 (c : Config.Params) : (State.resetOf c).slot1 = Slot.empty := rfl
@[simp] theorem State.resetOf_xtsBound (c : Config.Params) : (State.resetOf c).xtsBound = false := rfl
@[simp] theorem State.resetOf_scratch (c : Config.Params) : (State.resetOf c).scratch = Scratch.zero := rfl
@[simp] theorem State.resetOf_buf (c : Config.Params) : (State.resetOf c).buf = [] := rfl
@[simp] theorem State.resetOf_rstN (c : Config.Params) : (State.resetOf c).rstN = true := rfl
@[simp] theorem State.resetOf_pending (c : Config.Params) : (State.resetOf c).pending = [] := rfl
@[simp] theorem State.resetOf_rdata (c : Config.Params) : (State.resetOf c).rdata = 0 := rfl

/-! ### `resetEnded`: the value of `State.resetOf` everywhere but outside the engine -/

theorem resetEnded_eq (s : State) :
    resetEnded s = { State.resetOf s.config with rstN := s.rstN, pending := s.pending, rdata := s.rdata } := rfl

@[simp] theorem resetEnded_config (s : State) : (resetEnded s).config = s.config := rfl
@[simp] theorem resetEnded_rstN (s : State) : (resetEnded s).rstN = s.rstN := rfl
@[simp] theorem resetEnded_pending (s : State) : (resetEnded s).pending = s.pending := rfl
@[simp] theorem resetEnded_rdata (s : State) : (resetEnded s).rdata = s.rdata := rfl
@[simp] theorem resetEnded_phase (s : State) : (resetEnded s).phase = .idle := rfl

/-! ### Slots -/

@[simp] theorem State.slot_slot0 (s : State) : s.slot .slot0 = s.slot0 := rfl
@[simp] theorem State.slot_slot1 (s : State) : s.slot .slot1 = s.slot1 := rfl

/-- Reading a slot back after one is replaced. -/
@[simp] theorem State.slot_setSlot (s : State) (n n' : SlotId) (k : Slot) :
    (s.setSlot n k).slot n' = if n = n' then k else s.slot n' := by
  cases n <;> cases n' <;> rfl

/-! ### Completion -/

theorem complete_eq (c : Code) (s : State) : complete c s = .next (finished c s) := rfl

theorem raiseError_eq (c : Code) (s : State) : raiseError c s = .next (finished c s) := rfl

/-! ### Operand checks as arithmetic -/

/-- Every legal size is a number of whole words, at least 1024 bytes and at most 32768 (R7). -/
theorem bufSize_bounds (b : Config.BufSize) : b.bytes % 4 = 0 ∧ 1024 ≤ b.bytes ∧ b.bytes ≤ 32768 := by
  cases b <;> decide

/-- `inrange` on exact integers (R99). -/
theorem inRange_eq (b : Config.BufSize) (a n : Nat) : inRange b a n = decide (a + n ≤ b.bytes) := by
  unfold inRange
  rw [← Bool.decide_and]
  apply decide_eq_decide.mpr
  omega

theorem overlaps_iff (a n b m : Nat) : overlaps a n b m = true ↔ n > 0 ∧ m > 0 ∧ a < b + m ∧ b < a + n := by
  simp [overlaps, and_assoc]

theorem legalHash_eq (alg : Byte) : legalHash alg = decide (alg = 0x01) := by
  revert alg
  decide

/-- An id is legal exactly when the table has a row for it (R201). -/
theorem legalCipher_eq (ciphers : List Config.CipherRow) (alg : Byte) :
    legalCipher ciphers alg = (cipherRow ciphers alg).isSome := by
  simp [legalCipher, cipherRow, List.isSome_find?]

/-! ### The cipher table's row of an id, and the table of this hardware (R201) -/

section
variable {ciphers : List Config.CipherRow} {alg : Byte} {r : Config.CipherRow}

theorem legalCipher_of_row (h : cipherRow ciphers alg = some r) : legalCipher ciphers alg = true := by
  rw [legalCipher_eq, h]; rfl

theorem keySize_of_row (h : cipherRow ciphers alg = some r) : keySize ciphers alg = r.keyBytes.val := by
  rw [keySize, h]; rfl

theorem cipherBlockSize_of_row (h : cipherRow ciphers alg = some r) : cipherBlockSize ciphers alg = r.blockBytes := by
  rw [cipherBlockSize, h]; rfl

theorem cipherCore_of_row (h : cipherRow ciphers alg = some r) : cipherCore ciphers alg = r.core := by
  rw [cipherCore, h]; rfl

end

/-- This hardware has one cipher. -/
theorem cipherRow_hardware (alg : Byte) :
    cipherRow Config.hardware.ciphers alg = if alg = 0x01 then some Config.aes256Row else none := by
  by_cases h : alg = 0x01
  · subst h; rfl
  · have h' : ¬ (0x01 : Byte) = alg := fun e => h e.symm
    rw [if_neg h]
    simpa [cipherRow, Config.hardware, Config.aes256Row] using h'

/-- On this hardware every slot runs AES-256. -/
theorem cipherCore_hardware (alg : Byte) : cipherCore Config.hardware.ciphers alg = .aes256 := by
  rw [cipherCore, cipherRow_hardware]
  split <;> rfl

end Sys2Proof.Machine
end

