-- ==== Sys2Proof/Laws/HostPort.lean ====
section
/-! SUPPORT. The laws of the host's side: what `locate` answers, and what a host transaction keeps. -/

namespace Sys2Proof.Machine

/-- The located offset is a multiple of 4 (R63). -/
theorem offset_aligned (o : BitVec 16) : (o &&& 0xFFFC).toNat % 4 = 0 := by
  have h : ∀ i < 2, (o &&& 0xFFFC).toNat.testBit i = false := by
    intro i hi
    rw [BitVec.testBit_toNat]
    interval_cases i <;> simp
  have h0 := h 0 (by omega)
  have h1 := h 1 (by omega)
  generalize (o &&& 0xFFFC).toNat = x at *
  simp only [Nat.testBit_eq_decide_div_mod_eq] at h0 h1
  simp at h0 h1
  omega

/-- Clearing the two low bits rounds down to a multiple of 4 (R63). -/
theorem offset_toNat (o : BitVec 16) : (o &&& 0xFFFC).toNat = o.toNat / 4 * 4 := by
  have h : ∀ i, (o &&& 0xFFFC).toNat.testBit (i + 2) = o.toNat.testBit (i + 2) := by
    intro i
    rw [BitVec.testBit_toNat, BitVec.testBit_toNat, BitVec.getLsbD_and]
    by_cases hi : i + 2 < 16
    · have : i < 14 := by omega
      interval_cases i <;> simp
    · rw [BitVec.getLsbD_of_ge o _ (by omega)]
      simp
  have hd : (o &&& 0xFFFC).toNat / 4 = o.toNat / 4 := by
    apply Nat.eq_of_testBit_eq
    intro i
    have := h i
    simpa [Nat.testBit_div_two_pow (n := 2)] using this
  have := offset_aligned o
  omega

theorem ite_ne {c : Prop} [Decidable c] {t e u : Target} (ht : t ≠ u) (h : (if c then t else e) = u) : e = u := by
  by_cases hc : c
  · rw [if_pos hc] at h
    exact absurd h ht
  · rwa [if_neg hc] at h

/-- The word of Buf that an offset of the buffer window names lies inside Buf (R62). -/
theorem locate_window_bound {b : Config.BufSize} {o : BitVec 16} {a : Nat} (h : locate b o = .window a) :
    a + 3 < b.bytes := by
  have hn := (bufSize_bounds b).1
  have h4 := offset_aligned o
  unfold locate at h
  dsimp only at h
  generalize (o &&& 0xFFFC).toNat = x at h h4
  iterate 14 replace h := ite_ne (by intro e; cases e) h
  by_cases hb : windowBase ≤ x ∧ x < windowBase + b.bytes
  · rw [if_pos hb] at h
    injection h with h
    simp only [windowBase] at h hb
    omega
  · rw [if_neg hb] at h
    cases h

/-- Only an offset of the buffer window names a word of Buf (R22, R62). -/
theorem window_of_locate {b : Config.BufSize} {o : BitVec 16} {a : Nat} (h : locate b o = .window a) :
    0x1000 ≤ o.toNat ∧ o.toNat < 0x1000 + b.bytes := by
  have ha := locate_window_bound h
  unfold locate at h
  dsimp only at h
  rw [offset_toNat] at h
  generalize hx : o.toNat / 4 * 4 = x at h
  iterate 14 replace h := ite_ne (by intro e; cases e) h
  by_cases hb : windowBase ≤ x ∧ x < windowBase + b.bytes
  · rw [if_pos hb] at h
    injection h with h
    simp only [windowBase] at h hb
    omega
  · rw [if_neg hb] at h
    cases h

/-- Every offset of the buffer window names a word of Buf (R62). -/
theorem locate_of_window {b : Config.BufSize} {o : BitVec 16} (h : 0x1000 ≤ o.toNat)
    (h' : o.toNat < 0x1000 + b.bytes) : locate b o = .window (o.toNat / 4 * 4 - 0x1000) := by
  unfold locate
  dsimp only
  rw [offset_toNat]
  generalize hx : o.toNat / 4 * 4 = x
  have hb : windowBase ≤ x ∧ x < windowBase + b.bytes := by
    simp only [windowBase]
    omega
  have hw := hb.1
  simp only [windowBase] at hw
  iterate 14 rw [if_neg (by omega)]
  rw [if_pos hb]
  rfl

/-- An offset names what the word's own offset names: its two low bits are ignored (R63). -/
theorem locate_mask (b : Config.BufSize) (o : BitVec 16) : locate b (o &&& 0xFFFC) = locate b o := by
  unfold locate
  rw [BitVec.and_assoc, BitVec.and_self]

/-- The offset of argument register `i`, at each of its four bytes (R22, R63). -/
theorem locate_arg {b : Config.BufSize} {o : BitVec 16} {i : Fin 8} (h : o &&& 0xFFFC = BitVec.ofNat 16 (0x020 + 4 * i.val)) :
    locate b o = .arg i := by
  rw [← locate_mask, h]
  clear h
  revert i
  cases b <;> decide +kernel

/-- The offset of buffer word `k`, at each of its four bytes (R62, R63). -/
theorem locate_window {b : Config.BufSize} {o : BitVec 16} {k : Nat} (hk : 4 * k + 3 < b.bytes)
    (h : o &&& 0xFFFC = BitVec.ofNat 16 (0x1000 + 4 * k)) : locate b o = .window (4 * k) := by
  have hb := bufSize_bounds b
  have ho := congrArg BitVec.toNat h
  rw [offset_toNat, BitVec.toNat_ofNat, Nat.mod_eq_of_lt (by omega)] at ho
  exact (locate_of_window (by omega) (by omega)).trans (congrArg Target.window (by omega))

/-- The four bytes of CTRL, and nothing else (R22, R63). -/
theorem locate_eq_ctrl (b : Config.BufSize) (o : BitVec 16) : locate b o = .ctrl ↔ o &&& 0xFFFC = 0x008 := by
  have h8 : ∀ x : BitVec 16, x = 0x008 ↔ x.toNat = 0x008 := fun x => BitVec.toNat_inj.symm
  rw [h8]
  unfold locate
  dsimp only
  generalize (o &&& 0xFFFC).toNat = x
  constructor
  · intro h
    by_contra hx
    iterate 2 replace h := ite_ne (by intro e; cases e) h
    rw [if_neg hx] at h
    iterate 12 replace h := ite_ne (by intro e; cases e) h
    cases h
  · rintro rfl
    rfl

/-- A read changes nothing of the state but LOCKERR and `rdata` (R65). -/
theorem hostRead_eq (o : BitVec 16) (s : State) :
    hostRead o s = { s with lockerr := (readMark s o).lockerr, rdata := hostReadValue s o } := by
  unfold hostRead readMark
  split <;> rfl

/-- A host read while IDLE, or of no buffer word, has no side effect (R65). -/
theorem readMark_eq {s : State} {o : BitVec 16}
    (h : s.phase = .idle ∨ o.toNat < 0x1000 ∨ 0x1000 + s.config.bufSize.bytes ≤ o.toNat) : readMark s o = s := by
  unfold readMark
  split
  · rename_i hb hw
    have := window_of_locate hw
    rcases h with h | h
    · rw [h] at hb
      cases hb
    · omega
  · rfl

@[simp] theorem hostWrite_config (o : BitVec 16) (v : Word) (strb : BitVec 4) (s : State) :
    (hostWrite o v strb s).config = s.config := by
  unfold hostWrite writeTarget writeCtrl writeCmd
  split
  · rfl
  · split <;> (try split) <;> (try split) <;> rfl

@[simp] theorem hostWrite_pending (o : BitVec 16) (v : Word) (strb : BitVec 4) (s : State) :
    (hostWrite o v strb s).pending = s.pending := by
  unfold hostWrite writeTarget writeCtrl writeCmd
  split
  · rfl
  · split <;> (try split) <;> (try split) <;> rfl

end Sys2Proof.Machine
end

