-- ==== Sys2Proof/Laws/Xts.lean ====
section
/-! SUPPORT. The laws of the XTS controller: a run in two parts, its frame, what each sub-block becomes, which parts of
the state it depends on, and where a continued run takes up. -/

namespace Sys2Proof.Machine

/-- The external cipher's one assumed property (R8), and its consequence on a finite set. -/
@[simp] theorem aes256_dec_enc (k : Key) (b : Block) : Config.aes256Dec k (Config.aes256Enc k b) = b := by
  simp [Config.aes256Dec, Config.aes256Enc]

@[simp] theorem aes256_enc_dec (k : Key) (b : Block) : Config.aes256Enc k (Config.aes256Dec k b) = b := by
  simp [Config.aes256Dec, Config.aes256Enc]

/-- A tweak's bytes stand for its value (R220). -/
@[simp] theorem tweakValue_tweakBytes (v : BitVec 128) : tweakValue (tweakBytes v) = v := by
  unfold tweakValue tweakBytes
  rw [toList_toVec _ _ (by simp),
    show List.drop 8 (le64Bytes (v.extractLsb' 0 64) ++ le64Bytes (v.extractLsb' 64 64)) = le64Bytes (v.extractLsb' 64 64)
      from rfl, le64_le64Bytes]
  have low : le64 (le64Bytes (v.extractLsb' 0 64) ++ le64Bytes (v.extractLsb' 64 64)) =
      le64 (le64Bytes (v.extractLsb' 0 64)) := by
    unfold le64
    congr 1
  rw [low, le64_le64Bytes]
  apply BitVec.eq_of_getLsbD_eq
  intro i hi
  simp only [BitVec.getLsbD_append, BitVec.getLsbD_extractLsb']
  by_cases h : i < 64
  · simp [h]
  · simp [h, show 64 + (i - 64) = i by omega, show i - 64 < 64 by omega]

theorem xtsRun_add (s : State) (u : DWord) (n k g a : Nat) (m : Memory) :
    xtsRun s u (n + k) g a m = xtsRun s u k (g + n) (a + 16 * n) (xtsRun s u n g a m) := by
  induction n generalizing g a m with
  | zero => simp [xtsRun]
  | succ n ih =>
    rw [Nat.add_right_comm, xtsRun, ih, xtsRun]
    congr 1 <;> omega

theorem xtsRun_wf (s : State) (u : DWord) (n g a : Nat) (m : Memory) (h : m.wf = true) :
    (xtsRun s u n g a m).wf = true := by
  induction n generalizing g a m with
  | zero => exact h
  | succ n ih => exact ih _ _ _ (Memory.wf_write _ _ h)

theorem xtsRun_inBuf (s : State) (u : DWord) (b : Config.BufSize) (n g a : Nat) (m : Memory) (ha : a + 16 * n ≤ b.bytes)
    (h : m.inBuf b = true) : (xtsRun s u n g a m).inBuf b = true := by
  induction n generalizing g a m with
  | zero => exact h
  | succ n ih => exact ih _ _ _ (by omega) (Memory.inBuf_write _ (by simp; omega) h)

/-- The frame of a run: every byte outside its range reads as before. -/
theorem xtsRun_get_outside (s : State) (u : DWord) (n g a : Nat) (m : Memory) (b : Nat) (h : m.wf = true)
    (hb : b < a ∨ a + 16 * n ≤ b) : (xtsRun s u n g a m).get b = m.get b := by
  induction n generalizing g a m with
  | zero => rfl
  | succ n ih =>
    rw [xtsRun, ih _ _ _ (Memory.wf_write _ _ h) (by omega), Memory.get_write_outside _ h (by simp; omega)]

/-- What sub-block `k` of a run becomes: `xts_block` of the bytes that stood there before (R222, R224). -/
theorem xtsRun_read (s : State) (u : DWord) (n g a k : Nat) (m : Memory) (h : m.wf = true) (hk : k < n) :
    (xtsRun s u n g a m).read (a + 16 * k) 16
      = (s.xtsBlock (toVec 16 (m.read (a + 16 * k) 16)) (unitOf u (g + k)) ((g + k) % 32)).toList := by
  induction n generalizing g a k m with
  | zero => omega
  | succ n ih =>
    rw [xtsRun]
    have hw := Memory.wf_write a (s.xtsBlock (toVec 16 (m.read a 16)) (unitOf u g) (g % 32)).toList h
    cases k with
    | zero =>
      rw [Memory.read_congr (m' := m.write a (s.xtsBlock (toVec 16 (m.read a 16)) (unitOf u g) (g % 32)).toList)]
      · have := Memory.read_write_same a (s.xtsBlock (toVec 16 (m.read a 16)) (unitOf u g) (g % 32)).toList h
        simpa using this
      · intro x hx hx'
        exact xtsRun_get_outside _ _ _ _ _ _ _ hw (by omega)
    | succ k =>
      have e : a + 16 * (k + 1) = a + 16 + 16 * k := by omega
      rw [e, ih (g + 1) (a + 16) k _ hw (by omega), Memory.read_write_disjoint _ h (by simp)]
      rw [show g + 1 + k = g + (k + 1) by omega]

/-- A run depends on the cipher table, on slot 0 and on slot 1's algorithm and key only (R221, R222). -/
theorem xtsRun_congr (s s' : State) (hc : s.config.ciphers = s'.config.ciphers) (h0 : s.slot0 = s'.slot0)
    (ha : s.slot1.alg = s'.slot1.alg) (h1 : s.slot1.key = s'.slot1.key) (u : DWord) (n g a : Nat) (m : Memory) :
    xtsRun s u n g a m = xtsRun s' u n g a m := by
  induction n generalizing g a m with
  | zero => rfl
  | succ n ih =>
    rw [xtsRun, xtsRun, ih]
    simp [State.xtsBlock, State.tweak, hc, h0, ha, h1]

/-- Counting on from a resume position (R226): unit `un` and index `g mod 32` stand for global index `g`. -/
theorem unitOf_resume (u : DWord) (g k : Nat) : unitOf (unitOf u g) (g % 32 + k) = unitOf u (g + k) := by
  unfold unitOf
  rw [BitVec.add_assoc, ← BitVec.ofNat_add]
  congr 2
  omega

theorem xtsRun_resume (s : State) (u : DWord) (n g j a : Nat) (m : Memory) :
    xtsRun s (unitOf u g) n (g % 32 + j) a m = xtsRun s u n (g + j) a m := by
  induction n generalizing j a m with
  | zero => rfl
  | succ n ih =>
    rw [xtsRun, xtsRun, unitOf_resume, show (g % 32 + j) % 32 = (g + j) % 32 by omega]
    exact ih (j + 1) _ _

/-- A slot of AES-256 turned from ENC to DEC undoes what it encrypted (R8, R202). -/
theorem Slot.cipher_dec_enc (ciphers : List Config.CipherRow) (k k' : Slot) (hc : cipherCore ciphers k.alg = .aes256)
    (h : k.mode = .enc) (h' : k'.mode = .dec) (ha : k.alg = k'.alg) (hk : k.key = k'.key) (x : Block) :
    k'.cipher ciphers (k.cipher ciphers x) = x := by
  simp [Slot.cipher, h, h', ← ha, hk, hc, Config.CipherCore.enc, Config.CipherCore.dec]

/-- Decrypting what was encrypted under the same tweak gives the plaintext back, if slot 0 is one of AES-256 (R230). -/
theorem xtsBlock_dec_enc (s s' : State) (hc : s.config.ciphers = s'.config.ciphers)
    (hcore : cipherCore s.config.ciphers s.slot0.alg = .aes256) (h : s.slot0.mode = .enc) (h' : s'.slot0.mode = .dec)
    (ha0 : s.slot0.alg = s'.slot0.alg) (hk : s.slot0.key = s'.slot0.key) (ha : s.slot1.alg = s'.slot1.alg)
    (h1 : s.slot1.key = s'.slot1.key) (p : Block) (u : DWord) (j : Nat) :
    s'.xtsBlock (s.xtsBlock p u j) u j = p := by
  have ht : s'.tweak u j = s.tweak u j := by simp [State.tweak, hc, ha, h1]
  simp [State.xtsBlock, ht, xorBlock_cancel, ← hc, Slot.cipher_dec_enc _ _ _ hcore h h' ha0 hk]

end Sys2Proof.Machine
end

