-- ==== Sys2Proof/Laws/Exec.lean ====
section
/-! SUPPORT. What a command and a step can do, said once: a command completes with a code out of a state that differs from
the one before in the engine's own state alone; the engine's turn and a step always answer. -/

namespace Sys2Proof.Machine

/-- `u` agrees with `s` in everything a command's effect leaves alone before its completion: the configuration, the host's registers, the flags,
the latch, the phase and what stands outside the engine. -/
structure SameHostSide (s u : State) : Prop where
  config : u.config = s.config
  irqEn : u.irqEn = s.irqEn
  done : u.done = s.done
  err : u.err = s.err
  overrun : u.overrun = s.overrun
  lockerr : u.lockerr = s.lockerr
  errcode : u.errcode = s.errcode
  args : u.args = s.args
  phase : u.phase = s.phase
  latchWord : u.latchWord = s.latchWord
  latchArg : u.latchArg = s.latchArg
  rstN : u.rstN = s.rstN
  pending : u.pending = s.pending
  rdata : u.rdata = s.rdata

theorem SameHostSide.refl (s : State) : SameHostSide s s := by constructor <;> rfl

/-- Every command answers a next state, completed with some code; with a code other than OK it has no effect of its own. -/
theorem exec_completes (i : Instr) (s : State) :
    ∃ c u, exec i s = .next (finished c u) ∧ (c ≠ .ok → u = s) ∧ SameHostSide s u := by
  cases i <;>
    simp only [exec, execNop, execHashReset, execHashUpdate, execHashFinal, execHmacInit, execHmacReset, execHmacUpdate,
      execHmacFinal, execPbkdf2, execCrcInit, execCrcUpdate, execCipherKey, execCipherBlock, execXtsInit, execXtsProcess,
      execErase, execEraseBuf, raiseError, complete] <;>
    (try split) <;> (try split) <;> (try split) <;> (try split) <;>
    exact ⟨_, _, rfl, by simp, by constructor <;> simp⟩

/-- The completion step of whatever word is latched. -/
theorem runLatched_completes (s : State) :
    ∃ c u, runLatched s = .next (finished c u) ∧ (c ≠ .ok → u = s) ∧ SameHostSide s u ∧
      ((∃ e, decode s.latchWord = .error e) → c = .illegalCmd) := by
  unfold runLatched
  split
  · rename_i i hi
    obtain ⟨c, u, h, hc, hs⟩ := exec_completes i s
    exact ⟨c, u, h, hc, hs, by rintro ⟨e, he⟩; rw [hi] at he; cases he⟩
  · exact ⟨_, _, rfl, by simp, .refl s, by simp⟩

theorem engineTurn_idle {s : State} (h : s.phase = .idle) : engineTurn s = .next s := by simp [engineTurn, h]

theorem engineTurn_busy {s : State} (h : s.phase = .busy) : engineTurn s = runLatched s := by simp [engineTurn, h]

theorem engineTurn_resetting {s : State} (h : s.phase = .resetting) :
    engineTurn s = .next (if s.rstN then resetEnded s else s) := by simp [engineTurn, h]

/-- The engine's turn always answers, and the configuration stays. -/
theorem engineTurn_answers (s : State) : ∃ t, engineTurn s = .next t ∧ t.config = s.config := by
  unfold engineTurn
  split
  · exact ⟨_, rfl, rfl⟩
  · obtain ⟨c, u, h, -, hs, -⟩ := runLatched_completes s
    exact ⟨_, h, hs.config⟩
  · exact ⟨_, rfl, by split <;> rfl⟩

/-- Every event is answered, and the configuration stays. -/
theorem handle_answers (e : Event) (s : State) : ∃ t, handle e s = .next t ∧ t.config = s.config := by
  cases e with
  | hostRead offset => exact ⟨_, rfl, by rw [hostRead_eq]⟩
  | hostWrite offset v strb => exact ⟨_, rfl, hostWrite_config offset v strb s⟩
  | engine => exact engineTurn_answers s
  | rstLow => exact ⟨_, rfl, rfl⟩
  | rstHigh => exact ⟨_, rfl, rfl⟩

theorem step_quiet {s : State} (h : s.pending = []) : step s = engineTurn s := by simp [step, stepEvent, h]

theorem step_event {s : State} {e : Event} {rest : List Event} (h : s.pending = e :: rest) :
    step s = handle e { s with pending := rest } := by simp [step, stepEvent, h]

theorem runLatched_decoded {s : State} {i : Instr} (h : decode s.latchWord = .ok i) : runLatched s = exec i s := by
  simp [runLatched, h]

theorem runLatched_illegal {s : State} {e : Illegal} (h : decode s.latchWord = .error e) :
    runLatched s = .next (finished .illegalCmd s) := by simp [runLatched, h, raiseError, complete]

end Sys2Proof.Machine
end

