-- ==== Sys2Proof/Laws/Inv.lean ====
section
/-! SUPPORT. What keeps the invariants of the hash and HMAC contexts (R38, R39). -/

namespace Sys2Proof.Machine

theorem HashCtx.fresh_wf : HashCtx.fresh.wf = true := by decide

theorem HashCtx.idle_wf : HashCtx.idle.wf = true := by decide

theorem HmacCtx.unkeyed_wf : HmacCtx.unkeyed.wf = true := by decide +kernel

theorem Slot.empty_wf (ciphers : List Config.CipherRow) : Slot.empty.wf ciphers = true := rfl

/-- Absorbing keeps the invariant of an active context. -/
theorem HashCtx.absorb_wf {c : HashCtx} (d : List Byte) (ha : c.active = true) (h : c.wf = true) :
    (c.absorb d).wf = true := by
  simp only [HashCtx.wf, ha, if_true, Bool.and_eq_true, decide_eq_true_eq, HashCtx.absorb_active,
    HashCtx.absorb_blk_length, HashCtx.absorb_nbits] at h ⊢
  refine ⟨Nat.mod_lt _ (by decide), ?_⟩
  have hd : (512 : Nat) ∣ 2 ^ 64 := by decide
  rw [BitVec.toNat_add, BitVec.toNat_ofNat, Nat.mod_mod_of_dvd _ hd, Nat.add_mod, Nat.mod_mod_of_dvd _ hd, h.2]
  omega

/-- A keyed context is sound after priming. -/
theorem HmacCtx.prime_wf {c : HmacCtx} (h : c.keyed = true) (hk : c.k0.length = 64) : c.prime.wf = true := by
  have hw := HashCtx.absorb_wf (xorBytes c.k0 ipad) (c := HashCtx.fresh) rfl HashCtx.fresh_wf
  have ha : HashCtx.fresh.active = true := rfl
  simp [HmacCtx.wf, HmacCtx.prime, h, hk, hw, ha]

theorem HmacCtx.keyedWith_wf (key : List Byte) : (HmacCtx.keyedWith key).wf = true :=
  HmacCtx.prime_wf rfl (hmacK0_length key)

theorem HmacCtx.k0_length_of_wf {c : HmacCtx} (h : c.wf = true) (hk : c.keyed = true) : c.k0.length = 64 := by
  simp only [HmacCtx.wf, hk, if_true, Bool.and_eq_true, decide_eq_true_eq] at h
  exact h.1.1

theorem HashCtx.blk_length_of_wf {c : HashCtx} (h : c.wf = true) : c.blk.length < 64 := by
  unfold HashCtx.wf at h
  split at h
  · simp only [Bool.and_eq_true, decide_eq_true_eq] at h
    exact h.1
  · rw [of_decide_eq_true h]
    decide

end Sys2Proof.Machine
end

