-- ==== Sys2Proof/Laws/PerInstr.lean ====
section
/-! SUPPORT. The statement made of each command: its word fits exactly one row of the opcode map (R93, R98). -/

namespace Sys2Proof.Laws.OneRow

/-- The word of `i` has the fixed bits of exactly one row. -/
def Statement (i : Instr) : Prop := (opcodeTable.filter (OpcodeRow.fits (encode i))).length = 1

theorem nop : Statement .nop := by unfold Statement; decide +kernel

theorem hashReset (alg : Byte) : Statement (.hashReset alg) := by
  unfold Statement
  revert alg
  decide +kernel

theorem hashUpdate : Statement .hashUpdate := by unfold Statement; decide +kernel

theorem hashFinal : Statement .hashFinal := by unfold Statement; decide +kernel

theorem hmacInit (alg : Byte) : Statement (.hmacInit alg) := by
  unfold Statement
  revert alg
  decide +kernel

theorem hmacReset : Statement .hmacReset := by unfold Statement; decide +kernel

theorem hmacUpdate : Statement .hmacUpdate := by unfold Statement; decide +kernel

theorem hmacFinal : Statement .hmacFinal := by unfold Statement; decide +kernel

theorem pbkdf2 (alg : Byte) : Statement (.pbkdf2 alg) := by
  unfold Statement
  revert alg
  decide +kernel

theorem crcInit : Statement .crcInit := by unfold Statement; decide +kernel

theorem crcUpdate : Statement .crcUpdate := by unfold Statement; decide +kernel

theorem cipherKey (alg : Byte) (mode : CipherMode) (slot : SlotId) : Statement (.cipherKey alg mode slot) := by
  unfold Statement
  cases mode <;> cases slot <;> revert alg <;> decide +kernel

theorem cipherBlock (slot : SlotId) : Statement (.cipherBlock slot) := by
  unfold Statement
  cases slot <;> decide +kernel

theorem xtsInit : Statement .xtsInit := by unfold Statement; decide +kernel

theorem xtsProcess : Statement .xtsProcess := by unfold Statement; decide +kernel

theorem erase (mask : BitVec 4) : Statement (.erase mask) := by
  unfold Statement
  revert mask
  decide +kernel

theorem eraseBuf : Statement .eraseBuf := by unfold Statement; decide +kernel

end Sys2Proof.Laws.OneRow
end

