-- ==== Sys2Proof/Laws/Run.lean ====
section
/-! SUPPORT. A run step by step. -/

namespace Sys2Proof.Machine

theorem Host_run_next (M : Host.Core) {s t : M.State} (h : M.step s = .next t) (k : Nat) :
    M.run (k + 1) s = M.run k t := by simp only [Host.Core.run, h]

theorem run_zero (s : State) : core.run 0 s = .next s := rfl

/-- A run goes on from the next state of its first step. -/
theorem run_next {s t : State} (h : step s = .next t) (k : Nat) : core.run (k + 1) s = core.run k t :=
  Host_run_next core h k

end Sys2Proof.Machine
end

