-- ==== Sys2Proof/Tests/Slice0.lean ====
section
/-! SUPPORT. The model's own tests: words written out from R91 and R93, vectors of spec/95_test_vectors.md, and for each
obligation that has hypotheses the states and operands that meet them. -/

set_option Elab.async false

namespace Sys2Proof.Tests

open Sys2Proof.Machine Sys2Proof.Claims

/-! ### Helpers -/

/-- One field of the next state of an outcome. -/
def field {α : Type} (f : State → α) (o : Host.Outcome State Fault Refusal) : Option α :=
  match o with
  | .next s => some (f s)
  | .fault _ => none
  | .refused _ => none

/-- The outcome of `n` steps from `s` with the given events to come. -/
def after (n : Nat) (es : List Event) (s : State) : Host.Outcome State Fault Refusal :=
  core.run n { s with pending := es }

/-- `s` with the command word `w` in flight and the given latched arguments. -/
def flight (w : Word) (a : Vector Word 8) (s : State) : State :=
  { s with phase := .busy, latchWord := w, latchArg := a }

/-- The bytes of an ASCII text. -/
def ascii (t : String) : List Byte := t.toList.map fun c => BitVec.ofNat 8 c.toNat

/-- Bytes from numbers. -/
def bytes (l : List Nat) : List Byte := l.map (BitVec.ofNat 8)

/-- The reset state of an engine with a buffer of another size. -/
def sized (b : Config.BufSize) : State := State.resetOf { Config.hardware with bufSize := b }

/-- The reset state of an engine whose cipher table lists a second cipher, id 0x02, with 8-byte blocks and 16-byte keys. -/
def twoCiphers : State :=
  State.resetOf { Config.hardware with ciphers := [Config.aes256Row, ⟨0x02, 8, 16, .other 0⟩] }

/-- The reset state with an active, empty hash context. -/
def hashing : State := { State.reset with hctx := HashCtx.fresh }

/-- The reset state keyed for HMAC with the key "Jefe". -/
def jefe : State := { State.reset with mctx := HmacCtx.keyedWith (ascii "Jefe") }

/-- A loaded slot with an all-zero key. -/
def zeroSlot (mode : CipherMode) : Slot := ⟨true, 0x01, mode, Vector.replicate 32 0⟩

/-- The reset state with both slots loaded ENC and XTS bound. -/
def bound : State := { State.reset with slot0 := zeroSlot .enc, slot1 := zeroSlot .enc, xtsBound := true }

/-- The reset state with "password" at 0 and the salt 12 34 56 78 at 16 (95_test_vectors.md 2.4). -/
def passwordState : State :=
  { State.reset with buf := (Memory.write [] 0 (ascii "password")).write 16 (bytes [0x12, 0x34, 0x56, 0x78]) }

/-- The latched arguments of PBKDF2 on that state. -/
def passwordArgs (c dkLen dst : Word) : Vector Word 8 := #v[0, 8, 16, 4, c, dkLen, dst, 0]

/-! ### Decoding: RSV1, ALG, RSV0, MODE, SEL, OP, written out bit by bit (R91, R93) -/

theorem test_decode_nop : decode 0b00000000_00000000_000_0_0000_00000000 = .ok .nop := by decide
theorem test_decode_hashReset : decode 0b00000000_00000001_000_0_0000_00000001 = .ok (.hashReset 0x01) := by decide
theorem test_decode_hashUpdate : decode 0b00000000_00000000_000_0_0000_00000010 = .ok .hashUpdate := by decide
theorem test_decode_hashFinal : decode 0b00000000_00000000_000_0_0000_00000011 = .ok .hashFinal := by decide
theorem test_decode_hmacInit : decode 0b00000000_00000010_000_0_0000_00001000 = .ok (.hmacInit 0x02) := by decide
theorem test_decode_hmacReset : decode 0b00000000_00000000_000_0_0000_00001001 = .ok .hmacReset := by decide
theorem test_decode_hmacUpdate : decode 0b00000000_00000000_000_0_0000_00001010 = .ok .hmacUpdate := by decide
theorem test_decode_hmacFinal : decode 0b00000000_00000000_000_0_0000_00001011 = .ok .hmacFinal := by decide
theorem test_decode_pbkdf2 : decode 0b00000000_00000001_000_0_0000_00010000 = .ok (.pbkdf2 0x01) := by decide
theorem test_decode_crcInit : decode 0b00000000_00000000_000_0_0000_00011000 = .ok .crcInit := by decide
theorem test_decode_crcUpdate : decode 0b00000000_00000000_000_0_0000_00011001 = .ok .crcUpdate := by decide
theorem test_decode_cipherKey : decode 0b00000000_00000001_000_1_0001_00100000 = .ok (.cipherKey 0x01 .dec .slot1) := by
  decide
theorem test_decode_cipherBlock : decode 0b00000000_00000000_000_0_0001_00100001 = .ok (.cipherBlock .slot1) := by decide
theorem test_decode_xtsInit : decode 0b00000000_00000000_000_0_0000_00101000 = .ok .xtsInit := by decide
theorem test_decode_xtsProcess : decode 0b00000000_00000000_000_0_0000_00101001 = .ok .xtsProcess := by decide
theorem test_decode_erase : decode 0b00000000_00000000_000_0_1010_00110000 = .ok (.erase 0xA) := by decide
theorem test_decode_eraseBuf : decode 0b00000000_00000000_000_0_0000_00110001 = .ok .eraseBuf := by decide

/-- The words of 95_test_vectors.md 2.1 that decode to nothing. -/
theorem test_decode_illegal :
    decode 0x00000100 = .error .fixedBitSet ∧ decode 0x00000004 = .error .unassignedOp ∧
    decode 0x01000000 = .error .fixedBitSet ∧ decode 0x00010002 = .error .fixedBitSet ∧
    decode 0x00012020 = .error .fixedBitSet ∧ decode 0x00010F30 = .error .fixedBitSet ∧
    decode 0x000000FF = .error .unassignedOp := by decide

/-- ALG must name an algorithm (R94): an ill-formed term for each check, refused, and a well-formed one. -/
theorem test_wellFormed_refuses :
    let table := Config.hardware.ciphers
    (Instr.hashReset 0x00).wellFormed table = false ∧ (Instr.hmacInit 0x02).wellFormed table = false ∧
    (Instr.pbkdf2 0x00).wellFormed table = false ∧ (Instr.cipherKey 0x02 .enc .slot0).wellFormed table = false ∧
    (Instr.hashReset 0x01).wellFormed table = true ∧ (Instr.cipherKey 0x01 .dec .slot1).wellFormed table = true := by decide

theorem test_decodeTableWord : decodeTableWord 32 0x00010120 = some (.cipherKey 0x01 .enc .slot1) ∧
    decodeTableWord 32 0x00000221 = none := by decide

theorem test_withFetchWord_runs : field State.errcode (step (State.reset.withFetchWord 32 0x00000121)) = some .notKeyed := by
  decide +kernel

/-! ### The algorithms (95_test_vectors.md 2.2-2.7) -/

theorem test_rmd160_abc : rmd160 (ascii "abc") =
    bytes [0x8e, 0xb2, 0x08, 0xf7, 0xe0, 0x5d, 0x98, 0x7a, 0x9b, 0x04, 0x4a, 0x8e, 0x98, 0xc6, 0xb0, 0x87, 0xf1, 0x5a,
      0x0b, 0xfc] := by decide +kernel

/-- 56 bytes: the padding spills into a second block. -/
theorem test_rmd160_two_blocks : rmd160 (List.replicate 56 0x61) =
    bytes [0xe7, 0x23, 0x34, 0xb4, 0x6c, 0x83, 0xcc, 0x70, 0xbe, 0xf9, 0x79, 0xe1, 0x54, 0x53, 0x70, 0x6c, 0x95, 0xb8,
      0x88, 0xbe] := by decide +kernel

theorem test_hmac_jefe : hmac (ascii "Jefe") (ascii "what do ya want for nothing?") =
    bytes [0xdd, 0xa6, 0xc0, 0x21, 0x3a, 0x48, 0x5a, 0x9e, 0x24, 0xf4, 0x74, 0x20, 0x64, 0xa7, 0xf0, 0x33, 0xb4, 0x3c,
      0x40, 0x69] := by decide +kernel

/-- A 65-byte key is pre-hashed. -/
theorem test_hmac_long_key : hmac (List.replicate 65 0xaa) (ascii "abc") =
    bytes [0x77, 0x56, 0xae, 0xa2, 0x5e, 0x92, 0x6d, 0xe4, 0x87, 0x00, 0x5e, 0x8f, 0x5f, 0xe0, 0xb6, 0x84, 0xff, 0xad,
      0x90, 0x5f] := by decide +kernel

/-- One byte of the second block. -/
theorem test_pbkdf2_second_block : pbkdf2 (ascii "password") (bytes [0x12, 0x34, 0x56, 0x78]) 1 21 =
    bytes [0x64, 0xd7, 0xf9, 0x3b, 0xcd, 0x05, 0x59, 0x48, 0x20, 0x9e, 0x65, 0x67, 0xaa, 0x46, 0x2f, 0x08, 0x06, 0x13,
      0x5a, 0x2c, 0xd4] := by decide +kernel

theorem test_crc32 : crc32 (ascii "123456789") = 0xCBF43926 ∧ crc32 [] = 0x00000000 ∧ crc32 [0x00] = 0xD202EF8D ∧
    crc32 (List.replicate 4 0xff) = 0xFFFFFFFF := by decide +kernel

/-- R232. -/
theorem test_double :
    (double (toVec 16 (bytes [1]))).toList = bytes [2, 0, 0, 0, 0, 0, 0, 0, 0, 0, 0, 0, 0, 0, 0, 0] ∧
    (double (toVec 16 (bytes [0, 0, 0, 0, 0, 0, 0, 0x80]))).toList = bytes [0, 0, 0, 0, 0, 0, 0, 0, 1, 0, 0, 0, 0, 0, 0, 0] ∧
    (double (toVec 16 (zeros 15 ++ [0x80]))).toList = bytes [0x87, 0, 0, 0, 0, 0, 0, 0, 0, 0, 0, 0, 0, 0, 0, 0] ∧
    (double (toVec 16 (List.replicate 16 0xff))).toList = 0x79 :: List.replicate 15 0xff := by decide +kernel

/-- Tweaks 0 and 31 of unit 0xff (2.7). -/
theorem test_doubleIter :
    (doubleIter 31 (toVec 16 (bytes [0x1a, 0x26, 0x75, 0x77, 0xa9, 0x0c, 0xaa, 0xd6, 0xae, 0x98, 0x8e, 0x22, 0x71, 0x4a,
      0x2b, 0x8b]))).toList =
    bytes [0xa8, 0xe7, 0x3a, 0x12, 0x2e, 0x93, 0xba, 0xbb, 0x54, 0x06, 0x55, 0x6b, 0x57, 0x4c, 0x47, 0x91] := by
  decide +kernel

theorem test_unitBlock : (unitBlock 0x9abcdef012345678).toList =
    bytes [0x78, 0x56, 0x34, 0x12, 0xf0, 0xde, 0xbc, 0x9a, 0, 0, 0, 0, 0, 0, 0, 0] := by decide +kernel

/-! ### One command each (95_test_vectors.md 2.2-2.8): at most two tests a command -/

theorem test_nop : field statusWord (step (flight 0x00000000 (args2 0 0) State.reset)) = some 0x00000002 := by decide +kernel

theorem test_hashReset : field ctxStatusWord (exec (.hashReset 0x01) State.reset) = some 0x00000001 := by decide +kernel
theorem test_hashReset_badAlg : field statusWord (step (flight 0x00000001 (args2 0 0) State.reset)) = some 0x00000206 := by
  decide +kernel

theorem test_hashUpdate_inactive :
    field statusWord (step (flight 0x00000002 (args2 0 1) State.reset)) = some 0x00000306 := by decide +kernel
theorem test_hashUpdate_no_wrap :
    field State.errcode (exec .hashUpdate (withArgs (args2 0xFFFFFFFF 2) hashing)) = some .badRange := by decide +kernel

theorem test_hashFinal_at_end :
    field (fun t => (t.buf.read 4076 4, ctxStatusWord t)) (exec .hashFinal (withArgs (args2 4076 0) hashing)) =
      some (bytes [0x9c, 0x11, 0x85, 0xa5], 0) := by decide +kernel
theorem test_hashFinal_badRange :
    field (fun t => (t.errcode, ctxStatusWord t)) (exec .hashFinal (withArgs (args2 4077 0) hashing)) =
      some (.badRange, 1) := by decide +kernel

theorem test_hmacInit_badAlg : field State.errcode (step (flight 0x00020008 (args2 0 0) State.reset)) = some .badAlg := by
  decide +kernel
theorem test_hmacInit_badRange :
    field (fun t => (t.errcode, decide (t.mctx = jefe.mctx))) (exec (.hmacInit 0x01) (withArgs (args2 4090 7) jefe)) =
      some (.badRange, true) := by decide +kernel

theorem test_hmacReset_notKeyed : field State.errcode (exec .hmacReset State.reset) = some .notKeyed := by decide +kernel

theorem test_hmacUpdate_notKeyed : field State.errcode (exec .hmacUpdate (withArgs (args2 0 0) State.reset)) = some .notKeyed := by
  decide +kernel

theorem test_hmacFinal :
    field (fun t => t.buf.read 100 4)
      (andThen (exec .hmacUpdate (loaded (ascii "what do ya want for nothing?") jefe))
        fun t => exec .hmacFinal (withArgs (args2 100 0) t)) = some (bytes [0xdd, 0xa6, 0xc0, 0x21]) := by decide +kernel
theorem test_hmacFinal_badRange :
    field (fun t => (t.errcode, ctxStatusWord t)) (exec .hmacFinal (withArgs (args2 4080 0) jefe)) = some (.badRange, 2) := by
  decide +kernel

/-- The source's vector, with dst next to the salt (2.4). -/
theorem test_pbkdf2 :
    field (fun t => (t.errcode, t.buf.read 16 8)) (exec (.pbkdf2 0x01) (withArgs (passwordArgs 5 4 20) passwordState)) =
      some (.ok, bytes [0x12, 0x34, 0x56, 0x78, 0x7a, 0x3d, 0x7c, 0x03]) := by decide +kernel
theorem test_pbkdf2_overlap :
    field State.errcode (exec (.pbkdf2 0x01) (withArgs (passwordArgs 5 4 19) passwordState)) = some .overlap ∧
    field State.errcode (exec (.pbkdf2 0x01) (withArgs (passwordArgs 0 4 5000) passwordState)) = some .badArg := by
  decide +kernel

theorem test_crcInit : field (fun t => hostReadValue t 0x050) (exec .crcInit { State.reset with crc := 1 }) = some 0 := by
  decide +kernel

theorem test_crcUpdate : field (fun t => hostReadValue t 0x050) (exec .crcUpdate (loaded (ascii "123456789") State.reset)) =
    some 0xCBF43926 := by decide +kernel
theorem test_crcUpdate_badRange :
    field (fun t => (t.errcode, hostReadValue t 0x050)) (exec .crcUpdate (withArgs (args2 1 4096) State.reset)) =
      some (.badRange, 0) := by decide +kernel

theorem test_cipherKey : field ctxStatusWord (exec (.cipherKey 0x01 .dec .slot0) (withArgs (args2 4064 0) bound)) =
    some 0x00000070 := by decide +kernel
theorem test_cipherKey_badRange :
    field (fun t => (t.errcode, ctxStatusWord t)) (exec (.cipherKey 0x01 .enc .slot0) (withArgs (args2 4065 0) State.reset)) =
      some (.badRange, 0) := by decide +kernel

/-- Over another cipher table (R201): id 0x02 is legal and its key is the 16 bytes up to the end of Buf (R203). -/
theorem test_cipherKey_other_table :
    field State.errcode (exec (.cipherKey 0x02 .enc .slot0) (withArgs (args2 4080 0) State.reset)) = some .badAlg ∧
    field State.errcode (exec (.cipherKey 0x02 .enc .slot0) (withArgs (args2 4080 0) twoCiphers)) = some .ok ∧
    field State.errcode (exec (.cipherKey 0x02 .enc .slot0) (withArgs (args2 4081 0) twoCiphers)) = some .badRange := by
  decide +kernel

theorem test_cipherBlock_notKeyed :
    field State.errcode (exec (.cipherBlock .slot0) (withArgs (args2 0x40 0x60) State.reset)) = some .notKeyed := by
  decide +kernel
theorem test_cipherBlock_badRange :
    field State.errcode (exec (.cipherBlock .slot0) (withArgs (args2 4081 0) bound)) = some .badRange := by decide +kernel

theorem test_xtsInit_mismatch : field State.errcode (exec .xtsInit State.reset) = some .xtsMismatch := by decide +kernel
theorem test_xtsInit : field ctxStatusWord (exec .xtsInit { bound with xtsBound := false }) = some 0x00000150 := by
  decide +kernel

/-- The two mismatches that only another cipher table can show (R223): different algorithms, and 8-byte blocks. -/
theorem test_xtsInit_other_table :
    let k := { zeroSlot .enc with alg := 0x02 }
    field State.errcode (exec .xtsInit { twoCiphers with slot0 := zeroSlot .enc, slot1 := k }) = some .xtsMismatch ∧
    field State.errcode (exec .xtsInit { twoCiphers with slot0 := k, slot1 := k }) = some .xtsMismatch ∧
    field State.errcode (exec .xtsInit { twoCiphers with slot0 := zeroSlot .enc, slot1 := zeroSlot .dec }) = some .ok := by
  decide +kernel

theorem test_xtsProcess_empty :
    field (fun t => (t.errcode, t.result0, t.result1, t.result2))
      (exec .xtsProcess (withArgs (xtsArgs 0x400 0 0x12345678 0x9abcdef0 7) bound)) =
      some (.ok, 0x12345678, 0x9abcdef0, 7) := by decide +kernel
/-- The errors of 2.7, in their order: the first check that fails names the code. -/
theorem test_xtsProcess_errors :
    field State.errcode (exec .xtsProcess (withArgs (xtsArgs 0 7 0 0 40) State.reset)) = some .xtsNotReady ∧
    field State.errcode (exec .xtsProcess (withArgs (xtsArgs 5000 7 0 0 40) bound)) = some .badArg ∧
    field State.errcode (exec .xtsProcess (withArgs (xtsArgs 5000 7 0 0 1) bound)) = some .badLength ∧
    field State.errcode (exec .xtsProcess (withArgs (xtsArgs 4090 16 0 0 0) bound)) = some .badRange := by decide +kernel

theorem test_erase : field ctxStatusWord (exec (.erase 0x4) { bound with mctx := jefe.mctx }) = some 0x00000002 ∧
    field ctxStatusWord (exec (.erase 0x2) { State.reset with mctx := jefe.mctx }) = some 0x00000000 := by decide +kernel

theorem test_eraseBuf :
    field (fun t => t.buf.read 3998 4)
      (exec .eraseBuf (withArgs (args2 4000 96) { State.reset with buf := Memory.write [] 3998 (bytes [1, 2, 3, 4]) })) =
      some (bytes [1, 2, 0, 0]) := by decide +kernel
theorem test_eraseBuf_badRange : field statusWord (step (flight 0x00000031 (args2 4000 97) State.reset)) = some 0x00000906 := by
  decide +kernel

/-! ### The host's side (95_test_vectors.md 2.9) -/

theorem test_reset_reads :
    hostReadValue State.reset 0x014 = 0 ∧ hostReadValue State.reset 0x05C = 0 ∧ hostReadValue State.reset 0x0FFC = 0 ∧
    hostReadValue State.reset 0x2000 = 0 ∧ hostReadValue State.reset 0x0058 = 0x00001000 := by decide +kernel

/-- The two ends of R7's legal sizes: BUF_SIZE, the last word of the window and the reserved word after it (R35, R62, R36). -/
theorem test_bufSize_window :
    (let s := { sized .b1024 with buf := [(1023, 0xAA)] }
     hostReadValue s 0x058 = 0x00000400 ∧ hostReadValue s 0x13FF = 0xAA000000 ∧ hostReadValue s 0x1400 = 0) ∧
    (let s := { sized .b32768 with buf := [(32767, 0xAA)] }
     hostReadValue s 0x058 = 0x00008000 ∧ hostReadValue s 0x8FFC = 0xAA000000 ∧ hostReadValue s 0x9000 = 0) := by
  decide +kernel

/-- The same command is out of range in one buffer and in range in a larger one (R7, R99). -/
theorem test_bufSize_range :
    field State.errcode (exec .eraseBuf (withArgs (args2 1024 1) (sized .b1024))) = some .badRange ∧
    field State.errcode (exec .eraseBuf (withArgs (args2 1024 1) (sized .b2048))) = some .ok := by decide +kernel

/-- While BUSY a register read returns what the register holds and sets no flag (R65, R71). -/
theorem test_busy_register_read :
    let s := { flight 0x00000018 (args2 0 0) bound with result0 := 7, crc := 0, overrun := true }
    (hostReadValue s 0x040 = 7 ∧ hostReadValue s 0x050 = 0xFFFFFFFF ∧ hostReadValue s 0x054 = 0x00000150) ∧
    field (fun t => (t.overrun, t.lockerr, t.rdata)) (after 1 [.hostRead 0x040] s) = some (true, false, 7) := by
  decide +kernel

/-- The engine's turn while IDLE does not run the latched command again (R28, R274). -/
theorem test_idle_turn :
    field (fun t => (t.crc, t.done)) (after 1 [.engine] { State.reset with latchWord := 0x00000018, crc := 1 }) =
      some (1, false) := by decide +kernel

/-- The two low bits of an offset are ignored (R63): ARG7 written at 0x03F, CTRL at 0x00B, a window word at 0x1001. -/
theorem test_offset_low_bits :
    field (fun t => (t.args[7], hostReadValue t 0x03D)) (after 1 [.hostWrite 0x03F 5 0xF] State.reset) = some (5, 5) ∧
    field State.irqEn (after 1 [.hostWrite 0x00B 1 0xF] State.reset) = some true ∧
    field (fun t => t.buf.read 0 4) (after 1 [.hostWrite 0x1001 0x64636261 0xF] State.reset) = some (ascii "abcd") := by
  decide +kernel

theorem test_window_write :
    field (fun t => (t.buf.read 0 4, hostReadValue t 0x1000)) (after 1 [.hostWrite 0x1000 0x64636261 0xF] State.reset) =
      some (ascii "abcd", 0x64636261) := by decide +kernel

theorem test_arg_strobe :
    field (fun t => t.args[0]) (after 1 [.hostWrite 0x020 0xAA000000 0x8]
      { State.reset with args := State.reset.args.set 0 0x11223344 }) = some 0xAA223344 := by decide +kernel

theorem test_ctrl_partial_strobe : field State.irqEn (after 1 [.hostWrite 0x008 0x00000001 0x3] State.reset) = some false := by
  decide +kernel

/-- NOP written; while BUSY it is written again; then a window read; then it completes. -/
theorem test_busy_status :
    field statusWord (after 1 [.hostWrite 0x010 0 0xF] State.reset) = some 0x00000001 ∧
    field statusWord (after 2 [.hostWrite 0x010 0 0xF, .hostWrite 0x010 0 0xF] State.reset) = some 0x00000009 ∧
    field statusWord (after 2 [.hostWrite 0x010 0 0xF, .hostRead 0x1000] State.reset) = some 0x00000011 ∧
    field statusWord (after 2 [.hostWrite 0x010 0 0xF] State.reset) = some 0x00000002 := by decide +kernel

theorem test_busy_arg_write :
    field (fun t => (t.args[1], t.latchArg[1])) (after 2 [.hostWrite 0x010 0 0xF, .hostWrite 0x024 5 0xF] State.reset) =
      some (5, 0) := by decide +kernel

theorem test_illegal_status : field statusWord (after 2 [.hostWrite 0x010 0x00000100 0xF] State.reset) = some 0x00000106 := by
  decide +kernel

theorem test_status_clear :
    field statusWord (after 1 [.hostWrite 0x00C 0x00000004 0xF]
      { State.reset with done := true, err := true, errcode := .badRange }) = some 0x00000902 := by decide +kernel

theorem test_irq :
    field State.irq (after 3 [.hostWrite 0x008 1 0xF, .hostWrite 0x010 0 0xF] State.reset) = some true ∧
    field State.irq (after 4 [.hostWrite 0x008 1 0xF, .hostWrite 0x010 0 0xF, .engine, .hostWrite 0x00C 2 0xF] State.reset) =
      some false := by decide +kernel

/-- A soft reset while PBKDF2 runs: STATUS during it and after it, and no byte of the output. -/
theorem test_soft_reset :
    field (fun t => (hostReadValue t 0x00C, hostReadValue t 0x000)) (after 1 [.hostWrite 0x008 2 0xF]
      (flight 0x00010010 (passwordArgs 5 4 32) passwordState)) = some (0x00000021, 0) ∧
    field (fun t => (hostReadValue t 0x00C, hostReadValue t 0x000, t.buf)) (after 2 [.hostWrite 0x008 2 0xF]
      (flight 0x00010010 (passwordArgs 5 4 32) passwordState)) = some (0, 0x50424B32, []) := by decide +kernel

/-- LOAD (R104): the touched words, little-endian, exactly the loaded bytes strobed. -/
theorem test_load :
    load 0x010 (bytes [0x12, 0x34, 0x56, 0x78]) = [.hostWrite 0x1010 0x78563412 0xF] ∧
    load 0x003 (bytes [0xAA, 0xBB]) = [.hostWrite 0x1000 0xAA000000 0x8, .hostWrite 0x1004 0x000000BB 0x1] ∧
    load 0x003 [] = [] := by decide +kernel

/-- The bus writes of `CRC_UPDATE 0x010, 9` (R103). -/
theorem test_issue : issue .crcUpdate [0x10, 9] =
    [.hostWrite 0x020 0x10 0xF, .hostWrite 0x024 9 0xF, .hostWrite 0x010 0x00000019 0xF] := by decide +kernel

/-! ### Witnesses: for each obligation with hypotheses, a state and operands that meet them; one for each clause -/

/-- Two states that a host cannot tell apart, with different hash states. -/
def secretA : State := { hashing with slot0 := zeroSlot .enc }
def secretB : State :=
  { hashing with hctx := { HashCtx.fresh with chain := Chain.zero }, slot0 := { zeroSlot .enc with key := Vector.replicate 32 1 } }

/-- For every opcode a word whose fixed bits fit and one with the same OP whose fixed bits do not: the hypotheses of
`encodedBy` in the statements of the commands. -/
theorem witness_encodedBy :
    ∀ r ∈ opcodeTable, r.value &&& r.mask = r.value ∧
      (r.value ||| 0x01000000) &&& 0xFF = r.value &&& 0xFF ∧ (r.value ||| 0x01000000) &&& r.mask ≠ r.value := by decide

theorem witness_EncodeUndoesDecode : decode 0x00011120 = .ok (.cipherKey 0x01 .dec .slot1) := by decide

theorem witness_DecodingIsByTheOneFittingRow :
    (opcodeTable.filter fun r => (0x00000A30 : Word) &&& r.mask == r.value).length = 1 ∧
    (opcodeTable.filter fun r => (0x00000004 : Word) &&& r.mask == r.value).length = 0 := by decide

theorem witness_StepRunsTheDecodedCommand :
    let s := flight 0x00000018 (args2 0 0) State.reset
    let s' := { s with pending := [.engine, .rstLow] }
    s.phase = .busy ∧ decode s.latchWord = .ok .crcInit ∧ s.pending = [] ∧
    s'.phase = .busy ∧ decode s'.latchWord = .ok .crcInit ∧ s'.pending = [.engine, .rstLow] ∧
    State.reset.phase = .idle ∧ State.reset.pending = [] ∧
    ({ State.reset with pending := [.engine, .rstLow] } : State).pending = .engine :: [.rstLow] := by decide

theorem witness_StepKeepsTheInvariant : State.reset.Inv ∧ step State.reset = .next State.reset :=
  ⟨by constructor <;> decide, rfl⟩

theorem witness_AcceptedCommandCompletes :
    let s := { flight 0x00010010 (passwordArgs 5 4 32) passwordState with
      pending := [.hostRead 0x00C, .hostWrite 0x1000 1 0xF, .hostWrite 0x008 0x00000001 0xF] }
    s.phase = .busy ∧ ∀ e ∈ s.pending, e.isHost = true ∧ e.isSoftReset = false := by decide

theorem witness_CompletionStep :
    let s := flight 0x00000004 (args2 0 0) State.reset
    let s' := { s with pending := [.engine, .rstLow] }
    s.phase = .busy ∧ s.pending = [] ∧ decode s.latchWord = .error .unassignedOp ∧
    s'.phase = .busy ∧ s'.pending = .engine :: [.rstLow] ∧ decode s'.latchWord = .error .unassignedOp := by decide

theorem witness_CommandsLeaveHostRegistersAlone :
    exec .crcInit State.reset = .next (finished .ok { State.reset with crc := 0xFFFFFFFF }) ∧ Instr.crcInit ≠ .xtsProcess :=
  ⟨rfl, by decide⟩

/-- NOP meets the hypotheses of all five clauses. -/
theorem witness_CommandsChangeOnlyTheirContexts :
    exec .nop State.reset = .next (finished .ok State.reset) ∧ (∀ alg, Instr.nop ≠ .hashReset alg) ∧
    (∀ alg, Instr.nop ≠ .hmacInit alg) ∧ Instr.nop ≠ .crcInit ∧ (∀ alg mode n, Instr.nop ≠ .cipherKey alg mode n) ∧
    Instr.nop ≠ .xtsInit ∧ ∀ m, Instr.nop ≠ .erase m :=
  ⟨rfl, by simp, by simp, by simp, by simp, by simp, by simp⟩

/-- The byte after the last one that ERASE_BUF stores to. -/
theorem witness_CommandsStoreOnlyInTheirRange :
    let s := withArgs (args2 4000 95) State.reset
    s.buf.wf = true ∧ (∃ t, exec .eraseBuf s = .next t) ∧
    ¬ ((storedRange .eraseBuf s).1 ≤ 4095 ∧ 4095 < (storedRange .eraseBuf s).1 + (storedRange .eraseBuf s).2) :=
  ⟨by decide, ⟨_, rfl⟩, by decide⟩

theorem witness_CommandsReadNoFlagAndNoArgRegister : exec .nop State.reset = .next (finished .ok State.reset) := rfl

/-- The legal sizes of BUF_BYTES (R7), smallest and largest. -/
theorem witness_OperandPredicatesAreExact :
    Config.BufSize.b1024.bytes = 2 ^ 10 ∧ Config.BufSize.b32768.bytes = 2 ^ 15 := by decide

theorem witness_HashResetStartsAFreshHash : (0x00 : Byte) ≠ 0x01 := by decide

theorem witness_HashUpdateAbsorbs :
    State.reset.hctx.active = false ∧
    (let s := withArgs (args2 4096 1) hashing
     s.hctx.active = true ∧ arg s 0 + arg s 1 > s.config.bufSize.bytes) ∧
    (let s := withArgs (args2 4096 0) hashing
     s.hctx.active = true ∧ arg s 0 + arg s 1 ≤ s.config.bufSize.bytes ∧ arg s 1 = 0 ∧ s.hctx.wf = true) := by decide

theorem witness_HashFinalWritesTheDigest :
    State.reset.hctx.active = false ∧
    (let s := withArgs (args2 4077 0) hashing
     s.hctx.active = true ∧ arg s 0 + 20 > s.config.bufSize.bytes) ∧
    (let s := withArgs (args2 4076 0) hashing
     s.hctx.active = true ∧ arg s 0 + 20 ≤ s.config.bufSize.bytes) := by decide

theorem witness_HmacInitKeysTheContext :
    (0x02 : Byte) ≠ 0x01 ∧
    (let s := withArgs (args2 4090 7) State.reset
     arg s 0 + arg s 1 > s.config.bufSize.bytes) ∧
    (let s := withArgs (args2 4090 6) State.reset
     arg s 0 + arg s 1 ≤ s.config.bufSize.bytes) := by decide

theorem witness_HmacResetReprimes : State.reset.mctx.keyed = false ∧ jefe.mctx.keyed = true := by decide +kernel

theorem witness_HmacUpdateAbsorbs :
    State.reset.mctx.keyed = false ∧
    (let s := withArgs (args2 4096 1) jefe
     s.mctx.keyed = true ∧ arg s 0 + arg s 1 > s.config.bufSize.bytes) ∧
    (let s := withArgs (args2 4096 0) jefe
     s.mctx.keyed = true ∧ arg s 0 + arg s 1 ≤ s.config.bufSize.bytes ∧ arg s 1 = 0 ∧ s.mctx.wf = true) := by decide +kernel

theorem witness_HmacFinalWritesTheMac :
    State.reset.mctx.keyed = false ∧
    (let s := withArgs (args2 4077 0) jefe
     s.mctx.keyed = true ∧ arg s 0 + 20 > s.config.bufSize.bytes) ∧
    (let s := withArgs (args2 4076 0) jefe
     s.mctx.keyed = true ∧ arg s 0 + 20 ≤ s.config.bufSize.bytes) := by decide +kernel

/-- One iteration, and the derived key filling Buf from the salt's end to its own end. -/
theorem witness_Pbkdf2WritesTheDerivedKey :
    let s := withArgs (passwordArgs 1 4076 20) passwordState
    arg s 4 ≥ 1 ∧ arg s 5 ≥ 1 ∧ arg s 0 + arg s 1 ≤ s.config.bufSize.bytes ∧ arg s 2 + arg s 3 ≤ s.config.bufSize.bytes ∧
    arg s 6 + arg s 5 ≤ s.config.bufSize.bytes ∧ overlaps (arg s 6) (arg s 5) (arg s 0) (arg s 1) = false ∧
    overlaps (arg s 6) (arg s 5) (arg s 2) (arg s 3) = false := by decide

theorem witness_Pbkdf2ErrorsInOrder :
    (0x00 : Byte) ≠ 0x01 ∧
    (let s := withArgs (passwordArgs 0 4 5000) passwordState
     arg s 4 = 0 ∨ arg s 5 = 0) ∧
    (let s := withArgs (passwordArgs 5 4 4093) passwordState
     arg s 4 ≠ 0 ∧ arg s 5 ≠ 0 ∧ arg s 6 + arg s 5 > s.config.bufSize.bytes) ∧
    (let s := withArgs (passwordArgs 5 4 19) passwordState
     arg s 4 ≠ 0 ∧ arg s 5 ≠ 0 ∧ arg s 0 + arg s 1 ≤ s.config.bufSize.bytes ∧ arg s 2 + arg s 3 ≤ s.config.bufSize.bytes ∧
       arg s 6 + arg s 5 ≤ s.config.bufSize.bytes ∧ overlaps (arg s 6) (arg s 5) (arg s 2) (arg s 3) = true) := by decide

theorem witness_Pbkdf2KeysArePrefixes : 4 ≤ 48 := by decide

theorem witness_CrcCommandsCompute :
    (let s := withArgs (args2 1 4096) State.reset
     arg s 0 + arg s 1 > s.config.bufSize.bytes) ∧
    (let s := withArgs (args2 4096 0) State.reset
     arg s 0 + arg s 1 ≤ s.config.bufSize.bytes ∧ arg s 1 = 0) := by decide

theorem witness_CipherKeyLoadsASlot :
    (∀ row ∈ State.reset.config.ciphers, row.alg ≠ 0x02) ∧
    (twoCiphers.config.ciphers.find? (fun x => x.alg == 0x02) = some ⟨0x02, 8, 16, .other 0⟩ ∧
      arg (withArgs (args2 4081 0) twoCiphers) 0 + 16 > twoCiphers.config.bufSize.bytes ∧
      arg (withArgs (args2 4080 0) twoCiphers) 0 + 16 ≤ twoCiphers.config.bufSize.bytes) ∧
    State.reset.config.ciphers = Config.hardware.ciphers ∧
    (0x02 : Byte) ≠ 0x01 ∧ arg (withArgs (args2 4065 0) State.reset) 0 + 32 > State.reset.config.bufSize.bytes ∧
    arg (withArgs (args2 4064 0) State.reset) 0 + 32 ≤ State.reset.config.bufSize.bytes := by decide

theorem witness_CipherBlockRunsOneBlock :
    (State.reset.slot .slot1).loaded = false ∧
    (let s := withArgs (args2 4081 0) bound
     (s.slot .slot0).loaded = true ∧ arg s 0 + 16 > s.config.bufSize.bytes) ∧
    (let s := withArgs (args2 4080 4072) bound
     (s.slot .slot0).loaded = true ∧ arg s 0 + 16 ≤ s.config.bufSize.bytes ∧ arg s 1 + 16 ≤ s.config.bufSize.bytes ∧
       (s.slot .slot0).mode = .enc) ∧
    (let s := withArgs (args2 0 4080) { bound with slot1 := zeroSlot .dec }
     (s.slot .slot1).loaded = true ∧ arg s 0 + 16 ≤ s.config.bufSize.bytes ∧ arg s 1 + 16 ≤ s.config.bufSize.bytes ∧
       (s.slot .slot1).mode = .dec) ∧
    bound.config.ciphers.find? (fun x => x.alg == (bound.slot .slot0).alg) = some Config.aes256Row ∧
    bound.config.ciphers = Config.hardware.ciphers := by decide

/-- The clauses about a mismatch of loaded slots need another cipher table than this hardware's (R223). -/
theorem witness_XtsInitBindsTwoLoadedSlots :
    (State.reset.slot0.loaded = false) ∧
    (let s := { twoCiphers with slot0 := zeroSlot .enc, slot1 := { zeroSlot .enc with alg := 0x02 } }
     s.slot0.alg ≠ s.slot1.alg ∧ cipherBlockSize s.config.ciphers s.slot1.alg ≠ 16 ∧
       s.slot0.wf s.config.ciphers = true ∧ s.slot1.wf s.config.ciphers = true ∧
       s.config.ciphers.find? (fun x => x.alg == 0x02) = some ⟨0x02, 8, 16, .other 0⟩) ∧
    (bound.config.ciphers = Config.hardware.ciphers ∧ bound.slot0.wf bound.config.ciphers = true ∧
      bound.slot1.wf bound.config.ciphers = true ∧ bound.slot0.loaded = true ∧ bound.slot1.loaded = true ∧
      bound.slot0.alg = bound.slot1.alg ∧ cipherBlockSize bound.config.ciphers bound.slot0.alg = 16) := by decide

theorem witness_XtsProcessErrorsInOrder :
    State.reset.xtsBound = false ∧
    (let s := withArgs (xtsArgs 5000 7 0 0 32) bound
     s.xtsBound = true ∧ arg s 4 > 31) ∧
    (let s := withArgs (xtsArgs 5000 7 0 0 31) bound
     s.xtsBound = true ∧ arg s 4 ≤ 31 ∧ arg s 1 % 16 ≠ 0) ∧
    (let s := withArgs (xtsArgs 4090 16 0 0 0) bound
     s.xtsBound = true ∧ arg s 4 ≤ 31 ∧ arg s 1 % 16 = 0 ∧ arg s 0 + arg s 1 > s.config.bufSize.bytes) := by decide

/-- Two sub-blocks across a unit boundary, at the end of Buf. -/
theorem witness_XtsProcessTransformsEachSubBlock :
    let s := withArgs (xtsArgs 4064 32 0xFFFFFFFF 0xFFFFFFFF 31) bound
    s.buf.wf = true ∧ s.xtsBound = true ∧ arg s 4 ≤ 31 ∧ arg s 1 % 16 = 0 ∧ arg s 0 + arg s 1 ≤ s.config.bufSize.bytes ∧
    1 < arg s 1 / 16 ∧ s.config.ciphers = Config.hardware.ciphers := by decide

theorem witness_EraseBufZeroFills :
    arg (withArgs (args2 4000 97) State.reset) 0 + arg (withArgs (args2 4000 97) State.reset) 1 > State.reset.config.bufSize.bytes ∧
    (let s := withArgs (args2 4000 96) passwordState
     arg s 0 + arg s 1 ≤ s.config.bufSize.bytes ∧ s.buf.wf = true) := by decide

theorem witness_HashOfAnySplitIsTheDigest :
    State.reset.buf.wf = true ∧ (∀ c ∈ [ascii "a", [], ascii "bc"], c.length ≤ State.reset.config.bufSize.bytes) ∧
    4076 + 20 ≤ State.reset.config.bufSize.bytes := by decide

theorem witness_HmacOfAnySplitIsTheMac :
    State.reset.buf.wf = true ∧ (ascii "Jefe").length ≤ State.reset.config.bufSize.bytes ∧
    (∀ c ∈ [ascii "what do ya ", ascii "want for nothing?"], c.length ≤ State.reset.config.bufSize.bytes) ∧ 0 + 20 ≤ State.reset.config.bufSize.bytes := by decide

theorem witness_CrcOfAnySplitIsTheChecksum :
    State.reset.buf.wf = true ∧ ∀ c ∈ [ascii "1234", ascii "56789"], c.length ≤ State.reset.config.bufSize.bytes := by decide

theorem witness_CipherBlockDecryptsWhatItEncrypted :
    let s := withArgs (args2 4080 4072) bound
    s.buf.wf = true ∧ (s.slot .slot0).loaded = true ∧ (s.slot .slot0).mode = .enc ∧
    cipherCore s.config.ciphers (s.slot .slot0).alg = .aes256 ∧ arg s 0 + 16 ≤ s.config.bufSize.bytes ∧
    arg s 1 + 16 ≤ s.config.bufSize.bytes ∧ 0 + 16 ≤ s.config.bufSize.bytes := by decide

/-- Both clauses of the doubler: bit 127 clear and set. -/
theorem witness_DoublerShiftsAndReduces :
    littleEndian (toVec 16 (bytes [1])).toList < 2 ^ 127 ∧ 2 ^ 127 ≤ littleEndian (toVec 16 (zeros 15 ++ [0x80])).toList := by
  decide +kernel

theorem witness_XtsCallsCompose :
    bound.xtsBound = true ∧ bound.result2.toNat ≤ 31 ∧ 0x400 + 16 * [6, 0, 26].sum ≤ bound.config.bufSize.bytes := by decide

theorem witness_XtsDecryptsWhatItEncrypted :
    let s := withArgs (xtsArgs 0x400 512 0xff 0 0) bound
    s.buf.wf = true ∧ s.xtsBound = true ∧ s.slot0.mode = .enc ∧
    cipherCore s.config.ciphers s.slot0.alg = .aes256 ∧ arg s 4 ≤ 31 ∧ arg s 1 % 16 = 0 ∧
    arg s 0 + arg s 1 ≤ s.config.bufSize.bytes := by decide

theorem witness_RekeyingUnbindsXts :
    bound.config.ciphers.find? (fun x => x.alg == 0x01) = some Config.aes256Row ∧
    arg (withArgs (args2 4064 0) bound) 0 + Config.aes256Row.keyBytes.val ≤ bound.config.bufSize.bytes := by decide

theorem witness_CmdWriteIsAcceptedOnlyWhenIdle :
    (0x013 : BitVec 16) &&& 0xFFFC = 0x010 ∧
    (let s := { State.reset with pending := [.hostWrite 0x013 0x00000018 0xF] }
     s.pending = .hostWrite 0x013 0x00000018 0xF :: [] ∧ s.phase = .idle) ∧
    (let s := { flight 0 (args2 0 0) State.reset with pending := [.hostWrite 0x010 0x00000018 0xF] }
     s.pending = .hostWrite 0x010 0x00000018 0xF :: [] ∧ s.phase = .busy) := by decide

theorem witness_IssuedCommandIsAcceptedWithItsOperands :
    let ops : List Word := [0, 8, 16, 4, 5, 4, 32]
    let s := { passwordState with pending := issue (.pbkdf2 0x01) ops ++ [Event.hostRead 0x00C] }
    s.phase = .idle ∧ ops.length = operandCount (.pbkdf2 0x01) ∧
    s.pending = issue (.pbkdf2 0x01) ops ++ [Event.hostRead 0x00C] := by decide

theorem witness_ArgWriteReplacesStrobedBytes :
    let s := { flight 0 (args2 0 0) State.reset with pending := [.hostWrite 0x03F 0xAA000000 0x8] }
    s.phase ≠ .resetting ∧ (0x03F : BitVec 16) &&& 0xFFFC = BitVec.ofNat 16 (0x020 + 4 * (7 : Fin 8).val) ∧
    s.pending = .hostWrite 0x03F 0xAA000000 0x8 :: [] := by decide

theorem witness_IgnoredRegisterWritesChangeNothing :
    ((0x010 : BitVec 16).toNat < 0x1000 ∧
      ¬ (0x020 ≤ (0x010 : BitVec 16).toNat ∧ (0x010 : BitVec 16).toNat < 0x040) ∧ (0x7 : BitVec 4) ≠ 0xF) ∧
    (0x007 : BitVec 16).toNat < 0x008 ∧ 0x014 ≤ (0x014 : BitVec 16).toNat ∧ 0x040 ≤ (0x040 : BitVec 16).toNat ∧
    0x1000 + State.reset.config.bufSize.bytes ≤ (0x2000 : BitVec 16).toNat := by decide

/-- An offset with its low bits set for each clause, and the ends of the reserved ranges. -/
theorem witness_RegisterMapReads :
    let s := { State.reset with pending := [.hostRead 0x053] }
    let b := { flight 0 (args2 0 0) State.reset with pending := [.hostRead 0x053] }
    s.phase ≠ .resetting ∧ s.phase = .idle ∧ s.pending = .hostRead 0x053 :: [] ∧
    b.phase ≠ .resetting ∧ b.phase = .busy ∧ b.pending = .hostRead 0x053 :: [] ∧ (0x053 : BitVec 16).toNat < 0x1000 ∧
    ([0x000, 0x004, 0x008, 0x00C, 0x010, 0x018, 0x01C, 0x040, 0x044, 0x048, 0x050, 0x054, 0x058].all
      fun r : BitVec 16 => (r + 3) &&& 0xFFFC == r) = true ∧
    (0x03F : BitVec 16) &&& 0xFFFC = BitVec.ofNat 16 (0x020 + 4 * (7 : Fin 8).val) ∧
    4 * 1023 + 3 < s.config.bufSize.bytes ∧ (0x1FFF : BitVec 16) &&& 0xFFFC = BitVec.ofNat 16 (0x1000 + 4 * 1023) ∧
    0x014 ≤ (0x014 : BitVec 16).toNat ∧ (0x04F : BitVec 16).toNat < 0x050 ∧ (0x0FFC : BitVec 16).toNat < 0x1000 ∧
    0x1000 + s.config.bufSize.bytes ≤ (0x2000 : BitVec 16).toNat := by decide +kernel

theorem witness_StatusWordsShowTheFields :
    State.reset.phase ≠ .resetting ∧ (flight 0 (args2 0 0) State.reset).phase ≠ .resetting ∧
    (0x00F : BitVec 16) &&& 0xFFFC = 0x00C ∧ (0x057 : BitVec 16) &&& 0xFFFC = 0x054 := by decide

theorem witness_StatusWriteOneClears :
    let s := { flight 0 (args2 0 0) State.reset with overrun := true, pending := [.hostWrite 0x00E 0x0000001E 0xF] }
    s.phase ≠ .resetting ∧ (0x00E : BitVec 16) &&& 0xFFFC = 0x00C ∧
    s.pending = .hostWrite 0x00E 0x0000001E 0xF :: [] := by decide

theorem witness_WindowWriteChangesStrobedBytes :
    let s := { passwordState with pending := [.hostWrite 0x1FFF 0x000000FF 0x1] }
    s.buf.wf = true ∧ s.phase = .idle ∧ 4 * 1023 + 3 < s.config.bufSize.bytes ∧
    (0x1FFF : BitVec 16) &&& 0xFFFC = BitVec.ofNat 16 (0x1000 + 4 * 1023) ∧
    s.pending = .hostWrite 0x1FFF 0x000000FF 0x1 :: [] := by decide

theorem witness_WindowIsLockedWhileBusy :
    let s := flight 0 (args2 0 0) State.reset
    s.phase = .busy ∧ (resetStarted s).phase = .resetting ∧ 0x1000 ≤ (0x1000 : BitVec 16).toNat ∧ (0x1FFF : BitVec 16).toNat < 0x1000 + s.config.bufSize.bytes ∧
    ({ s with pending := [.hostWrite 0x1FFF 1 0x0] } : State).pending = .hostWrite 0x1FFF 1 0x0 :: [] ∧
    ({ s with pending := [.hostRead 0x1000] } : State).pending = .hostRead 0x1000 :: [] := by decide

theorem witness_NothingWorksWhileResetting :
    let s := resetStarted passwordState
    s.phase = .resetting ∧ ({ s with pending := [Event.hostRead 0x00C] } : State).pending = .hostRead 0x00C :: [] ∧
    ({ s with pending := [Event.hostWrite 0x008 1 0xF] } : State).pending = .hostWrite 0x008 1 0xF :: [] ∧ s.Inv :=
  ⟨rfl, rfl, rfl, by constructor <;> decide⟩

theorem witness_SoftResetLeavesNothing :
    let s := { flight 0x00010010 (passwordArgs 5 4 32) passwordState with
      pending := [.hostWrite 0x009 0x00000003 0xF, .engine] }
    s.phase ≠ .resetting ∧ s.rstN = true ∧ (0x00000003 : Word).getLsbD 1 = true ∧ (0x009 : BitVec 16) &&& 0xFFFC = 0x008 ∧
    (0x00F : BitVec 16) &&& 0xFFFC = 0x00C ∧ s.pending = .hostWrite 0x009 0x00000003 0xF :: .engine :: [] := by decide

theorem witness_HardwareResetWaitsForThePin :
    { passwordState with pending := [.rstLow, .engine, .rstHigh, .engine] }.pending =
      .rstLow :: .engine :: .rstHigh :: .engine :: [] ∧
    (let s := resetStarted passwordState
     s.phase = .resetting ∧ s.pending = [] ∧ s.rstN = true) ∧
    (let s := rstFell passwordState
     s.phase = .resetting ∧ s.pending = [] ∧ s.rstN = false) ∧
    (let s := { resetStarted passwordState with pending := [.engine, .hostRead 0x00C] }
     s.phase = .resetting ∧ s.pending = .engine :: [.hostRead 0x00C] ∧ s.rstN = true) := by decide

theorem witness_InterruptFollowsEnableAndDone :
    (let s := { flight 0 (args2 0 0) State.reset with pending := [.hostWrite 0x00B 0x00000001 0xF] }
     s.phase ≠ .resetting ∧ (0x00000001 : Word).getLsbD 1 = false ∧ (0x00B : BitVec 16) &&& 0xFFFC = 0x008 ∧
     s.pending = .hostWrite 0x00B 0x00000001 0xF :: []) ∧
    (flight 0 (args2 0 0) State.reset).phase = .busy ∧ (flight 0 (args2 0 0) State.reset).pending = [] ∧
    ({ flight 0 (args2 0 0) State.reset with pending := [.engine, .rstLow] } : State).pending = .engine :: [.rstLow] := by
  decide

/-- Two states with different chaining values and different keys. -/
theorem witness_ReadsRevealNoSecret : secretA.SameToHost secretB ∧ secretA ≠ secretB :=
  ⟨by constructor <;> rfl, by decide⟩

theorem witness_HostCannotDisturbTheCommandInFlight :
    (flight 0x00010010 (passwordArgs 5 4 32) passwordState).phase = .busy ∧
    (Event.hostWrite 0x1020 1 0xF).isHost = true ∧ (Event.hostWrite 0x1020 1 0xF).isSoftReset = false := by decide

end Sys2Proof.Tests
end

section
/-! PROOFS. The statements of 00_scope.md: the step answers, the reset state is sound, the operand predicates are exact, and
CIPHER_BLOCK decrypts what it encrypted; the laws they need stand first. -/

namespace Sys2Proof.Machine

open Sys2Proof.Claims

/-! ### Latched arguments set by a statement -/

@[simp] theorem withArgs_config (a : Vector Word 8) (s : State) : (withArgs a s).config = s.config := rfl
@[simp] theorem withArgs_buf (a : Vector Word 8) (s : State) : (withArgs a s).buf = s.buf := rfl
@[simp] theorem withArgs_slot (a : Vector Word 8) (s : State) (n : SlotId) : (withArgs a s).slot n = s.slot n := by
  cases n <;> rfl

theorem arg_zero_args2 {a₀ : Nat} (a₁ : Nat) (s : State) (h : a₀ < 2 ^ 32) : arg (withArgs (args2 a₀ a₁) s) 0 = a₀ :=
  Nat.mod_eq_of_lt h

theorem arg_one_args2 (a₀ : Nat) {a₁ : Nat} (s : State) (h : a₁ < 2 ^ 32) : arg (withArgs (args2 a₀ a₁) s) 1 = a₁ :=
  Nat.mod_eq_of_lt h

/-- Every address that a range of Buf starts at fits in an argument register (R7, R31). -/
theorem lt_word_of_le_bufSize {b : Config.BufSize} {a n : Nat} (h : a + n ≤ b.bytes) : a < 2 ^ 32 := by
  have hb := bufSize_bounds b
  omega

@[simp] theorem memRead_withArgs (v : Vector Word 8) (s : State) (a n : Nat) :
    memRead (withArgs v s) a n = memRead s a n := rfl

/-! ### Slots under the shared operations -/

@[simp] theorem finished_slot (c : Code) (s : State) (n : SlotId) : (finished c s).slot n = s.slot n := by
  cases n <;> rfl

@[simp] theorem memWrite_slot (a : Nat) (v : List Byte) (s : State) (n : SlotId) :
    (memWrite s a v).slot n = s.slot n := by
  cases n <;> rfl

/-! ### The step -/

/-- Every step answers, and the configuration stays. -/
theorem step_answers (s : State) : Answers (step s) fun t => t.config = s.config := by
  cases hp : s.pending with
  | nil =>
    rw [step_quiet hp]
    exact engineTurn_answers s
  | cons e rest =>
    rw [step_event hp]
    exact handle_answers e { s with pending := rest }

/-! ### The reset state -/

/-- The reset state is sound in every configuration (R49). -/
theorem State.resetOf_inv (c : Config.Params) : (State.resetOf c).Inv where
  bufCanonical := rfl
  bufBounded := rfl
  hash := HashCtx.idle_wf
  hmac := HmacCtx.unkeyed_wf
  slot0 := Slot.empty_wf c.ciphers
  slot1 := Slot.empty_wf c.ciphers
  bound := by simp
  resultIndex := by simp
  idleScratch := by simp
  busyStatus := by simp
  resettingStatus := by simp
  errCode := by simp
  pin := by simp

/-! ### The operand predicates -/

theorem bufSize_bytes_eq_two_pow (b : Config.BufSize) : ∃ k, b.bytes = 2 ^ k := by
  cases b
  case b1024 => exact ⟨10, rfl⟩
  case b2048 => exact ⟨11, rfl⟩
  case b4096 => exact ⟨12, rfl⟩
  case b8192 => exact ⟨13, rfl⟩
  case b16384 => exact ⟨14, rfl⟩
  case b32768 => exact ⟨15, rfl⟩

/-- Every power of two between the least and the greatest legal size is a legal size (R7). -/
theorem exists_bufSize_of_two_pow {k : Nat} (hlo : 1024 ≤ 2 ^ k) (hhi : 2 ^ k ≤ 32768) :
    ∃ b : Config.BufSize, b.bytes = 2 ^ k := by
  have h10 : 10 ≤ k := (Nat.pow_le_pow_iff_right Nat.one_lt_two).mp hlo
  have h15 : k ≤ 15 := (Nat.pow_le_pow_iff_right Nat.one_lt_two).mp hhi
  interval_cases k
  · exact ⟨.b1024, rfl⟩
  · exact ⟨.b2048, rfl⟩
  · exact ⟨.b4096, rfl⟩
  · exact ⟨.b8192, rfl⟩
  · exact ⟨.b16384, rfl⟩
  · exact ⟨.b32768, rfl⟩

/-- The legal sizes are exactly the powers of two from 1024 to 32768 (R7). -/
theorem exists_bufSize_iff (n : Nat) :
    (∃ b : Config.BufSize, b.bytes = n) ↔ ∃ k, n = 2 ^ k ∧ 1024 ≤ n ∧ n ≤ 32768 := by
  constructor
  · rintro ⟨b, rfl⟩
    obtain ⟨k, hk⟩ := bufSize_bytes_eq_two_pow b
    exact ⟨k, hk, (bufSize_bounds b).2⟩
  · rintro ⟨k, rfl, hlo, hhi⟩
    exact exists_bufSize_of_two_pow hlo hhi

/-- `inrange` holds exactly of the ranges that lie in Buf (R99). -/
theorem inRange_iff (b : Config.BufSize) (a n : Nat) : inRange b a n = true ↔ a + n ≤ b.bytes := by
  rw [inRange_eq, decide_eq_true_iff]

/-- `overlap` holds exactly of ranges with a common address; the greater of the two first addresses is one (R100). -/
theorem overlaps_iff_exists_common (a n b m : Nat) :
    overlaps a n b m = true ↔ ∃ x, (a ≤ x ∧ x < a + n) ∧ (b ≤ x ∧ x < b + m) := by
  rw [overlaps_iff]
  constructor
  · intro h
    exact ⟨max a b, by omega, by omega⟩
  · rintro ⟨x, ha, hb⟩
    omega

/-! ### CIPHER_BLOCK -/

/-- CIPHER_BLOCK with a loaded slot and both ranges in Buf writes the slot cipher's output (R204). -/
theorem exec_cipherBlock {n : SlotId} {s : State} (hl : (s.slot n).loaded = true)
    (hsrc : arg s 0 + 16 ≤ s.config.bufSize.bytes) (hdst : arg s 1 + 16 ≤ s.config.bufSize.bytes) :
    exec (.cipherBlock n) s = .next (finished .ok
      (memWrite s (arg s 1) ((s.slot n).cipher s.config.ciphers (toVec 16 (memRead s (arg s 0) 16))).toList)) := by
  simp only [exec, execCipherBlock, hl, inRange_eq, hsrc, hdst, decide_true, Bool.and_self, Bool.not_true,
    Bool.false_eq_true, if_false, complete_eq]

/-- CIPHER_BLOCK with its two addresses given: `exec_cipherBlock` on a state with latched arguments set. -/
theorem exec_cipherBlock_args2 {n : SlotId} {s : State} {src dst : Nat} (hl : (s.slot n).loaded = true)
    (hsrc : src + 16 ≤ s.config.bufSize.bytes) (hdst : dst + 16 ≤ s.config.bufSize.bytes) :
    exec (.cipherBlock n) (withArgs (args2 src dst) s) = .next (finished .ok
      (memWrite (withArgs (args2 src dst) s) dst
        ((s.slot n).cipher s.config.ciphers (toVec 16 (memRead s src 16))).toList)) := by
  have h0 := arg_zero_args2 dst s (lt_word_of_le_bufSize hsrc)
  have h1 := arg_one_args2 src s (lt_word_of_le_bufSize hdst)
  rw [exec_cipherBlock (by rwa [withArgs_slot]) (by rwa [h0]) (by rwa [h1]), h0, h1, withArgs_slot, withArgs_config,
    memRead_withArgs]

/-- An AES-256 slot turned to DEC undoes what it does keyed ENC: what R8 assumes of the external functions. -/
theorem Slot.cipher_dec_cipher_enc {ciphers : List Config.CipherRow} {k : Slot} (hm : k.mode = .enc)
    (hc : cipherCore ciphers k.alg = .aes256) (x : Block) :
    Slot.cipher ciphers { k with mode := .dec } (k.cipher ciphers x) = x := by
  simp only [Slot.cipher, hm, hc]
  exact (Config.aes256 k.key).symm_apply_apply x

/-- The block just written at an address is what a 16-byte read there gives. -/
theorem Memory.read_write_block {m : Memory} (a : Nat) (x : Block) (h : m.wf = true) :
    (m.write a x.toList).read a 16 = x.toList := by
  have hlen : x.toList.length = 16 := Vector.length_toList
  simpa only [hlen] using Memory.read_write_same a x.toList h

end Sys2Proof.Machine

namespace Sys2Proof.Proofs

open Sys2Proof.Machine Sys2Proof.Claims

/-- Settles O6: a step is the engine's turn or the handling of the first event, and both answer. -/
theorem everyStepAnswersANextState : Obligations.EveryStepAnswersANextState :=
  step_answers

/-- Settles O8: the reset state of this hardware is that of one configuration. -/
theorem resetHasTheInvariant : Obligations.ResetHasTheInvariant :=
  ⟨State.resetOf_inv Config.hardware, State.resetOf_inv⟩

/-- Settles O16, on exact integers for each of the three predicates. -/
theorem operandPredicatesAreExact : Obligations.OperandPredicatesAreExact :=
  ⟨⟨exists_bufSize_iff, rfl⟩, fun b a n => ⟨inRange_iff b a n, inRange_iff b a 0⟩, overlaps_iff_exists_common⟩

/-- Settles O41: the second command reads back the block that the first wrote, and the slot's cipher undoes itself. -/
theorem cipherBlockDecryptsWhatItEncrypted : Obligations.CipherBlockDecryptsWhatItEncrypted := by
  intro s n dst' hwf hl hm hc hsrc hdst hdst'
  refine ⟨_, exec_cipherBlock hl hsrc hdst, _, exec_cipherBlock_args2 (by simp [hl]) (by simpa) (by simpa), ?_⟩
  set x := toVec 16 (memRead s (arg s 0) 16)
  set y := (s.slot n).cipher s.config.ciphers x
  have hx : x.toList = s.buf.read (arg s 0) 16 := toList_toVec 16 _ (Memory.read_length _ _ _)
  have hback : (s.buf.write (arg s 1) y.toList).read (arg s 1) 16 = y.toList := Memory.read_write_block _ y hwf
  have hdec : Slot.cipher s.config.ciphers { s.slot n with mode := .dec } y = x := Slot.cipher_dec_cipher_enc hm hc x
  have hout : ((s.buf.write (arg s 1) y.toList).write dst' x.toList).read dst' 16 = x.toList :=
    Memory.read_write_block dst' x (Memory.wf_write _ _ hwf)
  simpa [memRead, hback, hdec] using hout.trans hx

end Sys2Proof.Proofs
end

section
/-! PROOFS. The statements of 10_state.md: the invariant, the completion step, what commands leave alone, and what the
host writes and reads; the laws they need stand first. -/

namespace Sys2Proof.Machine

/-! ### What a command can do: it passes its checks in turn, each raising on the state before it, and then completes -/

/-- The outcome is the completion, with some code, of a state of which `P` holds. -/
def CompletesWith (P : State → Prop) (o : Host.Outcome State Fault Refusal) : Prop :=
  ∃ c u, o = .next (finished c u) ∧ P u

theorem CompletesWith.complete {P : State → Prop} {u : State} (c : Code) (h : P u) :
    CompletesWith P (complete c u) := ⟨c, u, rfl, h⟩

/-- An operand check (R13, R264): a failed one raises on the state as it was, a passed one is a fact for what follows. -/
theorem CompletesWith.check {P : State → Prop} {p : Prop} [Decidable p] {c : Code} {s : State}
    {o : Host.Outcome State Fault Refusal} (hs : P s) (ho : ¬ p → CompletesWith P o) :
    CompletesWith P (if p then raiseError c s else o) := by
  split
  · exact .complete c hs
  · exact ho ‹_›

theorem CompletesWith.of_next {P : State → Prop} {o : Host.Outcome State Fault Refusal} {t : State}
    (h : CompletesWith P o) (ht : o = .next t) : ∃ c u, t = finished c u ∧ P u := by
  obtain ⟨c, u, hu, hP⟩ := h
  cases ht.symm.trans hu
  exact ⟨c, u, rfl, hP⟩

/-! ### Commands keep the contexts sound -/

/-- The part of the invariant about what commands work on: Buf, the contexts, the slots and RESULT2. -/
structure State.ContextsSound (s : State) : Prop where
  bufCanonical : s.buf.wf = true
  bufBounded : s.buf.inBuf s.config.bufSize = true
  hash : s.hctx.wf = true
  hmac : s.mctx.wf = true
  slot0 : s.slot0.wf s.config.ciphers = true
  slot1 : s.slot1.wf s.config.ciphers = true
  bound : s.xtsBound = true →
    s.slot0.loaded = true ∧ s.slot1.loaded = true ∧ s.slot0.alg = s.slot1.alg ∧
      cipherBlockSize s.config.ciphers s.slot0.alg = 16
  resultIndex : s.result2.toNat < 32

theorem State.Inv.contexts {s : State} (h : s.Inv) : s.ContextsSound where
  bufCanonical := h.bufCanonical
  bufBounded := h.bufBounded
  hash := h.hash
  hmac := h.hmac
  slot0 := h.slot0
  slot1 := h.slot1
  bound := h.bound
  resultIndex := h.resultIndex

/-- A completion of sound contexts has the invariant: it sets the phase, the scratch and the flags itself. -/
theorem State.ContextsSound.finished_inv {u : State} (c : Code) (h : u.ContextsSound) (hpin : u.rstN = true) :
    (finished c u).Inv where
  bufCanonical := h.bufCanonical
  bufBounded := h.bufBounded
  hash := h.hash
  hmac := h.hmac
  slot0 := h.slot0
  slot1 := h.slot1
  bound := h.bound
  resultIndex := h.resultIndex
  idleScratch := by simp
  busyStatus := by simp
  resettingStatus := by simp
  errCode := by simp
  pin := by simp [hpin]

theorem HmacCtx.inner_active_of_wf {c : HmacCtx} (h : c.wf = true) (hk : c.keyed = true) :
    c.inner.active = true ∧ c.inner.wf = true := by
  simp only [HmacCtx.wf, hk, if_true, Bool.and_eq_true] at h
  exact ⟨h.1.2, h.2⟩

/-- A keyed context stays sound when its inner hash absorbs more (R155). -/
theorem HmacCtx.absorb_wf {c : HmacCtx} (d : List Byte) (hk : c.keyed = true) (h : c.wf = true) :
    HmacCtx.wf { c with inner := c.inner.absorb d } = true := by
  obtain ⟨ha, hw⟩ := HmacCtx.inner_active_of_wf h hk
  simp [HmacCtx.wf, hk, HmacCtx.k0_length_of_wf h hk, ha, HashCtx.absorb_wf d ha hw]

/-- Writing a range of Buf keeps the contexts sound. -/
theorem State.ContextsSound.memWrite {s : State} {a n : Nat} (v : List Byte) (h : s.ContextsSound)
    (hr : inRange s.config.bufSize a n = true) (hv : v.length = n) : (memWrite s a v).ContextsSound :=
  { h with
    bufCanonical := Memory.wf_write a v h.bufCanonical
    bufBounded := Memory.inBuf_write v (hv ▸ (inRange_iff _ _ _).mp hr) h.bufBounded }

theorem State.ContextsSound.setHctx {s : State} {c : HashCtx} (h : s.ContextsSound) (hc : c.wf = true) :
    State.ContextsSound { s with hctx := c } := { h with hash := hc }

theorem State.ContextsSound.setMctx {s : State} {c : HmacCtx} (h : s.ContextsSound) (hc : c.wf = true) :
    State.ContextsSound { s with mctx := c } := { h with hmac := hc }

/-- Setting a slot to a sound one, with XTS unbound, keeps the contexts sound (R203). -/
theorem State.ContextsSound.setSlot {s : State} {k : Slot} (n : SlotId) (h : s.ContextsSound)
    (hk : k.wf s.config.ciphers = true) : State.ContextsSound { s.setSlot n k with xtsBound := false } := by
  cases n
  case slot0 => exact { h with slot0 := hk, bound := nofun }
  case slot1 => exact { h with slot1 := hk, bound := nofun }

theorem State.ContextsSound.erased {s : State} (m : BitVec 4) (h : s.ContextsSound) : (erased m s).ContextsSound := by
  have hslot := Slot.empty_wf s.config.ciphers
  constructor
  case hash => rw [erased_hctx]; split <;> simp [HashCtx.idle_wf, h.hash]
  case hmac => rw [erased_mctx]; split <;> simp [HmacCtx.unkeyed_wf, h.hmac]
  case slot0 => rw [erased_slot0]; split <;> simp [hslot, h.slot0]
  case slot1 => rw [erased_slot1]; split <;> simp [hslot, h.slot1]
  case bound =>
    rw [erased_xtsBound, erased_slot0, erased_slot1, erased_config]
    cases m.getLsbD 2
    case false => exact h.bound
    case true => exact nofun
  case bufCanonical => exact h.bufCanonical
  case bufBounded => exact h.bufBounded
  case resultIndex => exact h.resultIndex

theorem exec_contextsSound (i : Instr) {s : State} (h : s.ContextsSound) :
    CompletesWith State.ContextsSound (exec i s) := by
  cases i with
  | nop => exact .complete .ok h
  | hashReset alg => exact .check h fun _ => .complete .ok (h.setHctx HashCtx.fresh_wf)
  | hashUpdate =>
    refine .check h fun ha => .check h fun _ => .complete .ok (h.setHctx ?_)
    exact HashCtx.absorb_wf _ (by simpa using ha) h.hash
  | hashFinal =>
    refine .check h fun _ => .check h fun hr => .complete .ok ?_
    exact (h.memWrite _ (by simpa using hr) (HashCtx.finish_length _)).setHctx HashCtx.idle_wf
  | hmacInit alg =>
    exact .check h fun _ => .check h fun _ => .complete .ok { h.setMctx (HmacCtx.keyedWith_wf _) with }
  | hmacReset =>
    refine .check h fun hk => .complete .ok (h.setMctx ?_)
    have hk : s.mctx.keyed = true := by simpa using hk
    exact HmacCtx.prime_wf hk (HmacCtx.k0_length_of_wf h.hmac hk)
  | hmacUpdate =>
    refine .check h fun hk => .check h fun _ => .complete .ok (h.setMctx ?_)
    exact HmacCtx.absorb_wf _ (by simpa using hk) h.hmac
  | hmacFinal =>
    refine .check h fun hk => .check h fun hr => .complete .ok ?_
    have hk : s.mctx.keyed = true := by simpa using hk
    exact (h.memWrite _ (by simpa using hr) (rmd160_length _)).setMctx
      (HmacCtx.prime_wf hk (HmacCtx.k0_length_of_wf h.hmac hk))
  | pbkdf2 alg =>
    refine .check h fun _ => .check h fun _ => .check h fun hr => .check h fun _ => .complete .ok ?_
    simp only [Bool.not_eq_true, Bool.not_eq_false', Bool.and_eq_true] at hr
    exact { h.memWrite _ hr.2 (pbkdf2_length _ _ _ _) with }
  | crcInit => exact .complete .ok { h with }
  | crcUpdate => exact .check h fun _ => .complete .ok { h with }
  | cipherKey alg mode n =>
    refine .check h fun hl => .check h fun _ => .complete .ok (h.setSlot n ?_)
    simpa [Slot.wf] using hl
  | cipherBlock n =>
    refine .check h fun _ => .check h fun hr => .complete .ok ?_
    simp only [Bool.not_eq_true, Bool.not_eq_false', Bool.and_eq_true] at hr
    exact h.memWrite _ hr.2 Vector.length_toList
  | xtsInit =>
    refine .check h fun hl => .check h fun ha => .check h fun hb => .complete .ok { h with bound := fun _ => ?_ }
    simp only [Bool.not_eq_true, Bool.not_eq_false', Bool.and_eq_true, bne_iff_ne, ne_eq, Decidable.not_not,
      Bool.or_eq_true, not_or] at hl ha hb
    exact ⟨hl.1, hl.2, ha, hb.1⟩
  | xtsProcess =>
    refine .check h fun _ => .check h fun _ => .check h fun _ => .check h fun hr => .complete .ok ?_
    have hr : arg s 0 + arg s 1 ≤ s.config.bufSize.bytes := by simpa [inRange_eq] using hr
    have hrun : arg s 0 + 16 * (arg s 1 / 16) ≤ s.config.bufSize.bytes := by omega
    exact { h with
      bufCanonical := xtsRun_wf _ _ _ _ _ _ h.bufCanonical
      bufBounded := xtsRun_inBuf _ _ _ _ _ _ _ hrun h.bufBounded
      resultIndex := by
        simp only [BitVec.toNat_ofNat]
        omega }
  | erase m => exact .complete .ok (h.erased m)
  | eraseBuf => exact .check h fun hr => .complete .ok (h.memWrite _ (by simpa using hr) (zeros_length _))

/-! ### What keeps the invariant -/

/-- The events to come are no part of the invariant. -/
theorem State.Inv.withPending {s : State} (l : List Event) (h : s.Inv) : State.Inv { s with pending := l } :=
  { h with }

theorem State.Inv.rstN_of_phase {s : State} (h : s.Inv) (hp : s.phase ≠ .resetting) : s.rstN = true := by
  by_contra hr
  exact hp (h.pin (by simpa using hr))

theorem runLatched_contextsSound {s : State} (h : s.ContextsSound) :
    CompletesWith State.ContextsSound (runLatched s) := by
  cases hd : decode s.latchWord with
  | ok i =>
    rw [runLatched_decoded hd]
    exact exec_contextsSound i h
  | error e =>
    rw [runLatched_illegal hd]
    exact .complete .illegalCmd h

theorem runLatched_rstN {s t : State} (ht : runLatched s = .next t) : t.rstN = s.rstN := by
  obtain ⟨c, u, hu, -, hside, -⟩ := runLatched_completes s
  cases ht.symm.trans hu
  exact hside.rstN

/-- The completion step of a command in flight keeps the invariant. -/
theorem State.Inv.runLatched {s t : State} (h : s.Inv) (hp : s.phase = .busy) (ht : runLatched s = .next t) : t.Inv := by
  have hpin := runLatched_rstN ht
  obtain ⟨c, u, rfl, hu⟩ := (runLatched_contextsSound h.contexts).of_next ht
  exact hu.finished_inv c (hpin.trans (h.rstN_of_phase (by simp [hp])))

/-- The start of a reset keeps the invariant (R291). -/
theorem State.Inv.resetStarted {s : State} (h : s.Inv) : (resetStarted s).Inv where
  bufCanonical := h.bufCanonical
  bufBounded := h.bufBounded
  hash := h.hash
  hmac := h.hmac
  slot0 := h.slot0
  slot1 := h.slot1
  bound := h.bound
  resultIndex := h.resultIndex
  idleScratch := by simp
  busyStatus := by simp
  resettingStatus := by simp
  errCode := by simp
  pin := by simp

/-- The end of a reset gives a sound state, whatever stood before (R293). -/
theorem resetEnded_inv {s : State} (hr : s.rstN = true) : (resetEnded s).Inv :=
  { State.resetOf_inv s.config with pin := by simp [hr] }

theorem readMark_resetting {s : State} {o : BitVec 16} (h : s.phase = .resetting) : readMark s o = s := by
  simp [readMark, h]

theorem State.Inv.hostRead {s : State} (o : BitVec 16) (h : s.Inv) : (hostRead o s).Inv := by
  rw [hostRead_eq]
  refine { h with resettingStatus := fun hp => ?_ }
  have hp : s.phase = .resetting := hp
  simpa [readMark_resetting hp] using h.resettingStatus hp

/-- The acceptance of a command keeps the invariant: the flags of the completion are clear (R261). -/
theorem State.Inv.accepted {s : State} (w : Word) (h : s.Inv) (hp : s.phase = .idle) : (accepted w s).Inv :=
  { h with
    idleScratch := by simp
    busyStatus := by simp
    resettingStatus := by simp
    errCode := by simp
    pin := by simp [h.rstN_of_phase, hp] }

/-- Clearing flags keeps the invariant (R27). -/
theorem State.Inv.clearFlags {s : State} (v : Word) (h : s.Inv) : (clearFlags v s).Inv :=
  { h with
    busyStatus := fun hp => by
      obtain ⟨hd, he, hc⟩ := h.busyStatus hp
      simp [hd, he, hc]
    resettingStatus := fun hp => by
      obtain ⟨hi, hd, he, ho, hl, hc⟩ := h.resettingStatus hp
      simp [hi, hd, he, ho, hl, hc]
    errCode := fun he => by
      simp only [clearFlags_err, Bool.and_eq_true] at he
      exact h.errCode he.1 }

theorem State.Inv.writeCtrl {s : State} (v : Word) (h : s.Inv) (hp : s.phase ≠ .resetting) : (writeCtrl v s).Inv := by
  have hen : State.Inv { s with irqEn := v.getLsbD 0 } := { h with resettingStatus := fun h' => absurd h' hp }
  unfold Machine.writeCtrl
  dsimp only
  split
  · exact hen.resetStarted
  · exact hen

theorem State.Inv.writeCmd {s : State} (w : Word) (h : s.Inv) (hp : s.phase ≠ .resetting) : (writeCmd w s).Inv := by
  unfold Machine.writeCmd
  split
  · exact h.accepted w ‹_›
  · exact { h with resettingStatus := fun h' => absurd h' hp }

/-- A write outside RESETTING keeps the invariant; a window write needs its word to lie in Buf (R60). -/
theorem State.Inv.writeTarget {s : State} (t : Target) (v : Word) (strb : BitVec 4) (h : s.Inv) (hp : s.phase ≠ .resetting)
    (hw : ∀ a, t = .window a → a + 3 < s.config.bufSize.bytes) : (writeTarget t v strb s).Inv := by
  unfold Machine.writeTarget
  cases t with
  | window a =>
    dsimp only
    split
    · exact { h with resettingStatus := fun h' => absurd h' hp }
    · exact { h with
        bufCanonical := Memory.wf_windowWrite v strb a h.bufCanonical
        bufBounded := Memory.inBuf_windowWrite v strb (hw a rfl) h.bufBounded }
  | arg i => exact { h with }
  | ctrl =>
    dsimp only
    split
    · exact h.writeCtrl v hp
    · exact h
  | status =>
    dsimp only
    split
    · exact h.clearFlags v
    · exact h
  | cmd =>
    dsimp only
    split
    · exact h.writeCmd v hp
    · exact h
  | _ => exact h

theorem State.Inv.hostWrite {s : State} (o : BitVec 16) (v : Word) (strb : BitVec 4) (h : s.Inv) :
    (hostWrite o v strb s).Inv := by
  unfold Machine.hostWrite
  split
  · exact h
  · exact h.writeTarget _ v strb ‹_› fun _ => locate_window_bound

theorem State.Inv.engineTurn {s t : State} (h : s.Inv) (ht : engineTurn s = .next t) : t.Inv := by
  cases hp : s.phase with
  | idle =>
    rw [engineTurn_idle hp] at ht
    cases ht
    exact h
  | busy => exact h.runLatched hp (engineTurn_busy hp ▸ ht)
  | resetting =>
    rw [engineTurn_resetting hp] at ht
    cases ht
    split
    · exact resetEnded_inv ‹_›
    · exact h

theorem State.Inv.handle {s t : State} (e : Event) (h : s.Inv) (ht : handle e s = .next t) : t.Inv := by
  cases e with
  | hostRead o => cases ht; exact h.hostRead o
  | hostWrite o v strb => cases ht; exact h.hostWrite o v strb
  | engine => exact h.engineTurn ht
  | rstLow => cases ht; exact { h.resetStarted with pin := fun _ => rfl }
  | rstHigh => cases ht; exact { h with pin := nofun }

theorem State.Inv.step {s t : State} (h : s.Inv) (ht : step s = .next t) : t.Inv := by
  cases hp : s.pending with
  | nil => exact h.engineTurn (step_quiet hp ▸ ht)
  | cons e rest => exact (h.withPending rest).handle e (step_event hp ▸ ht)

/-! ### The result registers -/

/-- RESULT0-RESULT2 of `u` are those of `s`. -/
def SameResults (s u : State) : Prop := u.result0 = s.result0 ∧ u.result1 = s.result1 ∧ u.result2 = s.result2

theorem SameResults.refl (s : State) : SameResults s s := ⟨rfl, rfl, rfl⟩

/-- No command but XTS_PROCESS writes RESULT0-RESULT2 (R32). -/
theorem exec_keeps_results {i : Instr} (s : State) (hi : i ≠ .xtsProcess) : CompletesWith (SameResults s) (exec i s) := by
  have h := SameResults.refl s
  cases i with
  | nop => exact .complete .ok h
  | hashReset alg => exact .check h fun _ => .complete .ok h
  | hashUpdate => exact .check h fun _ => .check h fun _ => .complete .ok h
  | hashFinal => exact .check h fun _ => .check h fun _ => .complete .ok (by simp [SameResults])
  | hmacInit alg => exact .check h fun _ => .check h fun _ => .complete .ok h
  | hmacReset => exact .check h fun _ => .complete .ok h
  | hmacUpdate => exact .check h fun _ => .check h fun _ => .complete .ok h
  | hmacFinal => exact .check h fun _ => .check h fun _ => .complete .ok (by simp [SameResults])
  | pbkdf2 alg =>
    exact .check h fun _ => .check h fun _ => .check h fun _ => .check h fun _ => .complete .ok (by simp [SameResults])
  | crcInit => exact .complete .ok h
  | crcUpdate => exact .check h fun _ => .complete .ok h
  | cipherKey alg mode n => exact .check h fun _ => .check h fun _ => .complete .ok (by simp [SameResults])
  | cipherBlock n => exact .check h fun _ => .check h fun _ => .complete .ok h
  | xtsInit => exact .check h fun _ => .check h fun _ => .check h fun _ => .complete .ok h
  | xtsProcess => exact absurd rfl hi
  | erase m => exact .complete .ok h
  | eraseBuf => exact .check h fun _ => .complete .ok h

/-! ### Two runs of a command -/

/-- Both outcomes complete, with one code, the second out of `f` of the first one's state. -/
def CompletesAlike (f : State → State) (o o' : Host.Outcome State Fault Refusal) : Prop :=
  ∃ c u, o = .next (finished c u) ∧ o' = .next (finished c (f u))

section
variable {f : State → State} {s : State} {o o' : Host.Outcome State Fault Refusal}

theorem CompletesAlike.complete {u u' : State} (c : Code) (h : u' = f u) :
    CompletesAlike f (complete c u) (complete c u') := ⟨c, u, rfl, h ▸ rfl⟩

theorem CompletesAlike.second_of_first {t : State} (h : CompletesAlike f o o') (ht : o = .next t) :
    ∃ c u, t = finished c u ∧ o' = .next (finished c (f u)) := by
  obtain ⟨c, u, hu, hu'⟩ := h
  cases ht.symm.trans hu
  exact ⟨c, u, rfl, hu'⟩

/-- The two runs make the same operand check. -/
theorem CompletesAlike.check {p : Prop} [Decidable p] {c : Code} (h : CompletesAlike f o o') :
    CompletesAlike f (if p then raiseError c s else o) (if p then raiseError c (f s) else o') := by
  split
  · exact .complete c rfl
  · exact h

end

section
variable (args : Vector Word 8) (irqEn done err overrun lockerr : Bool) (code : Code) (s : State)

/-- The state with other values of ARG0-ARG7, CTRL and STATUS. -/
def withHostFields : State :=
  { s with args := args, irqEn := irqEn, done := done, err := err, overrun := overrun, lockerr := lockerr, errcode := code }

theorem memWrite_withHostFields (a : Nat) (v : List Byte) :
    memWrite (withHostFields args irqEn done err overrun lockerr code s) a v =
      withHostFields args irqEn done err overrun lockerr code (memWrite s a v) := rfl

/-- No command reads ARG0-ARG7, CTRL or STATUS (R42, R48). -/
theorem exec_withHostFields (i : Instr) :
    let f := withHostFields args irqEn done err overrun lockerr code
    CompletesAlike f (exec i s) (exec i (f s)) := by
  intro f
  have hw := fun (u : State → State) (a : Nat) (v : List Byte) =>
    congrArg u (memWrite_withHostFields args irqEn done err overrun lockerr code s a v)
  cases i with
  | nop => exact .complete .ok rfl
  | hashReset alg => exact .check (.complete .ok rfl)
  | hashUpdate => exact .check (.check (.complete .ok rfl))
  | hashFinal => exact .check (.check (.complete .ok (hw (fun u => { u with hctx := HashCtx.idle }) _ _)))
  | hmacInit alg => exact .check (.check (.complete .ok rfl))
  | hmacReset => exact .check (.complete .ok rfl)
  | hmacUpdate => exact .check (.check (.complete .ok rfl))
  | hmacFinal => exact .check (.check (.complete .ok (hw (fun u => { u with mctx := s.mctx.prime }) _ _)))
  | pbkdf2 alg => exact .check (.check (.check (.check (.complete .ok (by unfold memWrite; rfl)))))
  | crcInit => exact .complete .ok rfl
  | crcUpdate => exact .check (.complete .ok rfl)
  | cipherKey alg mode n => exact .check (.check (.complete .ok (by cases n <;> rfl)))
  | cipherBlock n => exact .check (.check (.complete .ok rfl))
  | xtsInit => exact .check (.check (.check (.complete .ok rfl)))
  | xtsProcess =>
    have hrun := xtsRun_congr (f s) s rfl rfl rfl rfl
    exact .check (.check (.check (.check (.complete .ok (by rw [hrun]; rfl)))))
  | erase m => exact .complete .ok rfl
  | eraseBuf => exact .check (.complete .ok rfl)

end

/-- PBKDF2 writes Buf and the scratch alone, and neither is a context of the host (R171). -/
theorem exec_pbkdf2_frame (alg : Byte) (s : State) :
    CompletesWith (fun u => u.hctx = s.hctx ∧ u.mctx = s.mctx) (exec (.pbkdf2 alg) s) := by
  have h : s.hctx = s.hctx ∧ s.mctx = s.mctx := ⟨rfl, rfl⟩
  exact .check h fun _ => .check h fun _ => .check h fun _ => .check h fun _ => .complete .ok (by simp)

/-- PBKDF2 reads no context of the host (R171). -/
theorem exec_pbkdf2_withContexts (alg : Byte) (s : State) (h : HashCtx) (m : HmacCtx) :
    CompletesAlike (fun u => { u with hctx := h, mctx := m }) (exec (.pbkdf2 alg) s)
      (exec (.pbkdf2 alg) { s with hctx := h, mctx := m }) :=
  .check (.check (.check (.check (.complete .ok (by unfold memWrite; rfl)))))

/-! ### The register map -/

/-- The word offset `x` is one where `locate` puts the target (R22, R62, R78). -/
def Target.StandsAt (b : Config.BufSize) (x : Nat) : Target → Prop
  | .id => x = 0x000
  | .version => x = 0x004
  | .ctrl => x = 0x008
  | .status => x = 0x00C
  | .cmd => x = 0x010
  | .hashInfo => x = 0x018
  | .cipherInfo => x = 0x01C
  | .arg i => x = 0x020 + 4 * i.val
  | .result0 => x = 0x040
  | .result1 => x = 0x044
  | .result2 => x = 0x048
  | .crcValue => x = 0x050
  | .ctxStatus => x = 0x054
  | .bufSize => x = 0x058
  | .window a => x = 0x1000 + a ∧ x < 0x1000 + b.bytes
  | .reserved => x = 0x014 ∨ x = 0x04C ∨ (0x05C ≤ x ∧ x < 0x1000) ∨ 0x1000 + b.bytes ≤ x

theorem ite_standsAt {b : Config.BufSize} {x : Nat} {p : Prop} [Decidable p] {t e : Target}
    (ht : p → t.StandsAt b x) (he : ¬ p → e.StandsAt b x) : (if p then t else e).StandsAt b x := by
  split
  · exact ht ‹_›
  · exact he ‹_›

theorem locate_standsAt (b : Config.BufSize) (o : BitVec 16) : (locate b o).StandsAt b (o.toNat / 4 * 4) := by
  have hx : o.toNat / 4 * 4 % 4 = 0 := by omega
  unfold locate windowBase
  dsimp only
  rw [offset_toNat]
  generalize o.toNat / 4 * 4 = x at hx
  iterate 15
    refine ite_standsAt (fun h => ?_) fun _ => ?_
    · simp only [Target.StandsAt, Fin.val_ofNat]
      omega
  simp only [Target.StandsAt]
  omega

theorem locate_of_word {b : Config.BufSize} {o w : BitVec 16} {t : Target} (h : o &&& 0xFFFC = w) (hw : locate b w = t) :
    locate b o = t := by
  rw [← locate_mask, h, hw]

theorem standsAt_of_locate {b : Config.BufSize} {o : BitVec 16} {t : Target} (h : locate b o = t) :
    t.StandsAt b (o.toNat / 4 * 4) := h ▸ locate_standsAt b o

/-- The ranges that the register map reserves (R36). -/
theorem locate_reserved {b : Config.BufSize} {o : BitVec 16}
    (h : (0x014 ≤ o.toNat ∧ o.toNat < 0x018) ∨ (0x04C ≤ o.toNat ∧ o.toNat < 0x050) ∨
      (0x05C ≤ o.toNat ∧ o.toNat < 0x1000) ∨ 0x1000 + b.bytes ≤ o.toNat) : locate b o = .reserved := by
  have hb := bufSize_bounds b
  cases hl : locate b o with
  | reserved => rfl
  | _ =>
    have ht := standsAt_of_locate hl
    simp only [Target.StandsAt] at ht
    omega

theorem hostReadValue_of_locate {s : State} {o : BitVec 16} {t : Target} (hp : s.phase ≠ .resetting)
    (hl : locate s.config.bufSize o = t) (ht : s.phase = .idle ∨ ∀ a, t ≠ .window a) :
    hostReadValue s o = targetValue s t := by
  subst hl
  unfold hostReadValue
  split
  · exact absurd ‹_› hp
  · exact absurd ‹_› hp
  · rename_i a hbusy hwin
    rcases ht with hidle | hne
    · simp [hidle] at hbusy
    · exact absurd hwin (hne a)
  · rfl

/-- What a read at each of the four offsets of a register's word returns, in the IDLE and the BUSY phase (R63). -/
theorem hostReadValue_register {s : State} {o w : BitVec 16} (t : Target) (hp : s.phase ≠ .resetting)
    (ho : o &&& 0xFFFC = w) (hl : locate s.config.bufSize w = t) (ht : ∀ a, t ≠ .window a) :
    hostReadValue s o = targetValue s t :=
  hostReadValue_of_locate hp (locate_of_word ho hl) (.inr ht)

theorem step_write {s : State} {o : BitVec 16} {v : Word} {strb : BitVec 4} {rest : List Event} {t : Target}
    (hp : s.phase ≠ .resetting) (hl : locate s.config.bufSize o = t) (h : s.pending = .hostWrite o v strb :: rest) :
    step s = .next (writeTarget t v strb { s with pending := rest }) := by
  rw [step_event h]
  simp [handle, hostWrite, hp, hl]

/-- A write that its target ignores changes nothing, nor does any while RESETTING (R64, R292). -/
theorem step_write_ignored {s : State} {o : BitVec 16} {v : Word} {strb : BitVec 4} {rest : List Event}
    (h : s.pending = .hostWrite o v strb :: rest)
    (hw : ∀ u : State, writeTarget (locate s.config.bufSize o) v strb u = u) :
    step s = .next { s with pending := rest } := by
  by_cases hp : s.phase = .resetting
  · rw [step_event h]
    simp [handle, hostWrite, hp]
  · rw [step_write hp rfl h, hw]

theorem step_read {s : State} {o : BitVec 16} {rest : List Event} (h : s.pending = .hostRead o :: rest)
    (hw : s.phase = .idle ∨ o.toNat < 0x1000 ∨ 0x1000 + s.config.bufSize.bytes ≤ o.toNat) :
    step s = .next { s with rdata := hostReadValue s o, pending := rest } := by
  rw [step_event h]
  simp only [handle, hostRead, readMark_eq (s := { s with pending := rest }) hw]
  rfl

/-! ### The words read -/

theorem Slot.isDec_eq (k : Slot) : k.isDec = decide (k.mode = .dec) := by
  unfold Slot.isDec
  cases k.mode <;> rfl

theorem State.isBusy_eq {s : State} (hp : s.phase ≠ .resetting) : s.isBusy = (s.phase == .busy) := by
  unfold State.isBusy
  cases h : s.phase
  case resetting => exact absurd h hp
  all_goals rfl

theorem State.isResetting_eq {s : State} (hp : s.phase ≠ .resetting) : s.isResetting = false := by
  simpa [State.isResetting] using hp

theorem extractLsb'_eq_of_getLsbD {n m k : Nat} {x : BitVec n} {y : BitVec m}
    (h : ∀ i, i < m → x.getLsbD (i + k) = y.getLsbD i) : x.extractLsb' k m = y := by
  apply BitVec.eq_of_getLsbD_eq
  intro i hi
  rw [BitVec.getLsbD_extractLsb', Nat.add_comm k, h i hi, decide_eq_true hi, Bool.true_and]

/-- The flags of the STATUS word (R26). -/
theorem statusWord_flags (s : State) :
    (statusWord s).getLsbD 0 = s.isBusy ∧ (statusWord s).getLsbD 1 = s.done ∧ (statusWord s).getLsbD 2 = s.err ∧
    (statusWord s).getLsbD 3 = s.overrun ∧ (statusWord s).getLsbD 4 = s.lockerr ∧
    (statusWord s).getLsbD 5 = s.isResetting := by
  simp only [statusWord, bit, BitVec.getLsbD_append]
  simp

/-- ERRCODE stands in bits 15:8 of the STATUS word (R26). -/
theorem statusWord_errcode (s : State) : (statusWord s).extractLsb' 8 8 = s.errcode.byte := by
  apply extractLsb'_eq_of_getLsbD
  intro i hi
  simp only [statusWord, bit, BitVec.getLsbD_append]
  interval_cases i <;> simp

/-- The reserved bits of the STATUS word (R26). -/
theorem statusWord_reserved (s : State) : (statusWord s).extractLsb' 6 2 = 0 ∧ (statusWord s).extractLsb' 16 16 = 0 := by
  refine ⟨extractLsb'_eq_of_getLsbD fun i hi => ?_, extractLsb'_eq_of_getLsbD fun i hi => ?_⟩
  · simp only [statusWord, bit, BitVec.getLsbD_append]
    interval_cases i <;> simp
  · simp only [statusWord, bit, BitVec.getLsbD_append]
    interval_cases i <;> simp

/-- The flags of the CTX_STATUS word (R34). -/
theorem ctxStatusWord_flags (s : State) :
    (ctxStatusWord s).getLsbD 0 = s.hctx.active ∧ (ctxStatusWord s).getLsbD 1 = s.mctx.keyed ∧
    (ctxStatusWord s).getLsbD 4 = s.slot0.loaded ∧ (ctxStatusWord s).getLsbD 5 = decide (s.slot0.mode = .dec) ∧
    (ctxStatusWord s).getLsbD 6 = s.slot1.loaded ∧ (ctxStatusWord s).getLsbD 7 = decide (s.slot1.mode = .dec) ∧
    (ctxStatusWord s).getLsbD 8 = s.xtsBound := by
  simp only [ctxStatusWord, bit, Slot.isDec_eq, BitVec.getLsbD_append]
  simp

/-- The reserved bits of the CTX_STATUS word (R34). -/
theorem ctxStatusWord_reserved (s : State) :
    (ctxStatusWord s).extractLsb' 2 2 = 0 ∧ (ctxStatusWord s).extractLsb' 9 23 = 0 := by
  refine ⟨extractLsb'_eq_of_getLsbD fun i hi => ?_, extractLsb'_eq_of_getLsbD fun i hi => ?_⟩
  · simp only [ctxStatusWord, bit, BitVec.getLsbD_append]
    interval_cases i <;> simp
  · simp only [ctxStatusWord, bit, BitVec.getLsbD_append]
    interval_cases i <;> simp

/-- A zero flag after two zero bits is three zero bits. -/
theorem append_two_one_zeros (x : BitVec 24) :
    (x ++ (0 : BitVec 2) ++ BitVec.ofBool false : BitVec (24 + 2 + 1)) = (x ++ (0 : BitVec 3) : BitVec (24 + 3)) := by
  apply BitVec.eq_of_getLsbD_eq
  intro i hi
  simp only [BitVec.getLsbD_append]
  by_cases h : i < 3
  · interval_cases i <;> simp
  · simp [h, show ¬ i < 1 by omega, show ¬ i - 1 < 2 by omega, show i - 1 - 2 = i - 3 by omega]

/-- Outside RESETTING the RESETTING bit joins the reserved bits below ERRCODE (R26). -/
theorem statusWord_eq {s : State} (hp : s.phase ≠ .resetting) :
    statusWord s = (0 : BitVec 16) ++ s.errcode.byte ++ (0 : BitVec 3) ++ BitVec.ofBool s.lockerr ++
      BitVec.ofBool s.overrun ++ BitVec.ofBool s.err ++ BitVec.ofBool s.done ++ BitVec.ofBool (s.phase == .busy) := by
  unfold statusWord bit
  rw [State.isBusy_eq hp, State.isResetting_eq hp, append_two_one_zeros]

theorem ctrlWord_eq (s : State) : ctrlWord s = if s.irqEn then 1 else 0 := by
  unfold ctrlWord
  cases s.irqEn <;> rfl

theorem le32_read (m : Memory) (a : Nat) :
    le32 (m.read a 4) = (m.get (a + 3) ++ m.get (a + 2) ++ m.get (a + 1) ++ m.get a : BitVec 32) := rfl

theorem statusWord_resetOf (c : Config.Params) : statusWord (State.resetOf c) = 0 := by
  have hp : (State.resetOf c).isResetting = false := State.isResetting_eq (by simp)
  simp [statusWord, bit, hp, State.isBusy, Code.byte]

theorem ctxStatusWord_resetOf (c : Config.Params) : ctxStatusWord (State.resetOf c) = 0 := by
  simp [ctxStatusWord, bit, Slot.isDec_eq, HashCtx.idle, HmacCtx.unkeyed, Slot.empty]

/-! ### Byte strobes -/

/-- A full-strobe write takes every byte. -/
theorem mergeStrobes_full (old v : Word) : mergeStrobes old v 0xF = v := le32_le32Bytes v

/-- Byte `k` of a merged word (R31). -/
theorem extractLsb'_mergeStrobes (old v : Word) (strb : BitVec 4) (k : Fin 4) :
    (mergeStrobes old v strb).extractLsb' (8 * k.val) 8 =
      if strb.getLsbD k.val then v.extractLsb' (8 * k.val) 8 else old.extractLsb' (8 * k.val) 8 := by
  apply extractLsb'_eq_of_getLsbD
  intro i hi
  simp only [mergeStrobes, BitVec.getLsbD_append]
  have h16 : ¬ i + 16 < 8 := by omega
  have h24 : ¬ i + 24 < 8 := by omega
  fin_cases k <;> simp [hi, h16, h24, lane]

/-! ### Steps of the engine -/

/-- With the engine's turn next, for want of an event or by an engine event, the step is that turn (log entry 2). -/
theorem step_engineTurn {s : State} {rest : List Event}
    (h : (s.pending = [] ∧ rest = []) ∨ s.pending = .engine :: rest) :
    step s = engineTurn { s with pending := rest } := by
  rcases h with ⟨hp, rfl⟩ | hp
  · rw [step_quiet hp, ← hp]
  · exact step_event hp

theorem step_runLatched {s : State} {rest : List Event} (hb : s.phase = .busy)
    (h : (s.pending = [] ∧ rest = []) ∨ s.pending = .engine :: rest) :
    step s = runLatched { s with pending := rest } :=
  (step_engineTurn h).trans (engineTurn_busy hb)

/-- What the completion step leaves (R262, R264), out of a state like the one before it on the host's side. -/
theorem step_completes {s : State} {rest : List Event} (hb : s.phase = .busy)
    (h : (s.pending = [] ∧ rest = []) ∨ s.pending = .engine :: rest) :
    ∃ c u, step s = .next (finished c u) ∧ (c ≠ .ok → u = { s with pending := rest }) ∧
      SameHostSide { s with pending := rest } u ∧ ((∃ e, decode s.latchWord = .error e) → c = .illegalCmd) := by
  rw [step_runLatched hb h]
  exact runLatched_completes { s with pending := rest }

/-- The word of a command decodes to it (R90-R98). -/
theorem decode_encode (i : Instr) : decode (encode i) = .ok i := by
  cases i with
  | hashReset alg | hmacInit alg | pbkdf2 alg => revert alg; decide +kernel
  | cipherKey alg mode slot => cases mode <;> cases slot <;> revert alg <;> decide +kernel
  | cipherBlock slot => cases slot <;> decide
  | erase mask => revert mask; decide +kernel
  | _ => decide

theorem writeCtrl_softReset {v : Word} {s : State} (h : v.getLsbD 1 = true) :
    writeCtrl v s = resetStarted { s with irqEn := v.getLsbD 0 } := by simp only [writeCtrl, h, if_true]

theorem writeCtrl_enable {v : Word} {s : State} (h : v.getLsbD 1 = false) :
    writeCtrl v s = { s with irqEn := v.getLsbD 0 } := by simp only [writeCtrl, h, Bool.false_eq_true, if_false]

theorem writeTarget_ctrl (v : Word) (s : State) : writeTarget .ctrl v 0xF s = writeCtrl v s := rfl
theorem writeTarget_status (v : Word) (s : State) : writeTarget .status v 0xF s = clearFlags v s := rfl
theorem writeTarget_cmd (v : Word) (s : State) : writeTarget .cmd v 0xF s = writeCmd v s := rfl

/-- While RESETTING, STATUS reads BUSY and RESETTING (R292). -/
theorem hostReadValue_resetting_status {s : State} {o : BitVec 16} (hp : s.phase = .resetting) (ho : o &&& 0xFFFC = 0x00C) :
    hostReadValue s o = 0x00000021 := by
  have hl : locate s.config.bufSize o = .status := locate_of_word ho rfl
  simp only [hostReadValue, hp, hl]
  rfl

/-! ### Command statements -/

theorem writeWord_offset {i : Nat} (hi : i < 8) :
    BitVec.ofNat 16 (0x020 + 4 * i) &&& 0xFFFC = BitVec.ofNat 16 (0x020 + 4 * i) := by
  interval_cases i <;> rfl

/-- An operand write of a command statement sets its argument register. -/
theorem step_argWrite {s : State} {i : Nat} {v : Word} {rest : List Event} (hi : i < 8) (hp : s.phase ≠ .resetting)
    (h : s.pending = writeWord (0x020 + 4 * i) v :: rest) :
    step s = .next { s with args := s.args.set i v, pending := rest } := by
  have hl : locate s.config.bufSize (BitVec.ofNat 16 (0x020 + 4 * i)) = .arg ⟨i, hi⟩ := locate_arg (writeWord_offset hi)
  rw [step_write hp hl h]
  simp only [writeTarget, mergeStrobes_full]

/-- The operand writes of a command statement, from ARGi on, set as many argument registers and change nothing else
(R103). -/
theorem run_argWrites (vs : List Word) (k : Nat) {s : State} {i : Nat} {rest : List Event} (hi : i + vs.length ≤ 8)
    (hp : s.phase ≠ .resetting) (h : s.pending = argWrites i vs ++ rest) :
    ∃ a : Vector Word 8, core.run (vs.length + k) s = core.run k { s with args := a, pending := rest } ∧
      ∀ j : Fin 8, a[j] = if i ≤ j.val then vs.getD (j.val - i) s.args[j] else s.args[j] := by
  induction vs generalizing s i with
  | nil =>
    obtain rfl : s.pending = rest := h
    exact ⟨s.args, by simp, by simp⟩
  | cons v vs ih =>
    rw [List.length_cons] at hi
    have hstep := step_argWrite (rest := argWrites (i + 1) vs ++ rest) (by omega) hp h
    obtain ⟨a, hrun, ha⟩ := ih (s := { s with args := s.args.set i v, pending := argWrites (i + 1) vs ++ rest })
      (by omega) hp rfl
    refine ⟨a, ?_, fun j => ?_⟩
    · rw [List.length_cons, Nat.add_right_comm]
      exact (run_next hstep _).trans hrun
    · rw [ha j]
      rcases Nat.lt_trichotomy i j.val with hj | hj | hj
      · have hd : j.val - i = j.val - (i + 1) + 1 := by omega
        simp [hd, hj, Nat.le_of_lt hj, Nat.ne_of_lt hj]
      · simp [← hj]
      · simp [Nat.not_le_of_lt hj, Nat.ne_of_gt hj, show ¬ i + 1 ≤ j.val by omega]

theorem operandCount_le (i : Instr) : operandCount i ≤ 8 := by
  cases i <;> simp [operandCount]

/-- Whatever word is written to CMD while IDLE is accepted (R28, R261). -/
theorem step_cmdWrite {s : State} {w : Word} {rest : List Event} (hp : s.phase = .idle)
    (h : s.pending = writeWord 0x010 w :: rest) : step s = .next (accepted w { s with pending := rest }) := by
  rw [step_write (t := .cmd) (by simp [hp]) rfl h, writeTarget_cmd, writeCmd, if_pos hp]

/-! ### What a host cannot see -/

theorem targetValue_eq_of_sameToHost {s t : State} (h : s.SameToHost t) (x : Target) : targetValue s x = targetValue t x := by
  cases x with
  | ctrl => simp only [targetValue, ctrlWord, h.irqEn]
  | status =>
    simp only [targetValue, statusWord, State.isBusy, State.isResetting, h.errcode, h.phase, h.lockerr, h.overrun, h.err,
      h.done]
  | ctxStatus =>
    simp only [targetValue, ctxStatusWord, Slot.isDec, h.xtsBound, h.mode0, h.mode1, h.loaded0, h.loaded1, h.hmacKeyed,
      h.hashActive]
  | cmd => exact h.latchWord
  | arg i => simp only [targetValue, h.args]
  | result0 => exact h.result0
  | result1 => exact h.result1
  | result2 => exact h.result2
  | crcValue => simp only [targetValue, h.crc]
  | bufSize => simp only [targetValue, h.config]
  | window a => simp only [targetValue, h.buf]
  | id | version | hashInfo | cipherInfo | reserved => rfl

theorem hostReadValue_eq_of_sameToHost {s t : State} (h : s.SameToHost t) (o : BitVec 16) :
    hostReadValue s o = hostReadValue t o := by
  unfold hostReadValue
  rw [h.phase, h.config]
  split
  · rfl
  · rfl
  · rfl
  · exact targetValue_eq_of_sameToHost h _

theorem readMark_lockerr_eq_of_sameToHost {s t : State} (h : s.SameToHost t) (o : BitVec 16) :
    (readMark s o).lockerr = (readMark t o).lockerr := by
  unfold readMark
  rw [h.phase, h.config]
  split
  · rfl
  · exact h.lockerr

theorem State.SameToHost.hostRead {s t : State} (h : s.SameToHost t) (o : BitVec 16) :
    (hostRead o s).SameToHost (hostRead o t) := by
  rw [hostRead_eq, hostRead_eq]
  exact { h with lockerr := readMark_lockerr_eq_of_sameToHost h o }

end Sys2Proof.Machine

namespace Sys2Proof.Proofs

open Sys2Proof.Machine Sys2Proof.Claims

/-- Settles O7: the engine's turn and the handling of each event keep the invariant. -/
theorem stepKeepsTheInvariant : Obligations.StepKeepsTheInvariant := fun _ _ => State.Inv.step

/-- Settles O12: the registers stay on the way to the completion, and so does the completion leave them. -/
theorem commandsLeaveHostRegistersAlone : Obligations.CommandsLeaveHostRegistersAlone := by
  intro i s t ht
  have hres : i ≠ .xtsProcess → SameResults s t := fun hi => by
    obtain ⟨c, u, rfl, hr⟩ := (exec_keeps_results s hi).of_next ht
    exact hr
  obtain ⟨c, u, hu, -, h⟩ := exec_completes i s
  cases ht.symm.trans hu
  exact ⟨h.config, h.irqEn, h.args, h.latchWord, h.latchArg, h.overrun, h.lockerr, h.rstN, h.pending, h.rdata, hres⟩

/-- Settles O15: the two runs pass the same checks and have the same effect. -/
theorem commandsReadNoFlagAndNoArgRegister : Obligations.CommandsReadNoFlagAndNoArgRegister := by
  intro i s t args irqEn done err overrun lockerr code ht
  obtain ⟨c, u, rfl, h⟩ :=
    (exec_withHostFields args irqEn done err overrun lockerr code s i).second_of_first ht
  exact h

/-- Settles O28, by the frame of PBKDF2 and its run with the other contexts. -/
theorem pbkdf2UsesNoHostContext : Obligations.Pbkdf2UsesNoHostContext := by
  intro alg s h m
  obtain ⟨c, u, hu, hh, hm⟩ := exec_pbkdf2_frame alg s
  obtain ⟨c', u', heq, h'⟩ := (exec_pbkdf2_withContexts alg s h m).second_of_first hu
  exact ⟨finished c u, hu, hh, hm, rfl, by rw [h', heq]; rfl⟩

/-- Settles O11: the completion step reports its code, and an error leaves the state it was raised on. -/
theorem completionStep : Obligations.CompletionStep := by
  intro s rest hb hturn
  obtain ⟨c, u, hstep, herr, hside, hill⟩ := step_completes hb hturn
  have hread : hostReadValue (finished c u) 0x00C = statusWord (finished c u) := rfl
  obtain ⟨hbusy, hdone, he, -⟩ := statusWord_flags (finished c u)
  have hcode := statusWord_errcode (finished c u)
  refine ⟨finished c u, hstep, rfl, rfl, rfl, by simp, hread ▸ hcode, hread ▸ hbusy, hread ▸ hdone, hread ▸ he,
    hside.overrun, hside.lockerr, hside.pending, fun hc => ?_, hill⟩
  rw [herr hc]
  constructor <;> rfl

/-- Settles O47: the operand writes set ARG0 on, and the CMD write latches them. -/
theorem issuedCommandIsAcceptedWithItsOperands : Obligations.IssuedCommandIsAcceptedWithItsOperands := by
  intro s i operands rest hidle hlen hpend
  have hle : 0 + operands.length ≤ 8 := by
    have := operandCount_le i
    omega
  have hissue : s.pending = argWrites 0 operands ++ writeWord 0x010 (encode i) :: rest := by
    rw [hpend, issue, ← hlen, List.take_length, List.append_assoc]
    rfl
  obtain ⟨a, hrun, ha⟩ := run_argWrites operands 1 hle (by simp [hidle]) hissue
  have haccept := step_cmdWrite
    (s := { s with args := a, pending := writeWord 0x010 (encode i) :: rest }) hidle rfl
  refine ⟨_, hrun.trans (run_next haccept 0), rfl, rfl, rfl, rfl, fun k => ?_⟩
  simpa using ha k

/-- Settles O48, by the bytes of a merged word. -/
theorem argWriteReplacesStrobedBytes : Obligations.ArgWriteReplacesStrobedBytes := by
  intro s i offset v strb rest hp ho hpend
  refine ⟨_, step_write hp (locate_arg ho) hpend, rfl, fun o ho' => ?_, fun k => ?_, fun j hj => ?_⟩
  · exact hostReadValue_of_locate (t := .arg i) hp (locate_arg ho') (.inr nofun)
  · simpa [writeTarget] using extractLsb'_mergeStrobes s.args[i] v strb k
  · have hne : i.val ≠ j.val := fun h => hj (Fin.ext h.symm)
    simp [writeTarget, hne]

/-- Settles O49: the writable targets stand elsewhere, or want every strobe. -/
theorem ignoredRegisterWritesChangeNothing : Obligations.IgnoredRegisterWritesChangeNothing := by
  intro s offset v strb rest hpend
  refine ⟨fun hreg hnarg hs => step_write_ignored hpend ?_, fun ho => step_write_ignored hpend ?_⟩
  · cases hl : locate s.config.bufSize offset with
    | window a =>
      have hwin := window_of_locate hl
      omega
    | arg i =>
      have ht := standsAt_of_locate hl
      simp only [Target.StandsAt] at ht
      omega
    | ctrl | status | cmd => exact fun u => if_neg hs
    | _ => exact fun u => rfl
  · cases hl : locate s.config.bufSize offset with
    | window a =>
      have hwin := window_of_locate hl
      omega
    | arg _ | ctrl | status | cmd =>
      have ht := standsAt_of_locate hl
      simp only [Target.StandsAt] at ht
      omega
    | _ => exact fun u => rfl

/-- Settles O50: each offset names its register, and the read returns it. -/
theorem registerMapReads : Obligations.RegisterMapReads := by
  intro s offset hp v
  have hreg : ∀ (t : Target) {w : BitVec 16}, offset &&& 0xFFFC = w → locate s.config.bufSize w = t →
      (∀ a, t ≠ .window a) → v = targetValue s t := fun t _ ho hl ht => hostReadValue_register t hp ho hl ht
  refine ⟨fun rest hw hpend => step_read hpend hw, ?_, fun ho => hreg .id ho rfl nofun, fun ho => hreg .version ho rfl nofun,
    fun ho => (hreg .ctrl ho rfl nofun).trans (ctrlWord_eq s), fun ho => (hreg .status ho rfl nofun).trans (statusWord_eq hp),
    fun ho => hreg .cmd ho rfl nofun, fun ho => hreg .hashInfo ho rfl nofun, fun ho => hreg .cipherInfo ho rfl nofun,
    fun i ho => ?_, fun ho => hreg .result0 ho rfl nofun, fun ho => hreg .result1 ho rfl nofun,
    fun ho => hreg .result2 ho rfl nofun, fun ho => hreg .crcValue ho rfl nofun, fun ho => hreg .ctxStatus ho rfl nofun,
    fun ho => hreg .bufSize ho rfl nofun, fun k hi hk ho => ?_, fun ho => ?_⟩
  · simp only [v, hostReadValue, locate_mask]
  · exact hostReadValue_of_locate (t := .arg i) hp (locate_arg ho) (.inr nofun)
  · rw [← le32_read]
    exact hostReadValue_of_locate (t := .window (4 * k)) hp (locate_window hk ho) (.inl hi)
  · exact hostReadValue_of_locate (t := .reserved) hp (locate_reserved ho) (.inr nofun)

/-- Settles O51, by the bits of the two words. -/
theorem statusWordsShowTheFields : Obligations.StatusWordsShowTheFields := by
  refine ⟨⟨rfl, rfl, rfl, rfl, rfl, rfl, rfl, rfl, rfl, rfl, rfl⟩, fun s offset hp => ⟨fun ho => ?_, fun ho => ?_⟩⟩
  · rw [hostReadValue_register .status hp ho rfl nofun]
    obtain ⟨hbusy, hdone, herr, hover, hlock, hreset⟩ := statusWord_flags s
    obtain ⟨hlow, hhigh⟩ := statusWord_reserved s
    rw [State.isBusy_eq hp] at hbusy
    rw [State.isResetting_eq hp] at hreset
    exact ⟨hbusy, hdone, herr, hover, hlock, hreset, hlow, statusWord_errcode s, hhigh⟩
  · rw [hostReadValue_register .ctxStatus hp ho rfl nofun]
    obtain ⟨hhash, hmac, hload0, hmode0, hload1, hmode1, hbound⟩ := ctxStatusWord_flags s
    obtain ⟨hlow, hhigh⟩ := ctxStatusWord_reserved s
    exact ⟨hhash, hmac, hlow, hload0, hmode0, hload1, hmode1, hbound, hhigh⟩

/-- Settles O52: the write clears the flags, and nothing else. -/
theorem statusWriteOneClears : Obligations.StatusWriteOneClears := by
  intro s offset v rest hp ho hpend
  have hclear : ∀ b f : Bool, (f && !b) = if b then false else f := by decide
  rw [step_write hp (locate_of_word (t := .status) ho rfl) hpend, writeTarget_status]
  simp only [clearFlags, hclear]

/-- Settles O56: the write starts the reset, and the engine's turn ends it. -/
theorem softResetLeavesNothing : Obligations.SoftResetLeavesNothing := by
  intro s offset v rest hp hpin hv ho hpend
  have hstart : step s = .next (resetStarted { s with irqEn := v.getLsbD 0, pending := .engine :: rest }) := by
    rw [step_write hp (locate_of_word (t := .ctrl) ho rfl) hpend, writeTarget_ctrl, writeCtrl_softReset hv]
  have hend := step_event (s := resetStarted { s with irqEn := v.getLsbD 0, pending := .engine :: rest }) rfl
  rw [handle, engineTurn_resetting rfl] at hend
  refine ⟨?_, _, hstart, rfl, rfl, fun o ho' => hostReadValue_resetting_status rfl ho', rfl⟩
  rw [run_next hstart, run_next hend, run_zero]
  simp [hpin, resetEnded_eq]

/-- Settles O58, by the CTRL write and the completion step. -/
theorem interruptFollowsEnableAndDone : Obligations.InterruptFollowsEnableAndDone := by
  refine fun s => ⟨rfl, fun offset v rest hp hv ho hpend => ?_, fun rest hb hturn => ?_⟩
  · have hstep : step s = .next { s with irqEn := v.getLsbD 0, pending := rest } := by
      rw [step_write hp (locate_of_word (t := .ctrl) ho rfl) hpend, writeTarget_ctrl, writeCtrl_enable hv]
    exact ⟨hstep, _, hstep, rfl⟩
  · obtain ⟨c, u, hstep, -, hside, -⟩ := step_completes hb hturn
    exact ⟨_, hstep, by simp [State.irq, hside.irqEn], hside.pending⟩

/-- Settles O59: every word read is made of fields on which the two states agree. -/
theorem readsRevealNoSecret : Obligations.ReadsRevealNoSecret :=
  fun _ _ offset h => ⟨hostReadValue_eq_of_sameToHost h offset, h.hostRead offset⟩

/-- Settles O5, by the engine's turn in each phase and the decoding of an encoded command. -/
theorem stepRunsTheDecodedCommand : Obligations.StepRunsTheDecodedCommand := by
  intro s i
  refine ⟨fun hb hd => ⟨fun hpend => ?_, fun rest hpend => ?_⟩, ?_, fun hi => ⟨fun hpend => ?_, fun rest hpend => ?_⟩⟩
  · rw [step_quiet hpend, engineTurn_busy hb, runLatched_decoded hd]
  · rw [step_runLatched hb (.inr hpend)]
    exact runLatched_decoded hd
  · have hword : BitVec.ofNat 32 ((encode i).toNat % 2 ^ 32) = encode i := by
      rw [Nat.mod_eq_of_lt (encode i).isLt, BitVec.ofNat_toNat, BitVec.setWidth_eq]
    rw [State.withFetchWord, hword, commandLoaded, step_runLatched (rest := []) rfl (.inl ⟨rfl, rfl⟩)]
    exact runLatched_decoded (decode_encode i)
  · rw [step_quiet hpend, engineTurn_idle hi]
  · rw [step_engineTurn (.inr hpend)]
    exact engineTurn_idle hi

/-- Settles O9: each value is the one that `State.resetOf` gives. -/
theorem resetLeavesTheStatedValues : Obligations.ResetLeavesTheStatedValues := by
  refine ⟨rfl, rfl, fun c => ⟨⟨rfl, rfl, rfl, rfl, rfl⟩, ⟨ctrlWord_eq _, rfl⟩, ⟨statusWord_resetOf c, rfl, rfl, rfl, rfl, rfl⟩,
    ⟨rfl, rfl⟩, fun i => ?_, ⟨rfl, rfl, rfl⟩, ⟨rfl, BitVec.xor_self⟩, ctxStatusWord_resetOf c, rfl, fun a => rfl, rfl, rfl,
    fun n => ?_, rfl, rfl, rfl⟩⟩
  · simp
  · cases n <;> rfl

end Sys2Proof.Proofs
end

section
/-! PROOFS. The statements of 20_memory.md: what commands and the host do to Buf, and that the host leaves a command in
flight alone; the laws they need stand first. -/

namespace Sys2Proof.Machine

open Sys2Proof.Claims

/-! ### What commands write to Buf -/

/-- Every byte of Buf outside the `r.2` bytes from address `r.1` on reads in `u` as in `s`. -/
def SameOutside (r : Nat × Nat) (s u : State) : Prop :=
  ∀ a, ¬ (r.1 ≤ a ∧ a < r.1 + r.2) → u.buf.get a = s.buf.get a

theorem SameOutside.of_buf_eq {r : Nat × Nat} {s u : State} (h : u.buf = s.buf) : SameOutside r s u :=
  fun _ _ => by rw [h]

theorem SameOutside.of_buf_write {a n : Nat} {s u : State} {v : List Byte} (hwf : s.buf.wf = true) (hv : v.length = n)
    (h : u.buf = s.buf.write a v) : SameOutside (a, n) s u := by
  subst hv
  intro b hb
  rw [h, Memory.get_write_outside v hwf hb]

/-- A command stores to the range of R68 alone, and one that raises an error to none. -/
theorem exec_sameOutside_storedRange (i : Instr) {s : State} (hwf : s.buf.wf = true) :
    CompletesWith (SameOutside (storedRange i s) s) (exec i s) := by
  have h : SameOutside (storedRange i s) s s := .of_buf_eq rfl
  cases i with
  | nop | crcInit | erase mask => exact .complete .ok (.of_buf_eq rfl)
  | hashReset alg | hmacReset | crcUpdate => exact .check h fun _ => .complete .ok (.of_buf_eq rfl)
  | hashUpdate | hmacInit alg | hmacUpdate =>
    exact .check h fun _ => .check h fun _ => .complete .ok (.of_buf_eq rfl)
  | cipherKey alg mode n => exact .check h fun _ => .check h fun _ => .complete .ok (.of_buf_eq (by simp))
  | xtsInit => exact .check h fun _ => .check h fun _ => .check h fun _ => .complete .ok (.of_buf_eq rfl)
  | hashFinal =>
    exact .check h fun _ => .check h fun _ =>
      .complete .ok (.of_buf_write (v := s.hctx.finish) hwf (HashCtx.finish_length _) (by simp))
  | hmacFinal =>
    exact .check h fun _ => .check h fun _ =>
      .complete .ok (.of_buf_write (v := s.mctx.output) hwf (rmd160_length _) (by simp))
  | pbkdf2 alg =>
    exact .check h fun _ => .check h fun _ => .check h fun _ => .check h fun _ =>
      .complete .ok (.of_buf_write hwf (pbkdf2_length _ _ _ _) (memWrite_buf _ _ _))
  | cipherBlock n =>
    exact .check h fun _ => .check h fun _ =>
      .complete .ok (.of_buf_write hwf Vector.length_toList (memWrite_buf _ _ _))
  | xtsProcess =>
    refine .check h fun _ => .check h fun _ => .check h fun _ => .check h fun _ => .complete .ok fun a ha => ?_
    have ha : ¬ (arg s 0 ≤ a ∧ a < arg s 0 + arg s 1) := ha
    exact xtsRun_get_outside _ _ _ _ _ _ a hwf (by omega)
  | eraseBuf => exact .check h fun _ => .complete .ok (.of_buf_write hwf (zeros_length _) (memWrite_buf _ _ _))

/-! ### The buffer window -/

theorem writeTarget_window_idle {s : State} {a : Nat} {v : Word} {strb : BitVec 4} (hp : s.phase = .idle) :
    writeTarget (.window a) v strb s = { s with buf := windowWrite v strb a s.buf } := by simp [writeTarget, hp]

theorem writeTarget_window_busy {s : State} {a : Nat} {v : Word} {strb : BitVec 4} (hp : s.phase = .busy) :
    writeTarget (.window a) v strb s = { s with lockerr := true } := by simp [writeTarget, hp]

/-- Byte `i` of a buffer word after a host write to it (R62). -/
theorem Memory.get_windowWrite_lane {m : Memory} (v : Word) (strb : BitVec 4) (a : Nat) (i : Fin 4) (h : m.wf = true) :
    (windowWrite v strb a m).get (a + i.val) =
      if strb.getLsbD i.val then v.extractLsb' (8 * i.val) 8 else m.get (a + i.val) := by
  simp [Memory.get_windowWrite v strb a _ h, lane]

/-- The frame of a host write to a buffer word (R62). -/
theorem Memory.get_windowWrite_outside {m : Memory} (v : Word) (strb : BitVec 4) {a b : Nat} (h : m.wf = true)
    (hb : b < a ∨ a + 4 ≤ b) : (windowWrite v strb a m).get b = m.get b := by
  rw [Memory.get_windowWrite v strb a b h, if_neg (by omega)]

theorem hostRead_busy_window {s : State} {o : BitVec 16} {a : Nat} (hp : s.phase = .busy)
    (hl : locate s.config.bufSize o = .window a) : hostRead o s = { s with lockerr := true, rdata := 0 } := by
  simp only [hostRead, readMark, hostReadValue, hp, hl]

theorem hostRead_resetting {s : State} {o : BitVec 16} (hp : s.phase = .resetting)
    (hl : locate s.config.bufSize o ≠ .status) : hostRead o s = { s with rdata := 0 } := by
  have hv : hostReadValue s o = 0 := by
    unfold hostReadValue
    split
    · exact absurd ‹_› hl
    · rfl
    · cases hp.symm.trans ‹_›
    · exact absurd hp ‹_›
  rw [hostRead, readMark_resetting hp, hv]

theorem hostWrite_resetting {s : State} {o : BitVec 16} {v : Word} {strb : BitVec 4} (hp : s.phase = .resetting) :
    hostWrite o v strb s = s := if_pos hp

/-! ### Two runs of a command that differ on the host's side alone -/

/-- The state with another pin level, other events to come and another word last read: what stands outside the
engine (R16). -/
def withOutside (rstN : Bool) (pending : List Event) (rdata : Word) (s : State) : State :=
  { s with rstN := rstN, pending := pending, rdata := rdata }

section
variable (rstN : Bool) (pending : List Event) (rdata : Word) (s : State)

theorem memWrite_withOutside (a : Nat) (v : List Byte) :
    memWrite (withOutside rstN pending rdata s) a v = withOutside rstN pending rdata (memWrite s a v) := rfl

/-- No command reads what stands outside the engine. -/
theorem exec_withOutside (i : Instr) :
    CompletesAlike (withOutside rstN pending rdata) (exec i s) (exec i (withOutside rstN pending rdata s)) := by
  have hw := fun (f : State → State) (a : Nat) (v : List Byte) =>
    congrArg f (memWrite_withOutside rstN pending rdata s a v)
  cases i with
  | nop | crcInit | erase mask => exact .complete .ok rfl
  | hashReset alg | hmacReset | crcUpdate | eraseBuf => exact .check (.complete .ok rfl)
  | hashUpdate | hmacInit alg | hmacUpdate | cipherBlock n => exact .check (.check (.complete .ok rfl))
  | hashFinal => exact .check (.check (.complete .ok (hw (fun u => { u with hctx := HashCtx.idle }) _ _)))
  | hmacFinal => exact .check (.check (.complete .ok (hw (fun u => { u with mctx := s.mctx.prime }) _ _)))
  | cipherKey alg mode n => exact .check (.check (.complete .ok (by cases n <;> rfl)))
  | xtsInit => exact .check (.check (.check (.complete .ok rfl)))
  | pbkdf2 alg => exact .check (.check (.check (.check (.complete .ok (by unfold memWrite; rfl)))))
  | xtsProcess =>
    have hrun := xtsRun_congr (withOutside rstN pending rdata s) s rfl rfl rfl rfl
    exact .check (.check (.check (.check (.complete .ok (by rw [hrun]; rfl)))))

end

/-- A change of state that leaves the latched word alone and that every command runs alike with, the completion step of
the command in flight runs alike with. -/
theorem runLatched_alike {f : State → State} {s : State} (hl : (f s).latchWord = s.latchWord)
    (h : ∀ i, CompletesAlike f (exec i s) (exec i (f s))) : CompletesAlike f (runLatched s) (runLatched (f s)) := by
  cases hd : decode s.latchWord with
  | ok i =>
    rw [runLatched_decoded hd, runLatched_decoded (hl ▸ hd)]
    exact h i
  | error e =>
    rw [runLatched_illegal hd, runLatched_illegal (hl ▸ hd)]
    exact .complete .illegalCmd rfl

/-- The state `s` with the host's registers, the flags and what stands outside the engine as in `h`. -/
def withHostSide (h s : State) : State :=
  withOutside h.rstN h.pending h.rdata (withHostFields h.args h.irqEn h.done h.err h.overrun h.lockerr h.errcode s)

/-- The completion step has the same effects, whatever the host's side of the state. -/
theorem runLatched_withHostSide (h s : State) :
    Answers (runLatched s) fun t => Answers (runLatched (withHostSide h s)) fun t' => SameEffects t t' := by
  obtain ⟨c, u, hu, hu'⟩ := runLatched_alike (s := s) rfl
    (exec_withHostFields h.args h.irqEn h.done h.err h.overrun h.lockerr h.errcode s)
  have houtside := runLatched_alike rfl (exec_withOutside h.rstN h.pending h.rdata
    (withHostFields h.args h.irqEn h.done h.err h.overrun h.lockerr h.errcode s))
  obtain ⟨c', w, hw, hw'⟩ := houtside.second_of_first hu'
  refine ⟨_, hu, _, hw', ?_⟩
  have heffects : SameEffects (finished c u) (finished c' w) := by
    rw [← hw]
    constructor <;> rfl
  exact { heffects with }

/-! ### What the host can change while a command is in flight -/

/-- While BUSY a write that starts no reset changes the host's side of the state alone (R72, R267, R301). -/
theorem withHostSide_writeTarget {t : Target} {v : Word} {strb : BitVec 4} {s : State} (hp : s.phase = .busy)
    (hr : t = .ctrl → strb = 0xF → v.getLsbD 1 = false) :
    withHostSide (writeTarget t v strb s) s = writeTarget t v strb s := by
  cases t with
  | window a =>
    rw [writeTarget_window_busy hp]
    rfl
  | ctrl =>
    simp only [writeTarget]
    split
    · rw [writeCtrl_enable (hr rfl ‹_›)]
      rfl
    · rfl
  | status =>
    simp only [writeTarget]
    split <;> rfl
  | cmd =>
    have hi : s.phase ≠ .idle := by simp [hp]
    simp only [writeTarget, writeCmd, if_neg hi]
    split <;> rfl
  | _ => rfl

/-- While BUSY a host transaction but a soft reset changes the host's side of the state alone (R298, R301). -/
theorem handle_busy_host {s : State} {e : Event} (hp : s.phase = .busy) (hh : e.isHost = true)
    (hr : e.isSoftReset = false) : Answers (handle e s) fun s' => withHostSide s' s = s' := by
  cases e with
  | hostRead o => exact ⟨_, rfl, by rw [hostRead_eq]; rfl⟩
  | hostWrite o v strb =>
    refine ⟨_, rfl, ?_⟩
    rw [hostWrite, if_neg (by simp [hp])]
    refine withHostSide_writeTarget hp fun hl hs => ?_
    have ho := (locate_eq_ctrl _ _).mp hl
    simpa only [Event.isSoftReset, ho, hs, decide_true, Bool.true_and] using hr
  | engine | rstLow | rstHigh => cases hh

end Sys2Proof.Machine

namespace Sys2Proof.Proofs

open Sys2Proof.Machine Sys2Proof.Claims

/-- Settles O14: the completion leaves Buf as the command's effect left it. -/
theorem commandsStoreOnlyInTheirRange : Obligations.CommandsStoreOnlyInTheirRange := by
  intro i s t hwf ht
  obtain ⟨c, u, rfl, h⟩ := (exec_sameOutside_storedRange i hwf).of_next ht
  exact h

/-- Settles O53: each of the word's offsets names it, and the write puts its strobed lanes. -/
theorem windowWriteChangesStrobedBytes : Obligations.WindowWriteChangesStrobedBytes := by
  intro s k offset v strb rest hwf hidle hk ho
  have hl := locate_window hk ho
  have hp : s.phase ≠ .resetting := by simp [hidle]
  refine ⟨?_, fun hpend => ⟨_, step_write hp hl hpend, ?_⟩⟩
  · rw [← le32_read]
    exact hostReadValue_of_locate hp hl (.inl hidle)
  · rw [writeTarget_window_idle (s := { s with pending := rest }) hidle]
    exact ⟨rfl, fun i => Memory.get_windowWrite_lane v strb (4 * k) i hwf,
      fun a ha => Memory.get_windowWrite_outside v strb hwf ha⟩

/-- Settles O54: every offset of the window names a buffer word, locked while BUSY and dead while RESETTING. -/
theorem windowIsLockedWhileBusy : Obligations.WindowIsLockedWhileBusy := by
  intro s offset rest hlo hhi
  have hl := locate_of_window hlo hhi
  refine ⟨fun hb => ⟨fun v strb hpend => ?_, fun hpend => ?_⟩, fun hr => ⟨fun v strb hpend => ?_, fun hpend => ?_⟩⟩
  · exact (step_write (by simp [hb]) hl hpend).trans (congrArg Host.Outcome.next (writeTarget_window_busy hb))
  · exact (step_event hpend).trans (congrArg Host.Outcome.next (hostRead_busy_window hb hl))
  · exact (step_event hpend).trans (congrArg Host.Outcome.next (hostWrite_resetting hr))
  · exact (step_event hpend).trans (congrArg Host.Outcome.next (hostRead_resetting hr (by simp [hl])))

/-- Settles O60: the transaction changes the host's side alone, and the completion reads none of it. -/
theorem hostCannotDisturbTheCommandInFlight : Obligations.HostCannotDisturbTheCommandInFlight := by
  intro s e hb hh hr
  obtain ⟨s', hs', heq⟩ := handle_busy_host hb hh hr
  have hb' : s'.phase = .busy := by
    rw [← heq]
    exact hb
  refine ⟨s', hs', hb', ?_⟩
  rw [engineTurn_busy hb, engineTurn_busy hb', ← heq]
  exact runLatched_withHostSide s' s

end Sys2Proof.Proofs
end

section
/-! PROOFS. The statements of 30_encoding.md: decoding and encoding undo each other, decoding goes by the one row that fits,
and a command in flight completes; the laws they need stand first. -/

namespace Sys2Proof

/-! ### Decoding goes by the one row that fits (R98) -/

/-- At most one row fits a word: the word's OP is that of every row that fits it. -/
theorem row_unique_of_fits {w : Word} {r r' : OpcodeRow} (hr : r ∈ opcodeTable) (hr' : r' ∈ opcodeTable)
    (h : w &&& r.mask = r.value) (h' : w &&& r'.mask = r'.value) : r = r' :=
  opcodeTable_op_unique r hr r' hr' ((op_of_fits hr h).symm.trans (op_of_fits hr' h'))

theorem OpcodeRow.fits_iff {w : Word} {r : OpcodeRow} : r.fits w = true ↔ w &&& r.mask = r.value := beq_iff_eq

/-- A word decodes exactly to the command of a row that fits it. -/
theorem decode_eq_ok_iff {w : Word} {i : Instr} :
    decode w = .ok i ↔ ∃ r ∈ opcodeTable, w &&& r.mask = r.value ∧ r.make w = i := by
  unfold decode
  cases hf : opcodeTable.find? (OpcodeRow.fits w) with
  | none =>
    have hnone := List.find?_eq_none.mp hf
    refine ⟨fun h => ?_, fun ⟨r, hr, hfit, _⟩ => absurd (OpcodeRow.fits_iff.mpr hfit) (hnone r hr)⟩
    dsimp only at h
    split at h <;> cases h
  | some r =>
    have hr : r ∈ opcodeTable := List.mem_of_find?_eq_some hf
    have hfit : w &&& r.mask = r.value := OpcodeRow.fits_iff.mp (List.find?_some hf)
    constructor
    · intro h
      exact ⟨r, hr, hfit, Except.ok.inj h⟩
    · rintro ⟨r', hr', hfit', rfl⟩
      rw [row_unique_of_fits hr hr' hfit hfit']

/-! ### Encoding what a row reads off a word (R91-R96) -/

/-- A command word is its fields, each in a word of its own, put together. -/
theorem commandWord_eq_or (alg : Byte) (mode : BitVec 1) (sel : BitVec 4) (op : Byte) :
    commandWord alg mode sel op =
      commandWord alg 0 0 0 ||| commandWord 0 mode 0 0 ||| commandWord 0 0 sel 0 ||| commandWord 0 0 0 op := by
  apply BitVec.eq_of_getLsbD_eq
  intro k hk
  simp only [commandWord, BitVec.getLsbD_or, BitVec.getLsbD_append]
  interval_cases k <;> simp

theorem commandWord_algField (w : Word) : commandWord (algField w) 0 0 0 = w &&& 0x00FF0000 := by
  apply BitVec.eq_of_getLsbD_eq
  intro k hk
  simp only [commandWord, algField, BitVec.getLsbD_append]
  interval_cases k <;> simp

theorem modeField_bit (w : Word) : (modeField w).bit = BitVec.ofBool (w.getLsbD 12) := by
  unfold modeField
  cases w.getLsbD 12 <;> rfl

theorem commandWord_modeField (w : Word) : commandWord 0 (modeField w).bit 0 0 = w &&& 0x00001000 := by
  apply BitVec.eq_of_getLsbD_eq
  intro k hk
  simp only [commandWord, modeField_bit, BitVec.getLsbD_append]
  interval_cases k <;> simp

theorem slotField_sel (w : Word) : (slotField w).sel = (BitVec.ofBool (w.getLsbD 8)).setWidth 4 := by
  unfold slotField
  cases w.getLsbD 8 <;> rfl

theorem commandWord_slotField (w : Word) : commandWord 0 0 (slotField w).sel 0 = w &&& 0x00000100 := by
  apply BitVec.eq_of_getLsbD_eq
  intro k hk
  simp only [commandWord, slotField_sel, BitVec.getLsbD_append]
  interval_cases k <;> simp

theorem commandWord_selField (w : Word) : commandWord 0 0 (selField w) 0 = w &&& 0x00000F00 := by
  apply BitVec.eq_of_getLsbD_eq
  intro k hk
  simp only [commandWord, selField, BitVec.getLsbD_append]
  interval_cases k <;> simp

theorem commandWord_zero : commandWord 0 0 0 0 = 0#32 := by decide

/-- Whatever the word, the command that a row reads off it encodes to the word's operand bits and the row's fixed bits
(R92). -/
theorem encode_make (w : Word) : ∀ r ∈ opcodeTable, encode (r.make w) = w &&& ~~~r.mask ||| r.value := by
  have hfixed (op : Byte) : commandWord 0 0 0 op = w &&& ~~~0xFFFFFFFF ||| commandWord 0 0 0 op := by simp
  have halg (op : Byte) : commandWord (algField w) 0 0 op = w &&& ~~~0xFF00FFFF ||| commandWord 0 0 0 op := by
    rw [commandWord_eq_or, commandWord_algField, commandWord_zero, BitVec.or_zero, BitVec.or_zero]
    rfl
  have hkey : commandWord (algField w) (modeField w).bit (slotField w).sel 0x20 =
      w &&& ~~~0xFF00EEFF ||| commandWord 0 0 0 0x20 := by
    rw [commandWord_eq_or, commandWord_algField, commandWord_modeField, commandWord_slotField, ← BitVec.and_or_distrib_left,
      ← BitVec.and_or_distrib_left]
    rfl
  have hslot : commandWord 0 0 (slotField w).sel 0x21 = w &&& ~~~0xFFFFFEFF ||| commandWord 0 0 0 0x21 := by
    rw [commandWord_eq_or, commandWord_slotField, commandWord_zero, BitVec.zero_or, BitVec.zero_or]
    rfl
  have hmask : commandWord 0 0 (selField w) 0x30 = w &&& ~~~0xFFFFF0FF ||| commandWord 0 0 0 0x30 := by
    rw [commandWord_eq_or, commandWord_selField, commandWord_zero, BitVec.zero_or, BitVec.zero_or]
    rfl
  simp only [opcodeTable, List.forall_mem_cons, List.not_mem_nil, false_imp_iff, implies_true, and_true]
  exact ⟨hfixed _, halg _, hfixed _, hfixed _, halg _, hfixed _, hfixed _, hfixed _, halg _, hfixed _, hfixed _, hkey,
    hslot, hfixed _, hfixed _, hmask, hfixed _⟩

/-- The command of a row that fits the word encodes to the word: operand bits and fixed bits are all its bits (R92). -/
theorem encode_make_of_fits {w : Word} {r : OpcodeRow} (hr : r ∈ opcodeTable) (h : w &&& r.mask = r.value) :
    encode (r.make w) = w := by
  rw [encode_make w r hr, ← h, ← BitVec.and_or_distrib_left, BitVec.not_or_self, BitVec.and_allOnes]

end Sys2Proof

namespace Sys2Proof.Machine

/-! ### A command in flight under the host's transactions -/

@[simp] theorem hostRead_pending (o : BitVec 16) (s : State) : (hostRead o s).pending = s.pending := by
  rw [hostRead_eq]

/-- A host transaction leaves the events to come alone. -/
theorem handle_host_pending {e : Event} {s t : State} (hh : e.isHost = true) (ht : handle e s = .next t) :
    t.pending = s.pending := by
  cases e with
  | hostRead o =>
    cases ht
    exact hostRead_pending o s
  | hostWrite o v strb =>
    cases ht
    exact hostWrite_pending o v strb s
  | engine | rstLow | rstHigh => cases hh

/-- While BUSY a host transaction but a soft reset leaves the command in flight (R298). -/
theorem step_busy_host {s : State} {e : Event} {rest : List Event} (hb : s.phase = .busy) (hp : s.pending = e :: rest)
    (hh : e.isHost = true) (hr : e.isSoftReset = false) :
    Answers (step s) fun t => t.phase = .busy ∧ t.pending = rest := by
  rw [step_event hp]
  obtain ⟨t, ht, hside⟩ := handle_busy_host (s := { s with pending := rest }) hb hh hr
  exact ⟨t, ht, by rw [← hside]; exact hb, handle_host_pending hh ht⟩

/-- However many transactions stand before the engine's turn, the command in flight completes at it (R311). -/
theorem run_busy_completes (es : List Event) {s : State} (hb : s.phase = .busy) (hp : s.pending = es)
    (hes : ∀ e ∈ es, e.isHost = true ∧ e.isSoftReset = false) :
    Answers (core.run (es.length + 1) s) fun t => t.phase = .idle ∧ t.done = true ∧ t.pending = [] := by
  induction es generalizing s with
  | nil =>
    obtain ⟨c, u, hstep, -, hside, -⟩ := step_completes hb (.inl ⟨hp, rfl⟩)
    exact ⟨finished c u, run_next hstep 0, rfl, rfl, hside.pending⟩
  | cons e rest ih =>
    rw [List.forall_mem_cons] at hes
    obtain ⟨⟨hh, hr⟩, hrest⟩ := hes
    obtain ⟨t, hstep, ht, hpend⟩ := step_busy_host hb hp hh hr
    rw [List.length_cons, run_next hstep]
    exact ih ht hpend hrest

end Sys2Proof.Machine

namespace Sys2Proof.Proofs

open Sys2Proof.Machine

/-- Settles O2, by the decoding of each command's word. -/
theorem decodeUndoesEncode : Obligations.DecodeUndoesEncode := decode_encode

/-- Settles O3: the row that fits the word gives its operand bits to the command and fixes the others. -/
theorem encodeUndoesDecode : Obligations.EncodeUndoesDecode := by
  intro w i h
  obtain ⟨r, hr, hfit, rfl⟩ := decode_eq_ok_iff.mp h
  exact encode_make_of_fits hr hfit

/-- Settles O4: rows have an OP of their own, so the first row that fits is the only one. -/
theorem decodingIsByTheOneFittingRow : Obligations.DecodingIsByTheOneFittingRow := by
  refine fun w => ⟨fun r hr r' hr' => row_unique_of_fits hr hr', fun r hr hfit => decode_eq_ok_iff.mpr ⟨r, hr, hfit, rfl⟩,
    fun hnone => ?_⟩
  cases hd : decode w with
  | error e => exact ⟨e, rfl⟩
  | ok i =>
    obtain ⟨r, hr, hfit, -⟩ := decode_eq_ok_iff.mp hd
    exact absurd hfit (hnone r hr)

/-- Settles O10, by induction on the transactions before the engine's turn. -/
theorem acceptedCommandCompletes : Obligations.AcceptedCommandCompletes :=
  fun s hb hes => run_busy_completes s.pending hb rfl hes

/-- Settles O1: each word is the command's encoding, and so decodes to it. -/
theorem workedEncodingsDecode : Obligations.WorkedEncodingsDecode := by
  have worked : ∀ {w : Word} {i : Instr}, encode i = w → decode w = .ok i ∧ encode i = w :=
    fun h => ⟨h ▸ decode_encode _, h⟩
  exact ⟨worked rfl, worked rfl, worked rfl, worked rfl, worked rfl, worked rfl, worked rfl, worked rfl, worked rfl,
    by decide⟩

end Sys2Proof.Proofs
end

section
/-! PROOFS. The statements of 40_ripemd160.md: which commands change which context, the compression function, and the hash
commands one by one and over any split of a message; the laws they need stand first. -/

namespace Sys2Proof.Machine

open Sys2Proof.Claims

/-! ### The words of an opcode -/

/-- A row of the opcode map encodes its command: a word that fits it decodes to that, and no other row has its OP (R92, R98). -/
theorem encodedBy_of_mem {mask value : Word} {command : Word → Instr} (hr : ⟨mask, value, command⟩ ∈ opcodeTable) :
    encodedBy mask value command := by
  refine fun w => ⟨fun hfit => decode_eq_ok_iff.mpr ⟨_, hr, hfit, rfl⟩, fun hop hfit s hs => ?_⟩
  cases hd : decode s.latchWord with
  | error e => exact runLatched_illegal hd
  | ok i =>
    rw [hs] at hd
    obtain ⟨r, hr', hfit', -⟩ := decode_eq_ok_iff.mp hd
    cases opcodeTable_op_unique r hr' _ hr ((op_of_fits hr' hfit').symm.trans hop)
    exact absurd hfit' hfit

/-! ### The contexts that a command leaves alone -/

/-- Each context that command `i` has no business with is in `u` what it is in `s`: the hash and HMAC contexts, the CRC
register, the slots and the XTS binding each belong to their own commands and to ERASE. -/
structure KeepsOtherContexts (i : Instr) (s u : State) : Prop where
  hctx : (∀ alg, i ≠ .hashReset alg) → i ≠ .hashUpdate → i ≠ .hashFinal → (∀ m, i ≠ .erase m) → u.hctx = s.hctx
  mctx : (∀ alg, i ≠ .hmacInit alg) → i ≠ .hmacReset → i ≠ .hmacUpdate → i ≠ .hmacFinal → (∀ m, i ≠ .erase m) →
    u.mctx = s.mctx
  crc : i ≠ .crcInit → i ≠ .crcUpdate → (∀ m, i ≠ .erase m) → u.crc = s.crc
  slot : ∀ n, (∀ alg mode, i ≠ .cipherKey alg mode n) → (∀ m, i ≠ .erase m) → u.slot n = s.slot n
  xtsBound : (∀ alg mode n, i ≠ .cipherKey alg mode n) → i ≠ .xtsInit → (∀ m, i ≠ .erase m) → u.xtsBound = s.xtsBound

theorem KeepsOtherContexts.refl (i : Instr) (s : State) : KeepsOtherContexts i s s := by constructor <;> intros <;> rfl

/-- Storing to Buf changes no context. -/
theorem KeepsOtherContexts.memWrite (i : Instr) (s : State) (a : Nat) (v : List Byte) :
    KeepsOtherContexts i s (memWrite s a v) :=
  { KeepsOtherContexts.refl i s with slot := fun n _ _ => memWrite_slot a v s n }

theorem KeepsOtherContexts.withScratch {i : Instr} {s u : State} (x : Scratch) (h : KeepsOtherContexts i s u) :
    KeepsOtherContexts i s { u with scratch := x } := { h with }

/-- The hash commands set the hash context. -/
theorem KeepsOtherContexts.setHctx {i : Instr} {s u : State} (c : HashCtx) (h : KeepsOtherContexts i s u)
    (hi : (∀ alg, i ≠ .hashReset alg) → i ≠ .hashUpdate → i ≠ .hashFinal → False) :
    KeepsOtherContexts i s { u with hctx := c } :=
  { h with hctx := fun hreset hupdate hfinal _ => (hi hreset hupdate hfinal).elim }

/-- The HMAC commands set the HMAC context. -/
theorem KeepsOtherContexts.setMctx {i : Instr} {s u : State} (c : HmacCtx) (h : KeepsOtherContexts i s u)
    (hi : (∀ alg, i ≠ .hmacInit alg) → i ≠ .hmacReset → i ≠ .hmacUpdate → i ≠ .hmacFinal → False) :
    KeepsOtherContexts i s { u with mctx := c } :=
  { h with mctx := fun hinit hreset hupdate hfinal _ => (hi hinit hreset hupdate hfinal).elim }

theorem KeepsOtherContexts.setSlot (alg : Byte) (mode : CipherMode) (n : SlotId) (s : State) (k : Slot) :
    KeepsOtherContexts (.cipherKey alg mode n) s { s.setSlot n k with xtsBound := false } where
  hctx _ _ _ _ := State.setSlot_hctx n k s
  mctx _ _ _ _ _ := State.setSlot_mctx n k s
  crc _ _ _ := State.setSlot_crc n k s
  slot n' hn _ := by
    have hne : n ≠ n' := fun h => hn alg mode (h ▸ rfl)
    have hslot : State.slot { s.setSlot n k with xtsBound := false } n' = (s.setSlot n k).slot n' := by cases n' <;> rfl
    rw [hslot, State.slot_setSlot, if_neg hne]
  xtsBound hi _ _ := absurd rfl (hi alg mode n)

theorem KeepsOtherContexts.erased (m : BitVec 4) (s : State) : KeepsOtherContexts (.erase m) s (erased m s) where
  hctx _ _ _ hi := absurd rfl (hi m)
  mctx _ _ _ _ hi := absurd rfl (hi m)
  crc _ _ hi := absurd rfl (hi m)
  slot _ _ hi := absurd rfl (hi m)
  xtsBound _ _ hi := absurd rfl (hi m)

theorem exec_keepsOtherContexts (i : Instr) (s : State) : CompletesWith (KeepsOtherContexts i s) (exec i s) := by
  have h := KeepsOtherContexts.refl i s
  have hw := KeepsOtherContexts.memWrite i s
  cases i with
  | nop => exact .complete .ok h
  | hashReset alg => exact .check h fun _ => .complete .ok (h.setHctx _ fun hi _ _ => hi alg rfl)
  | hashUpdate => exact .check h fun _ => .check h fun _ => .complete .ok (h.setHctx _ fun _ hi _ => hi rfl)
  | hashFinal => exact .check h fun _ => .check h fun _ => .complete .ok ((hw _ _).setHctx _ fun _ _ hi => hi rfl)
  | hmacInit alg =>
    exact .check h fun _ => .check h fun _ => .complete .ok { h with mctx := fun hi => absurd rfl (hi alg) }
  | hmacReset => exact .check h fun _ => .complete .ok (h.setMctx _ fun _ hi _ _ => hi rfl)
  | hmacUpdate => exact .check h fun _ => .check h fun _ => .complete .ok (h.setMctx _ fun _ _ hi _ => hi rfl)
  | hmacFinal => exact .check h fun _ => .check h fun _ => .complete .ok ((hw _ _).setMctx _ fun _ _ _ hi => hi rfl)
  | pbkdf2 alg =>
    exact .check h fun _ => .check h fun _ => .check h fun _ => .check h fun _ => .complete .ok ((hw _ _).withScratch _)
  | crcInit => exact .complete .ok { h with crc := fun hi => absurd rfl hi }
  | crcUpdate => exact .check h fun _ => .complete .ok { h with crc := fun _ hi => absurd rfl hi }
  | cipherKey alg mode n => exact .check h fun _ => .check h fun _ => .complete .ok (.setSlot alg mode n s _)
  | cipherBlock n => exact .check h fun _ => .check h fun _ => .complete .ok (hw _ _)
  | xtsInit =>
    exact .check h fun _ => .check h fun _ => .check h fun _ =>
      .complete .ok { h with xtsBound := fun _ hi => absurd rfl hi }
  | xtsProcess =>
    exact .check h fun _ => .check h fun _ => .check h fun _ => .check h fun _ => .complete .ok { h with }
  | erase m => exact .complete .ok (.erased m s)
  | eraseBuf => exact .check h fun _ => .complete .ok (hw _ _)

/-! ### The compression function -/

/-- The left line of the ten working words of R127. -/
def leftLine (w : TenWords) : Line := ⟨w.a, w.b, w.c, w.d, w.e⟩

/-- The right line of the ten working words of R127. -/
def rightLine (w : TenWords) : Line := ⟨w.a', w.b', w.c', w.d', w.e'⟩

/-- One pass of R127's loop is one round of the left line. -/
theorem leftLine_loopBody (x : List Word) (w : TenWords) (j : Nat) :
    leftLine (loopBody x w j) = leftRound x (leftLine w) j := rfl

/-- One pass of R127's loop is one round of the right line. -/
theorem rightLine_loopBody (x : List Word) (w : TenWords) (j : Nat) :
    rightLine (loopBody x w j) = rightRound x (rightLine w) j := rfl

theorem leftLine_foldl_loopBody (x : List Word) (w : TenWords) (js : List Nat) :
    leftLine (js.foldl (loopBody x) w) = js.foldl (leftRound x) (leftLine w) :=
  (List.foldl_hom leftLine fun w j => (leftLine_loopBody x w j).symm).symm

theorem rightLine_foldl_loopBody (x : List Word) (w : TenWords) (js : List Nat) :
    rightLine (js.foldl (loopBody x) w) = js.foldl (rightRound x) (rightLine w) :=
  (List.foldl_hom rightLine fun w j => (rightLine_loopBody x w j).symm).symm

/-! ### The hash commands -/

/-- HASH_RESET of RIPEMD-160 (R130). -/
theorem exec_hashReset (s : State) :
    exec (.hashReset 0x01) s = .next (finished .ok { s with hctx := HashCtx.fresh }) := rfl

theorem exec_hashReset_badAlg {alg : Byte} (s : State) (h : alg ≠ 0x01) :
    exec (.hashReset alg) s = .next (finished .badAlg s) := by
  have hl : legalHash alg = false := (legalHash_eq alg).trans (decide_eq_false h)
  simp [exec, execHashReset, hl, raiseError_eq]

theorem exec_hashUpdate_idle {s : State} (h : s.hctx.active = false) :
    exec .hashUpdate s = .next (finished .hashState s) := by
  simp [exec, execHashUpdate, h, raiseError_eq]

theorem exec_hashUpdate_badRange {s : State} (h : s.hctx.active = true)
    (hr : s.config.bufSize.bytes < arg s 0 + arg s 1) : exec .hashUpdate s = .next (finished .badRange s) := by
  simp [exec, execHashUpdate, h, inRange_eq, hr, raiseError_eq]

/-- HASH_UPDATE of an active context with the range in Buf (R131). -/
theorem exec_hashUpdate {s : State} (h : s.hctx.active = true) (hr : arg s 0 + arg s 1 ≤ s.config.bufSize.bytes) :
    exec .hashUpdate s = .next (finished .ok
      { s with hctx := s.hctx.absorb (memRead s (arg s 0) (arg s 1)) }) := by
  simp [exec, execHashUpdate, h, inRange_eq, hr, complete_eq]

theorem exec_hashFinal_idle {s : State} (h : s.hctx.active = false) :
    exec .hashFinal s = .next (finished .hashState s) := by
  simp [exec, execHashFinal, h, raiseError_eq]

theorem exec_hashFinal_badRange {s : State} (h : s.hctx.active = true) (hr : s.config.bufSize.bytes < arg s 0 + 20) :
    exec .hashFinal s = .next (finished .badRange s) := by
  simp [exec, execHashFinal, h, inRange_eq, hr, raiseError_eq]

/-- HASH_FINAL of an active context with the digest's 20 bytes in Buf (R132). -/
theorem exec_hashFinal {s : State} (h : s.hctx.active = true) (hr : arg s 0 + 20 ≤ s.config.bufSize.bytes) :
    exec .hashFinal s = .next (finished .ok
      { s with buf := s.buf.write (arg s 0) s.hctx.finish, hctx := HashCtx.idle }) := by
  simp [exec, execHashFinal, h, inRange_eq, hr, complete_eq, memWrite]

/-! ### Sequences of commands -/

@[simp] theorem withArgs_hctx (a : Vector Word 8) (s : State) : (withArgs a s).hctx = s.hctx := rfl

/-- Bytes just written are what a read of their number gives. -/
theorem Memory.read_write {m : Memory} {a n : Nat} {v : List Byte} (h : m.wf = true) (hn : v.length = n) :
    (m.write a v).read a n = v := hn ▸ Memory.read_write_same a v h

theorem Answers.andThen {o : Host.Outcome State Fault Refusal} {f : State → Host.Outcome State Fault Refusal}
    {P Q : State → Prop} (ho : Answers o P) (hf : ∀ t, P t → Answers (f t) Q) : Answers (andThen o f) Q := by
  obtain ⟨t, rfl, ht⟩ := ho
  exact hf t ht

/-- Feeding chunk after chunk: what holds of the bytes fed so far holds of all of them at the end, if running the command
over one more chunk keeps it. -/
theorem feed_answers {i : Instr} {P : List Byte → State → Prop} {cs : List (List Byte)}
    (hstep : ∀ c ∈ cs, ∀ m s, P m s → Answers (exec i (loaded c s)) (P (m ++ c))) {m : List Byte} {s : State}
    (h : P m s) : Answers (feed i cs s) (P (m ++ cs.flatten)) := by
  induction cs generalizing m s with
  | nil => exact ⟨s, rfl, by simpa using h⟩
  | cons c cs ih =>
    rw [List.forall_mem_cons] at hstep
    obtain ⟨hc, hcs⟩ := hstep
    rw [List.flatten_cons, ← List.append_assoc]
    exact (hc m s h).andThen fun t ht => ih hcs ht

/-- The operands of a command on a loaded chunk are a range of Buf that holds the chunk. -/
theorem arg_loaded {c : List Byte} {s : State} (hc : c.length ≤ s.config.bufSize.bytes) :
    arg (loaded c s) 0 = 0 ∧ arg (loaded c s) 1 = c.length :=
  ⟨arg_zero_args2 _ _ (by decide), arg_one_args2 _ _ (lt_word_of_le_bufSize (n := 0) hc)⟩

theorem memRead_loaded {c : List Byte} {s : State} (hwf : s.buf.wf = true) : memRead (loaded c s) 0 c.length = c :=
  Memory.read_write_same 0 c hwf

/-- `t` has canonical memory, a Buf of size `b` and a hash context that has absorbed `m` since HASH_RESET. -/
structure HasAbsorbed (b : Config.BufSize) (m : List Byte) (t : State) : Prop where
  bufCanonical : t.buf.wf = true
  bufSize : t.config.bufSize = b
  hctx : t.hctx = HashCtx.fresh.absorb m

theorem HasAbsorbed.active {b : Config.BufSize} {m : List Byte} {t : State} (h : HasAbsorbed b m t) :
    t.hctx.active = true := by
  rw [h.hctx]
  rfl

theorem hashReset_hasAbsorbed {s : State} (hwf : s.buf.wf = true) :
    Answers (exec (.hashReset 0x01) s) (HasAbsorbed s.config.bufSize []) :=
  ⟨_, exec_hashReset s, hwf, rfl, (HashCtx.absorb_nil HashCtx.fresh (by decide)).symm⟩

/-- HASH_UPDATE of a loaded chunk adds the chunk to what the context has absorbed. -/
theorem HasAbsorbed.hashUpdate {b : Config.BufSize} {m c : List Byte} {t : State} (h : HasAbsorbed b m t)
    (hc : c.length ≤ b.bytes) : Answers (exec .hashUpdate (loaded c t)) (HasAbsorbed b (m ++ c)) := by
  have ha := h.active
  obtain ⟨hwf, rfl, hctx⟩ := h
  obtain ⟨h0, h1⟩ := arg_loaded hc
  refine ⟨_, exec_hashUpdate ha (by rw [h0, h1, Nat.zero_add]; exact hc), Memory.wf_write 0 c hwf, rfl, ?_⟩
  rw [h0, h1, memRead_loaded hwf, ← HashCtx.absorb_append, ← hctx]
  rfl

/-- HASH_FINAL writes the digest of what the context has absorbed. -/
theorem HasAbsorbed.hashFinal {b : Config.BufSize} {m : List Byte} {t : State} (h : HasAbsorbed b m t) {dst : Nat}
    (hdst : dst + 20 ≤ b.bytes) :
    Answers (exec .hashFinal (withArgs (args2 dst 0) t)) fun u =>
      u.errcode = .ok ∧ u.buf.read dst 20 = rmd160 m ∧ u.hctx = HashCtx.idle := by
  have ha := h.active
  obtain ⟨hwf, rfl, hctx⟩ := h
  have h0 := arg_zero_args2 0 t (lt_word_of_le_bufSize hdst)
  refine ⟨_, exec_hashFinal ha (by rwa [h0]), finished_errcode _ _, ?_, finished_hctx _ _⟩
  rw [h0]
  simp only [finished_buf, withArgs_buf, withArgs_hctx, hctx]
  exact Memory.read_write hwf (rmd160_length m)

end Sys2Proof.Machine

namespace Sys2Proof.Proofs

open Sys2Proof.Machine Sys2Proof.Claims

/-- Settles O13: the contexts stay on the way to the completion, and so does the completion leave them. -/
theorem commandsChangeOnlyTheirContexts : Obligations.CommandsChangeOnlyTheirContexts := by
  intro i s t ht
  obtain ⟨c, u, rfl, h⟩ := (exec_keepsOtherContexts i s).of_next ht
  exact ⟨h.hctx, h.mctx, h.crc, fun n hn he => (finished_slot c u n).trans (h.slot n hn he), h.xtsBound⟩

/-- Settles O37: each line of the interleaved loop is the loop of that line alone. -/
theorem compressIsTheInterleavedLoop : Obligations.CompressIsTheInterleavedLoop := by
  intro h b x w
  have hl : leftLine w = (List.range 80).foldl (leftRound x) ⟨h.h0, h.h1, h.h2, h.h3, h.h4⟩ :=
    leftLine_foldl_loopBody x _ _
  have hr : rightLine w = (List.range 80).foldl (rightRound x) ⟨h.h0, h.h1, h.h2, h.h3, h.h4⟩ :=
    rightLine_foldl_loopBody x _ _
  unfold compress blockWords
  dsimp only
  rw [← hl, ← hr]
  rfl

/-- Settles O18: the opcode map has the row, and 0x01 is the one legal id. -/
theorem hashResetStartsAFreshHash : Obligations.HashResetStartsAFreshHash :=
  ⟨encodedBy_of_mem (by simp [opcodeTable, algField]), fun s => ⟨exec_hashReset s, fun _ => exec_hashReset_badAlg s⟩⟩

/-- Settles O19: absorbing nothing gives a sound context back. -/
theorem hashUpdateAbsorbs : Obligations.HashUpdateAbsorbs := by
  refine ⟨encodedBy_of_mem (by simp [opcodeTable]),
    fun s => ⟨exec_hashUpdate_idle, exec_hashUpdate_badRange, fun ha hr => ⟨exec_hashUpdate ha hr, fun hn hwf => ?_⟩⟩⟩
  have hnil : memRead s (arg s 0) (arg s 1) = [] := by rw [hn]; rfl
  rw [exec_hashUpdate ha hr, hnil, HashCtx.absorb_nil _ (HashCtx.blk_length_of_wf hwf)]
  rfl

/-- Settles O20: the checks in their order, and the length of a digest. -/
theorem hashFinalWritesTheDigest : Obligations.HashFinalWritesTheDigest :=
  ⟨encodedBy_of_mem (by simp [opcodeTable]), fun s => ⟨exec_hashFinal_idle, exec_hashFinal_badRange,
    fun ha hr => ⟨exec_hashFinal ha hr, HashCtx.finish_length _⟩⟩⟩

/-- Settles O38: every command of the sequence adds its chunk to what the context has absorbed. -/
theorem hashOfAnySplitIsTheDigest : Obligations.HashOfAnySplitIsTheDigest := by
  intro s cs dst hwf hcs hdst
  have hfed := (hashReset_hasAbsorbed hwf).andThen fun t ht =>
    feed_answers (fun c hc _ _ h => HasAbsorbed.hashUpdate h (hcs c hc)) ht
  exact hfed.andThen fun t ht => ht.hashFinal hdst

end Sys2Proof.Proofs
end

section
/-! PROOFS. The statements of 41_hmac.md: the HMAC commands one by one and over any split of a message; the laws they need
stand first. -/

namespace Sys2Proof.Machine

open Sys2Proof.Claims

/-! ### The HMAC commands -/

theorem exec_hmacInit_badAlg {alg : Byte} (s : State) (h : alg ≠ 0x01) :
    exec (.hmacInit alg) s = .next (finished .badAlg s) := by
  have hl : legalHash alg = false := (legalHash_eq alg).trans (decide_eq_false h)
  simp [exec, execHmacInit, hl, raiseError_eq]

theorem exec_hmacInit_badRange {s : State} (hr : s.config.bufSize.bytes < arg s 0 + arg s 1) :
    exec (.hmacInit 0x01) s = .next (finished .badRange s) := by
  simp [exec, execHmacInit, legalHash_eq, inRange_eq, hr, raiseError_eq]

/-- HMAC_INIT with the key in Buf (R153); the completion zeroizes the context in which a long key was hashed. -/
theorem exec_hmacInit {s : State} (hr : arg s 0 + arg s 1 ≤ s.config.bufSize.bytes) :
    exec (.hmacInit 0x01) s = .next (finished .ok
      { s with mctx := HmacCtx.keyedWith (memRead s (arg s 0) (arg s 1)) }) := by
  simp [exec, execHmacInit, legalHash_eq, inRange_eq, hr, complete_eq, finished]

theorem exec_hmacReset_unkeyed {s : State} (h : s.mctx.keyed = false) :
    exec .hmacReset s = .next (finished .notKeyed s) := by
  simp [exec, execHmacReset, h, raiseError_eq]

/-- HMAC_RESET of a keyed context (R154). -/
theorem exec_hmacReset {s : State} (h : s.mctx.keyed = true) :
    exec .hmacReset s = .next (finished .ok { s with mctx := s.mctx.prime }) := by
  simp [exec, execHmacReset, h, complete_eq]

theorem exec_hmacUpdate_unkeyed {s : State} (h : s.mctx.keyed = false) :
    exec .hmacUpdate s = .next (finished .notKeyed s) := by
  simp [exec, execHmacUpdate, h, raiseError_eq]

theorem exec_hmacUpdate_badRange {s : State} (h : s.mctx.keyed = true)
    (hr : s.config.bufSize.bytes < arg s 0 + arg s 1) : exec .hmacUpdate s = .next (finished .badRange s) := by
  simp [exec, execHmacUpdate, h, inRange_eq, hr, raiseError_eq]

/-- HMAC_UPDATE of a keyed context with the range in Buf (R155). -/
theorem exec_hmacUpdate {s : State} (h : s.mctx.keyed = true) (hr : arg s 0 + arg s 1 ≤ s.config.bufSize.bytes) :
    exec .hmacUpdate s = .next (finished .ok
      { s with mctx := { s.mctx with inner := s.mctx.inner.absorb (memRead s (arg s 0) (arg s 1)) } }) := by
  simp [exec, execHmacUpdate, h, inRange_eq, hr, complete_eq]

theorem exec_hmacFinal_unkeyed {s : State} (h : s.mctx.keyed = false) :
    exec .hmacFinal s = .next (finished .notKeyed s) := by
  simp [exec, execHmacFinal, h, raiseError_eq]

theorem exec_hmacFinal_badRange {s : State} (h : s.mctx.keyed = true) (hr : s.config.bufSize.bytes < arg s 0 + 20) :
    exec .hmacFinal s = .next (finished .badRange s) := by
  simp [exec, execHmacFinal, h, inRange_eq, hr, raiseError_eq]

/-- HMAC_FINAL of a keyed context with the output's 20 bytes in Buf (R156). -/
theorem exec_hmacFinal {s : State} (h : s.mctx.keyed = true) (hr : arg s 0 + 20 ≤ s.config.bufSize.bytes) :
    exec .hmacFinal s = .next (finished .ok
      { s with buf := s.buf.write (arg s 0) s.mctx.output, mctx := s.mctx.prime }) := by
  simp [exec, execHmacFinal, h, inRange_eq, hr, complete_eq, memWrite]

/-! ### What a keyed context has absorbed -/

@[simp] theorem withArgs_mctx (a : Vector Word 8) (s : State) : (withArgs a s).mctx = s.mctx := rfl

/-- Absorbing nothing gives a sound keyed context back (R155). -/
theorem HmacCtx.absorb_nil {c : HmacCtx} (hk : c.keyed = true) (h : c.wf = true) :
    { c with inner := c.inner.absorb [] } = c := by
  rw [HashCtx.absorb_nil _ (HashCtx.blk_length_of_wf (HmacCtx.inner_active_of_wf h hk).2)]

/-- `t` has canonical memory, a Buf of size `b` and an HMAC context keyed with `key` that has absorbed `m` since its
priming. -/
structure HasMacAbsorbed (b : Config.BufSize) (key m : List Byte) (t : State) : Prop where
  bufCanonical : t.buf.wf = true
  bufSize : t.config.bufSize = b
  mctx : t.mctx = { HmacCtx.keyedWith key with inner := (HmacCtx.keyedWith key).inner.absorb m }

theorem HasMacAbsorbed.keyed {b : Config.BufSize} {key m : List Byte} {t : State} (h : HasMacAbsorbed b key m t) :
    t.mctx.keyed = true := by
  rw [h.mctx]
  rfl

/-- HMAC_INIT with a loaded key leaves the context keyed with that key. -/
theorem exec_hmacInit_loaded {s : State} {key : List Byte} (hwf : s.buf.wf = true)
    (hkey : key.length ≤ s.config.bufSize.bytes) :
    exec (.hmacInit 0x01) (loaded key s) =
      .next (finished .ok { loaded key s with mctx := HmacCtx.keyedWith key }) := by
  obtain ⟨h0, h1⟩ := arg_loaded hkey
  rw [exec_hmacInit (by rw [h0, h1, Nat.zero_add]; exact hkey), h0, h1, memRead_loaded hwf]

theorem hmacInit_hasMacAbsorbed {s : State} {key : List Byte} (hwf : s.buf.wf = true)
    (hkey : key.length ≤ s.config.bufSize.bytes) :
    Answers (exec (.hmacInit 0x01) (loaded key s)) (HasMacAbsorbed s.config.bufSize key []) :=
  ⟨_, exec_hmacInit_loaded hwf hkey, Memory.wf_write 0 key hwf, rfl,
    (HmacCtx.absorb_nil (HmacCtx.keyedWith_keyed key) (HmacCtx.keyedWith_wf key)).symm⟩

/-- HMAC_UPDATE of a loaded chunk adds the chunk to what the context has absorbed. -/
theorem HasMacAbsorbed.hmacUpdate {b : Config.BufSize} {key m c : List Byte} {t : State}
    (h : HasMacAbsorbed b key m t) (hc : c.length ≤ b.bytes) :
    Answers (exec .hmacUpdate (loaded c t)) (HasMacAbsorbed b key (m ++ c)) := by
  have hk := h.keyed
  obtain ⟨hwf, rfl, hmctx⟩ := h
  obtain ⟨h0, h1⟩ := arg_loaded hc
  refine ⟨_, exec_hmacUpdate hk (by rw [h0, h1, Nat.zero_add]; exact hc), Memory.wf_write 0 c hwf, rfl, ?_⟩
  have hloaded : (loaded c t).mctx = t.mctx := rfl
  rw [finished_mctx, h0, h1, memRead_loaded hwf, hloaded, hmctx, HashCtx.absorb_append]

/-- HMAC_FINAL writes the HMAC of what the context has absorbed, and primes the context again. -/
theorem HasMacAbsorbed.hmacFinal {b : Config.BufSize} {key m : List Byte} {t : State} (h : HasMacAbsorbed b key m t)
    {dst : Nat} (hdst : dst + 20 ≤ b.bytes) :
    Answers (exec .hmacFinal (withArgs (args2 dst 0) t)) fun u =>
      u.errcode = .ok ∧ u.buf.read dst 20 = hmac key m ∧ u.mctx = HmacCtx.keyedWith key := by
  have hk := h.keyed
  obtain ⟨hwf, rfl, hmctx⟩ := h
  have h0 := arg_zero_args2 0 t (lt_word_of_le_bufSize hdst)
  refine ⟨_, exec_hmacFinal hk (by rwa [h0]), finished_errcode _ _, ?_, ?_⟩
  · rw [h0]
    simp only [finished_buf, withArgs_buf, withArgs_mctx, hmctx, HmacCtx.output_keyedWith]
    exact Memory.read_write hwf (hmac_length key m)
  · rw [finished_mctx, withArgs_mctx, hmctx, HmacCtx.prime_keyedWith]

end Sys2Proof.Machine

namespace Sys2Proof.Proofs

open Sys2Proof.Machine Sys2Proof.Claims

/-- Settles O39: every command of the sequence adds its chunk to what the keyed context has absorbed, and HMAC_FINAL
brings back the context that HMAC_INIT left. -/
theorem hmacOfAnySplitIsTheMac : Obligations.HmacOfAnySplitIsTheMac := by
  intro s key cs dst hwf hkey hcs hdst
  have hfed := (hmacInit_hasMacAbsorbed hwf hkey).andThen fun t ht =>
    feed_answers (fun c hc _ _ h => HasMacAbsorbed.hmacUpdate h (hcs c hc)) ht
  refine hfed.andThen fun t ht => ?_
  obtain ⟨u, hu, hcode, hout, hmctx⟩ := ht.hmacFinal hdst
  exact ⟨u, hu, hcode, hout, _, exec_hmacInit_loaded hwf hkey, hmctx⟩

/-- Settles O21: the opcode map has the row, and the checks stand in their order. -/
theorem hmacInitKeysTheContext : Obligations.HmacInitKeysTheContext :=
  ⟨encodedBy_of_mem (by simp [opcodeTable, algField]),
    fun s => ⟨fun _ => exec_hmacInit_badAlg s, exec_hmacInit_badRange, exec_hmacInit⟩⟩

/-- Settles O22: the opcode map has the row, and priming is what the statement says. -/
theorem hmacResetReprimes : Obligations.HmacResetReprimes :=
  ⟨encodedBy_of_mem (by simp [opcodeTable]), fun _ => ⟨exec_hmacReset_unkeyed, exec_hmacReset⟩⟩

/-- Settles O23: absorbing nothing gives a sound context back. -/
theorem hmacUpdateAbsorbs : Obligations.HmacUpdateAbsorbs := by
  refine ⟨encodedBy_of_mem (by simp [opcodeTable]),
    fun s => ⟨exec_hmacUpdate_unkeyed, exec_hmacUpdate_badRange,
      fun hk hr => ⟨exec_hmacUpdate hk hr, fun hn hwf => ?_⟩⟩⟩
  have hnil : memRead s (arg s 0) (arg s 1) = [] := by rw [hn]; rfl
  rw [exec_hmacUpdate hk hr, hnil, HmacCtx.absorb_nil hk hwf]
  rfl

/-- Settles O24: the opcode map has the row, and the checks stand in their order. -/
theorem hmacFinalWritesTheMac : Obligations.HmacFinalWritesTheMac :=
  ⟨encodedBy_of_mem (by simp [opcodeTable]), fun _ => ⟨exec_hmacFinal_unkeyed, exec_hmacFinal_badRange, exec_hmacFinal⟩⟩

end Sys2Proof.Proofs
end

section
/-! PROOFS. The statements of 42_pbkdf2.md: the command PBKDF2 with its errors, and the shape of the derived key; the laws
they need stand first. -/

namespace Sys2Proof.Machine

/-! ### The command -/

theorem exec_pbkdf2_badAlg {alg : Byte} (s : State) (h : alg ≠ 0x01) :
    exec (.pbkdf2 alg) s = .next (finished .badAlg s) := by
  have hl : legalHash alg = false := (legalHash_eq alg).trans (decide_eq_false h)
  simp [exec, execPbkdf2, hl, raiseError_eq]

theorem exec_pbkdf2_badArg {s : State} (h : arg s 4 = 0 ∨ arg s 5 = 0) :
    exec (.pbkdf2 0x01) s = .next (finished .badArg s) := by
  simp [exec, execPbkdf2, legalHash_eq, h, raiseError_eq]

section
variable {s : State} (hc : arg s 4 ≠ 0) (hd : arg s 5 ≠ 0)
include hc hd

theorem exec_pbkdf2_badRange
    (hr : arg s 0 + arg s 1 > s.config.bufSize.bytes ∨ arg s 2 + arg s 3 > s.config.bufSize.bytes ∨
      arg s 6 + arg s 5 > s.config.bufSize.bytes) :
    exec (.pbkdf2 0x01) s = .next (finished .badRange s) := by
  have hout : (inRange s.config.bufSize (arg s 0) (arg s 1) && inRange s.config.bufSize (arg s 2) (arg s 3) &&
      inRange s.config.bufSize (arg s 6) (arg s 5)) = false := by
    simp only [inRange_eq, ← Bool.decide_and, decide_eq_false_iff_not]
    omega
  simp [exec, execPbkdf2, legalHash_eq, hc, hd, hout, raiseError_eq]

variable (hp : arg s 0 + arg s 1 ≤ s.config.bufSize.bytes) (hs : arg s 2 + arg s 3 ≤ s.config.bufSize.bytes)
  (ho : arg s 6 + arg s 5 ≤ s.config.bufSize.bytes)
include hp hs ho

theorem exec_pbkdf2_overlap
    (h : overlaps (arg s 6) (arg s 5) (arg s 0) (arg s 1) = true ∨
      overlaps (arg s 6) (arg s 5) (arg s 2) (arg s 3) = true) :
    exec (.pbkdf2 0x01) s = .next (finished .overlap s) := by
  simp [exec, execPbkdf2, legalHash_eq, hc, hd, inRange_eq, hp, hs, ho, h, raiseError_eq]

/-- PBKDF2 with every check passed (R172, R173); the completion zeroizes the scratch (R171). -/
theorem exec_pbkdf2 (hnp : overlaps (arg s 6) (arg s 5) (arg s 0) (arg s 1) = false)
    (hns : overlaps (arg s 6) (arg s 5) (arg s 2) (arg s 3) = false) :
    exec (.pbkdf2 0x01) s = .next (finished .ok
      { s with
        buf := s.buf.write (arg s 6)
          (pbkdf2 (memRead s (arg s 0) (arg s 1)) (memRead s (arg s 2) (arg s 3)) (arg s 4) (arg s 5)) }) := by
  simp [exec, execPbkdf2, legalHash_eq, hc, hd, inRange_eq, hp, hs, ho, hnp, hns, complete_eq, finished, memWrite]

end

/-! ### The derived key -/

/-- The blocks computed reach dkLen bytes, and no fewer do (R170). -/
theorem pbkdf2Blocks_le_iff {d l : Nat} : pbkdf2Blocks d ≤ l ↔ d ≤ 20 * l := by
  unfold pbkdf2Blocks
  omega

theorem le_pbkdf2Blocks (d : Nat) : d ≤ 20 * pbkdf2Blocks d := pbkdf2Blocks_le_iff.mp le_rfl

/-- Any number of blocks that reaches dkLen bytes gives the key: blocks past the last one needed are cut off (R170). -/
theorem pbkdf2_eq_take (p s : List Byte) (c : Nat) {d l : Nat} (h : d ≤ 20 * l) :
    pbkdf2 p s c d = ((List.range l).flatMap fun i => (pbkdf2Block p s c (i + 1)).t).take d := by
  have hlen := le_pbkdf2Blocks d
  obtain ⟨k, rfl⟩ := Nat.exists_eq_add_of_le (pbkdf2Blocks_le_iff.mpr h)
  rw [List.range_add, List.flatMap_append, List.take_append_of_le_length (by rwa [pbkdf2_blocks_length]), pbkdf2]

/-- A derived key is a prefix of every longer one (R174). -/
theorem pbkdf2_eq_take_of_le (p s : List Byte) (c : Nat) {d d' : Nat} (h : d ≤ d') :
    pbkdf2 p s c d = (pbkdf2 p s c d').take d := by
  rw [pbkdf2_eq_take p s c (h.trans (le_pbkdf2Blocks d')), pbkdf2, List.take_take, Nat.min_eq_left h]

/-- One iteration gives `U_1` as the block (R173). -/
theorem pbkdf2Block_one (p s : List Byte) (i : Nat) :
    (pbkdf2Block p s 1 i).t = hmac p (s ++ be32Bytes (BitVec.ofNat 32 i)) := by
  simp only [pbkdf2Block, Nat.sub_self, pbkdf2Rounds, pbkdf2First]

/-- A key of one block's length is the first block (R170). -/
theorem pbkdf2_twenty (p s : List Byte) (c : Nat) : pbkdf2 p s c 20 = (pbkdf2Block p s c 1).t := by
  rw [pbkdf2_eq_take p s c (l := 1) le_rfl]
  simp [List.take_of_length_le]

end Sys2Proof.Machine

namespace Sys2Proof.Proofs

open Sys2Proof.Machine Sys2Proof.Claims

/-- Settles O25: the opcode map has the row, and every check passes. -/
theorem pbkdf2WritesTheDerivedKey : Obligations.Pbkdf2WritesTheDerivedKey :=
  ⟨encodedBy_of_mem (by simp [opcodeTable, algField]), fun _ hc hd =>
    exec_pbkdf2 (Nat.one_le_iff_ne_zero.mp hc) (Nat.one_le_iff_ne_zero.mp hd)⟩

/-- Settles O26: the checks stand in the order of the statement. -/
theorem pbkdf2ErrorsInOrder : Obligations.Pbkdf2ErrorsInOrder := by
  refine fun s alg => ⟨exec_pbkdf2_badAlg s, ?_⟩
  rintro rfl
  exact ⟨exec_pbkdf2_badArg, fun hc hd => ⟨exec_pbkdf2_badRange hc hd, exec_pbkdf2_overlap hc hd⟩⟩

/-- Settles O27: the length, the prefix, and the one block of one iteration, whose index is 1 in big-endian bytes. -/
theorem pbkdf2KeysArePrefixes : Obligations.Pbkdf2KeysArePrefixes := by
  intro p s c d d' hdd
  have hone : be32Bytes (BitVec.ofNat 32 1) = [0x00, 0x00, 0x00, 0x01] := by decide
  refine ⟨pbkdf2_length p s c d, pbkdf2_eq_take_of_le p s c hdd, ?_⟩
  rw [pbkdf2_twenty, pbkdf2Block_one, hone]

end Sys2Proof.Proofs
end

section
/-! PROOFS. The statements of 43_crc32.md: the CRC commands one by one and over any split of a message; the laws they need
stand first. -/

namespace Sys2Proof.Machine

open Sys2Proof.Claims

/-! ### The CRC commands -/

/-- CRC_INIT (R192). -/
theorem exec_crcInit (s : State) : exec .crcInit s = .next (finished .ok { s with crc := crcInitial }) := rfl

theorem exec_crcUpdate_badRange {s : State} (hr : s.config.bufSize.bytes < arg s 0 + arg s 1) :
    exec .crcUpdate s = .next (finished .badRange s) := by
  simp [exec, execCrcUpdate, inRange_eq, hr, raiseError_eq]

/-- CRC_UPDATE with the range in Buf (R193). -/
theorem exec_crcUpdate {s : State} (hr : arg s 0 + arg s 1 ≤ s.config.bufSize.bytes) :
    exec .crcUpdate s = .next (finished .ok { s with crc := crcBytes s.crc (memRead s (arg s 0) (arg s 1)) }) := by
  simp [exec, execCrcUpdate, inRange_eq, hr, complete_eq]

/-- CRC_VALUE reads the register with every bit complemented (R191). -/
theorem hostReadValue_crcValue {s : State} (hp : s.phase ≠ .resetting) :
    hostReadValue s 0x050 = s.crc ^^^ 0xFFFFFFFF :=
  hostReadValue_register (w := 0x050) .crcValue hp (by decide) rfl nofun

/-! ### What the register has taken in -/

/-- The register takes a message in chunk by chunk (R191). -/
theorem crcBytes_append (c : Word) (m d : List Byte) : crcBytes c (m ++ d) = crcBytes (crcBytes c m) d :=
  List.foldl_append

/-- `t` is a state after a completion with OK, with canonical memory and a Buf of size `b`, whose CRC register has taken
in `m` since CRC_INIT. -/
structure HasSummed (b : Config.BufSize) (m : List Byte) (t : State) : Prop where
  bufCanonical : t.buf.wf = true
  bufSize : t.config.bufSize = b
  phase : t.phase = .idle
  errcode : t.errcode = .ok
  crc : t.crc = crcBytes crcInitial m

theorem crcInit_hasSummed {s : State} (hwf : s.buf.wf = true) :
    Answers (exec .crcInit s) (HasSummed s.config.bufSize []) :=
  ⟨_, exec_crcInit s, hwf, rfl, finished_phase _ _, finished_errcode _ _, rfl⟩

/-- CRC_UPDATE of a loaded chunk adds the chunk to what the register has taken in. -/
theorem HasSummed.crcUpdate {b : Config.BufSize} {m c : List Byte} {t : State} (h : HasSummed b m t)
    (hc : c.length ≤ b.bytes) : Answers (exec .crcUpdate (loaded c t)) (HasSummed b (m ++ c)) := by
  obtain ⟨hwf, rfl, -, -, hcrc⟩ := h
  obtain ⟨h0, h1⟩ := arg_loaded hc
  refine ⟨_, exec_crcUpdate (by rw [h0, h1, Nat.zero_add]; exact hc), Memory.wf_write 0 c hwf, rfl,
    finished_phase _ _, finished_errcode _ _, ?_⟩
  have hloaded : (loaded c t).crc = t.crc := rfl
  rw [finished_crc, h0, h1, memRead_loaded hwf, hloaded, hcrc, crcBytes_append]

/-- CRC_VALUE reads the CRC-32 of what the register has taken in (R190, R191). -/
theorem HasSummed.crcValue {b : Config.BufSize} {m : List Byte} {t : State} (h : HasSummed b m t) :
    hostReadValue t 0x050 = t.crc ^^^ 0xFFFFFFFF ∧ hostReadValue t 0x050 = crc32 m := by
  have hread := hostReadValue_crcValue (s := t) (by simp [h.phase])
  exact ⟨hread, by rw [hread, h.crc, crc32]⟩

end Sys2Proof.Machine

namespace Sys2Proof.Proofs

open Sys2Proof.Machine Sys2Proof.Claims

/-- Settles O40: every command of the sequence adds its chunk to what the register has taken in. -/
theorem crcOfAnySplitIsTheChecksum : Obligations.CrcOfAnySplitIsTheChecksum := by
  intro s cs hwf hcs
  have hfed := (crcInit_hasSummed hwf).andThen fun t ht =>
    feed_answers (fun c hc _ _ h => HasSummed.crcUpdate h (hcs c hc)) ht
  obtain ⟨t, hrun, ht⟩ := hfed
  exact ⟨t, hrun, ht.errcode, ht.crcValue⟩

/-- Settles O29: the register right after CRC_INIT is the complement of 0, and taking in nothing leaves the register. -/
theorem crcCommandsCompute : Obligations.CrcCommandsCompute := by
  refine ⟨encodedBy_of_mem (by simp [opcodeTable]), encodedBy_of_mem (by simp [opcodeTable]), fun s =>
    ⟨exec_crcInit s, ⟨_, exec_crcInit s, ?_⟩, exec_crcUpdate_badRange, fun hr => ⟨exec_crcUpdate hr, fun hn => ?_⟩⟩⟩
  · exact (hostReadValue_crcValue (by simp)).trans BitVec.xor_self
  · have hnil : memRead s (arg s 0) (arg s 1) = [] := by rw [hn]; rfl
    rw [exec_crcUpdate hr, hnil]
    rfl

end Sys2Proof.Proofs
end

section
/-! PROOFS. The statements of 44_cipher_adapter.md: CIPHER_KEY, CIPHER_BLOCK and the success of XTS_PROCESS, over any cipher
table and on this hardware; the laws they need stand first. -/

namespace Sys2Proof.Machine

open Sys2Proof.Claims

/-! ### The functions of a slot -/

section
variable {ciphers : List Config.CipherRow} {k : Slot} {core : Config.CipherCore}

/-- A slot keyed ENC runs the encrypting function of its algorithm (R202). -/
theorem Slot.cipher_of_enc (hm : k.mode = .enc) (hc : cipherCore ciphers k.alg = core) (x : Block) :
    k.cipher ciphers x = core.enc k.key x := by
  rw [Slot.cipher, hm, hc]

/-- A slot keyed DEC runs the decrypting function of its algorithm (R202). -/
theorem Slot.cipher_of_dec (hm : k.mode = .dec) (hc : cipherCore ciphers k.alg = core) (x : Block) :
    k.cipher ciphers x = core.dec k.key x := by
  rw [Slot.cipher, hm, hc]

end

/-- With this hardware's table every id has AES-256's functions (R201). -/
theorem cipherCore_of_hardware {ciphers : List Config.CipherRow} (h : ciphers = Config.hardware.ciphers) (alg : Byte) :
    cipherCore ciphers alg = .aes256 :=
  h ▸ cipherCore_hardware alg

/-! ### CIPHER_KEY -/

theorem cipherRow_eq_none_iff {ciphers : List Config.CipherRow} {alg : Byte} :
    cipherRow ciphers alg = none ↔ ∀ row ∈ ciphers, row.alg ≠ alg := by
  simp [cipherRow]

section
variable {alg : Byte} {mode : CipherMode} {n : SlotId} {s : State} {len : Nat}

theorem exec_cipherKey_badAlg (h : cipherRow s.config.ciphers alg = none) :
    exec (.cipherKey alg mode n) s = .next (finished .badAlg s) := by
  simp [exec, execCipherKey, legalCipher_eq, h, raiseError_eq]

variable (hlegal : legalCipher s.config.ciphers alg = true) (hlen : keySize s.config.ciphers alg = len)
include hlegal hlen

theorem exec_cipherKey_badRange (hr : s.config.bufSize.bytes < arg s 0 + len) :
    exec (.cipherKey alg mode n) s = .next (finished .badRange s) := by
  simp [exec, execCipherKey, hlegal, hlen, inRange_eq, hr, raiseError_eq]

/-- CIPHER_KEY of a listed algorithm, whose key has `len` bytes, with the key in Buf (R203). -/
theorem exec_cipherKey (hr : arg s 0 + len ≤ s.config.bufSize.bytes) :
    exec (.cipherKey alg mode n) s = .next (finished .ok
      { s.setSlot n { loaded := true, alg := alg, mode := mode, key := toVec 32 (memRead s (arg s 0) len) } with
        xtsBound := false }) := by
  simp [exec, execCipherKey, hlegal, hlen, inRange_eq, hr, complete_eq]

end

/-! ### CIPHER_BLOCK: its errors, and the block it writes -/

section
variable {n : SlotId} {s : State}

theorem exec_cipherBlock_notKeyed (hl : (s.slot n).loaded = false) :
    exec (.cipherBlock n) s = .next (finished .notKeyed s) := by
  simp [exec, execCipherBlock, hl, raiseError_eq]

theorem exec_cipherBlock_badRange (hl : (s.slot n).loaded = true)
    (hr : arg s 0 + 16 > s.config.bufSize.bytes ∨ arg s 1 + 16 > s.config.bufSize.bytes) :
    exec (.cipherBlock n) s = .next (finished .badRange s) := by
  have hout : (inRange s.config.bufSize (arg s 0) 16 && inRange s.config.bufSize (arg s 1) 16) = false := by
    simp only [inRange_eq, ← Bool.decide_and, decide_eq_false_iff_not]
    omega
  simp [exec, execCipherBlock, hl, hout, raiseError_eq]

section
variable (hl : (s.slot n).loaded = true) (hsrc : arg s 0 + 16 ≤ s.config.bufSize.bytes)
  (hdst : arg s 1 + 16 ≤ s.config.bufSize.bytes)
include hl hsrc hdst

/-- `exec_cipherBlock` with the slot cipher's output given. -/
theorem exec_cipherBlock_of_cipher {y : Block}
    (hy : (s.slot n).cipher s.config.ciphers (toVec 16 (memRead s (arg s 0) 16)) = y) :
    exec (.cipherBlock n) s = .next (finished .ok { s with buf := s.buf.write (arg s 1) y.toList }) := by
  rw [exec_cipherBlock hl hsrc hdst, hy, memWrite]

/-- CIPHER_BLOCK in each direction, by the functions of the slot's algorithm (R202, R204). -/
theorem exec_cipherBlock_of_core {core : Config.CipherCore} (hc : cipherCore s.config.ciphers (s.slot n).alg = core) :
    ((s.slot n).mode = .enc → exec (.cipherBlock n) s = .next (finished .ok { s with
      buf := s.buf.write (arg s 1) (core.enc (s.slot n).key (toVec 16 (memRead s (arg s 0) 16))).toList })) ∧
    ((s.slot n).mode = .dec → exec (.cipherBlock n) s = .next (finished .ok { s with
      buf := s.buf.write (arg s 1) (core.dec (s.slot n).key (toVec 16 (memRead s (arg s 0) 16))).toList })) :=
  ⟨fun hm => exec_cipherBlock_of_cipher hl hsrc hdst (Slot.cipher_of_enc hm hc _),
    fun hm => exec_cipherBlock_of_cipher hl hsrc hdst (Slot.cipher_of_dec hm hc _)⟩

end

end

/-! ### XTS_PROCESS with every check passed -/

/-- XTS_PROCESS when bound, with its operands legal (R224): the loop's memory, and RESULT0-RESULT2 at the position after
the last sub-block; the completion zeroizes the scratch (R229). -/
theorem exec_xtsProcess {s : State} (hb : s.xtsBound = true) (hj : arg s 4 ≤ 31) (hl : arg s 1 % 16 = 0)
    (hr : arg s 0 + arg s 1 ≤ s.config.bufSize.bytes) :
    exec .xtsProcess s = .next (finished .ok
      { s with
        buf := xtsRun s (startUnit s) (arg s 1 / 16) (arg s 4) (arg s 0) s.buf
        result0 := (unitOf (startUnit s) (arg s 4 + arg s 1 / 16)).extractLsb' 0 32
        result1 := (unitOf (startUnit s) (arg s 4 + arg s 1 / 16)).extractLsb' 32 32
        result2 := BitVec.ofNat 32 ((arg s 4 + arg s 1 / 16) % 32) }) := by
  simp [exec, execXtsProcess, hb, hj, hl, inRange_eq, hr, complete_eq, finished]

/-- RESULT2 holds a sub-block index exactly (R228). -/
theorem toNat_subBlockIndex (g : Nat) : (BitVec.ofNat 32 (g % 32)).toNat = g % 32 := by
  rw [BitVec.toNat_ofNat]
  omega

end Sys2Proof.Machine

namespace Sys2Proof.Proofs

open Sys2Proof.Machine Sys2Proof.Claims

/-- Settles O34: the loop transforms sub-block by sub-block and keeps every byte outside its range. -/
theorem xtsProcessTransformsEachSubBlock : Obligations.XtsProcessTransformsEachSubBlock := by
  intro s hwf hb hj hl hr core cipher
  refine ⟨fun hc k => ?_, _, exec_xtsProcess hb hj hl hr, finished_errcode _ _, fun k hk => ?_, fun a ha => ?_,
    halves_append _, toNat_subBlockIndex _, rfl, rfl, rfl, rfl, rfl, hb⟩
  · have hcore : core k.alg = .aes256 := cipherCore_of_hardware hc k.alg
    rw [hcore]
    exact ⟨rfl, rfl⟩
  · exact xtsRun_read s (startUnit s) _ _ _ k s.buf hwf hk
  · exact xtsRun_get_outside s _ _ _ _ _ a hwf (by omega)

/-- Settles O30: the opcode map has the row, the checks stand in their order, and 0x01, with 32 key bytes, is the one id
of this hardware. -/
theorem cipherKeyLoadsASlot : Obligations.CipherKeyLoadsASlot := by
  refine ⟨encodedBy_of_mem (by simp [opcodeTable, algField, modeField, slotField]), fun s mode =>
    ⟨fun alg n h => exec_cipherKey_badAlg (cipherRow_eq_none_iff.mpr h), fun alg row hrow => ?_, fun hc => ?_⟩⟩
  · have hlegal : legalCipher s.config.ciphers alg = true := legalCipher_of_row hrow
    have hlen : keySize s.config.ciphers alg = row.keyBytes.val := keySize_of_row hrow
    exact ⟨fun n => exec_cipherKey_badRange hlegal hlen,
      fun hr => ⟨exec_cipherKey hlegal hlen hr, exec_cipherKey hlegal hlen hr⟩⟩
  · have hnone : ∀ alg, alg ≠ 0x01 → cipherRow s.config.ciphers alg = none := fun alg ha => by
      rw [hc, cipherRow_hardware, if_neg ha]
    have hrow : cipherRow s.config.ciphers 0x01 = some Config.aes256Row := by rw [hc, cipherRow_hardware, if_pos rfl]
    have hlegal : legalCipher s.config.ciphers 0x01 = true := legalCipher_of_row hrow
    have hlen : keySize s.config.ciphers 0x01 = 32 := keySize_of_row hrow
    exact ⟨fun alg n ha => exec_cipherKey_badAlg (hnone alg ha), fun n => exec_cipherKey_badRange hlegal hlen,
      fun hr => ⟨exec_cipherKey hlegal hlen hr, exec_cipherKey hlegal hlen hr⟩⟩

/-- Settles O31: the opcode map has the row, the checks stand in their order, and the slot's direction picks the function
of its algorithm. -/
theorem cipherBlockRunsOneBlock : Obligations.CipherBlockRunsOneBlock :=
  ⟨encodedBy_of_mem (by simp [opcodeTable, slotField]), fun _ _ => ⟨exec_cipherBlock_notKeyed,
    exec_cipherBlock_badRange, fun hl hsrc hdst =>
      ⟨fun _ hrow => exec_cipherBlock_of_core hl hsrc hdst (cipherCore_of_row hrow),
        fun hc => exec_cipherBlock_of_core hl hsrc hdst (cipherCore_of_hardware hc _)⟩⟩⟩

end Sys2Proof.Proofs
end

section
/-! PROOFS. The statements of 45_xts.md: XTS_INIT, the errors of XTS_PROCESS, the doubler, and what calls of XTS_PROCESS
one after another compute; the laws they need stand first. -/

namespace Sys2Proof.Machine

open Sys2Proof.Claims

/-! ### XTS_INIT -/

/-- The two slots can be bound for XTS (R223). -/
structure State.SlotsMatch (s : State) : Prop where
  loaded0 : s.slot0.loaded = true
  loaded1 : s.slot1.loaded = true
  alg : s.slot0.alg = s.slot1.alg
  blockSize : cipherBlockSize s.config.ciphers s.slot0.alg = 16

section
variable {s : State}

/-- XTS_INIT over slots that match (R223). -/
theorem exec_xtsInit (h : s.SlotsMatch) : exec .xtsInit s = .next (finished .ok { s with xtsBound := true }) := by
  obtain ⟨h0, h1, halg, hsize⟩ := h
  simp [exec, execXtsInit, h0, h1, ← halg, hsize, complete_eq]

/-- XTS_INIT over any other slots (R223). -/
theorem exec_xtsInit_mismatch (h : ¬ s.SlotsMatch) : exec .xtsInit s = .next (finished .xtsMismatch s) := by
  simp only [exec, execXtsInit]
  split
  next => exact raiseError_eq _ _
  next hloaded =>
    split
    next => exact raiseError_eq _ _
    next halg =>
      split
      next => exact raiseError_eq _ _
      next hsize =>
        obtain ⟨h0, h1⟩ : s.slot0.loaded = true ∧ s.slot1.loaded = true := by simpa using hloaded
        obtain ⟨h16, -⟩ : cipherBlockSize s.config.ciphers s.slot0.alg = 16 ∧
            cipherBlockSize s.config.ciphers s.slot1.alg = 16 := by simpa using hsize
        exact absurd ⟨h0, h1, by simpa using halg, h16⟩ h

end

/-- With this hardware's table a sound loaded slot is one of AES-256 (R201). -/
theorem Slot.alg_of_hardware {ciphers : List Config.CipherRow} {k : Slot} (hc : ciphers = Config.hardware.ciphers)
    (hwf : k.wf ciphers = true) (hl : k.loaded = true) : k.alg = 0x01 := by
  simpa [Slot.wf, hl, hc, legalCipher_eq, cipherRow_hardware] using hwf

/-- On this hardware sound loaded slots match: AES-256 is the one algorithm, and its blocks have 16 bytes (R201, R223). -/
theorem State.slotsMatch_of_hardware {s : State} (hc : s.config.ciphers = Config.hardware.ciphers)
    (hwf0 : s.slot0.wf s.config.ciphers = true) (hwf1 : s.slot1.wf s.config.ciphers = true)
    (hl0 : s.slot0.loaded = true) (hl1 : s.slot1.loaded = true) : s.SlotsMatch := by
  have h0 : s.slot0.alg = 0x01 := Slot.alg_of_hardware hc hwf0 hl0
  have h1 : s.slot1.alg = 0x01 := Slot.alg_of_hardware hc hwf1 hl1
  refine ⟨hl0, hl1, h0.trans h1.symm, ?_⟩
  rw [h0, hc]
  rfl

/-! ### The errors of XTS_PROCESS -/

section
variable {s : State}

theorem exec_xtsProcess_notReady (hb : s.xtsBound = false) :
    exec .xtsProcess s = .next (finished .xtsNotReady s) := by
  simp [exec, execXtsProcess, hb, raiseError_eq]

theorem exec_xtsProcess_badArg (hb : s.xtsBound = true) (hj : arg s 4 > 31) :
    exec .xtsProcess s = .next (finished .badArg s) := by
  simp [exec, execXtsProcess, hb, hj, raiseError_eq]

theorem exec_xtsProcess_badLength (hb : s.xtsBound = true) (hj : arg s 4 ≤ 31) (hl : arg s 1 % 16 ≠ 0) :
    exec .xtsProcess s = .next (finished .badLength s) := by
  simp [exec, execXtsProcess, hb, hj, hl, raiseError_eq]

theorem exec_xtsProcess_badRange (hb : s.xtsBound = true) (hj : arg s 4 ≤ 31) (hl : arg s 1 % 16 = 0)
    (hr : arg s 0 + arg s 1 > s.config.bufSize.bytes) :
    exec .xtsProcess s = .next (finished .badRange s) := by
  simp [exec, execXtsProcess, hb, hj, hl, inRange_eq, hr, raiseError_eq]

end

/-! ### The doubler on numbers -/

theorem littleEndian_append (b c : List Byte) :
    littleEndian (b ++ c) = littleEndian b + 256 ^ b.length * littleEndian c := by
  induction b with
  | nil => simp [littleEndian]
  | cons x b ih =>
    rw [List.cons_append, littleEndian, littleEndian, ih, List.length_cons, Nat.pow_succ]
    ring

/-- `le32` is the number that four bytes stand for (R12). -/
theorem le32_toNat {b : List Byte} (h : 4 ≤ b.length) : (le32 b).toNat = littleEndian (b.take 4) := by
  match b, h with
  | b0 :: b1 :: b2 :: b3 :: b, _ =>
    simp only [le32, byteAt, List.getD_cons_zero, List.getD_cons_succ, append_toNat, List.take, littleEndian]
    omega

/-- `le64` is the number that eight bytes stand for (R12). -/
theorem le64_toNat {b : List Byte} (h : 8 ≤ b.length) : (le64 b).toNat = littleEndian (b.take 8) := by
  have hlow : (le32 b).toNat = littleEndian (b.take 4) := le32_toNat (by omega)
  have hhigh : (le32 (b.drop 4)).toNat = littleEndian ((b.drop 4).take 4) := le32_toNat (by simp; omega)
  have hlen : (b.take 4).length = 4 := by simp; omega
  rw [le64, append_toNat, hlow, hhigh, show 8 = 4 + 4 from rfl, List.take_add, littleEndian_append, hlen]
  omega

/-- A tweak's 128-bit value is the number that its bytes stand for (R220). -/
theorem tweakValue_toNat (t : Block) : (tweakValue t).toNat = littleEndian t.toList := by
  have hlen : t.toList.length = 16 := Vector.length_toList
  have hlow : (le64 t.toList).toNat = littleEndian (t.toList.take 8) := le64_toNat (by omega)
  have hhigh : (le64 (t.toList.drop 8)).toNat = littleEndian (t.toList.drop 8) := by
    rw [le64_toNat (by simp), List.take_of_length_le (by simp)]
  have hsplit : littleEndian t.toList = littleEndian (t.toList.take 8) + 256 ^ 8 * littleEndian (t.toList.drop 8) := by
    conv_lhs => rw [← List.take_append_drop 8 t.toList, littleEndian_append]
    simp
  rw [tweakValue, append_toNat, hlow, hhigh, hsplit]
  omega

/-- Bit 127 says whether twice the value fits in 128 bits. -/
theorem getLsbD_127_eq (v : BitVec 128) : v.getLsbD 127 = decide (2 ^ 127 ≤ v.toNat) :=
  BitVec.msb_eq_decide v

theorem shiftLeft_one_toNat (v : BitVec 128) : (v <<< 1).toNat = 2 * v.toNat % 2 ^ 128 := by
  rw [BitVec.toNat_shiftLeft, Nat.shiftLeft_eq, Nat.mul_comm, Nat.pow_one]

theorem doubleValue_toNat_of_lt {v : BitVec 128} (h : v.toNat < 2 ^ 127) : (doubleValue v).toNat = 2 * v.toNat := by
  have hbit : v.getLsbD 127 = false := by rw [getLsbD_127_eq, decide_eq_false (Nat.not_le_of_lt h)]
  rw [doubleValue, hbit, if_neg Bool.false_ne_true, shiftLeft_one_toNat]
  omega

theorem doubleValue_toNat_of_le {v : BitVec 128} (h : 2 ^ 127 ≤ v.toNat) :
    (doubleValue v).toNat = (2 * v.toNat - 2 ^ 128) ^^^ 135 := by
  have hbit : v.getLsbD 127 = true := by rw [getLsbD_127_eq, decide_eq_true h]
  have hshift : (v <<< 1).toNat = 2 * v.toNat - 2 ^ 128 := by
    rw [shiftLeft_one_toNat]
    omega
  rw [doubleValue, if_pos hbit, BitVec.toNat_xor, hshift]
  rfl

/-- The doubler on the number that a tweak's bytes stand for is the doubler on its 128-bit value (R220). -/
theorem littleEndian_double (t : Block) :
    littleEndian (double t).toList = (doubleValue (tweakValue t)).toNat := by
  rw [← tweakValue_toNat, double, tweakValue_tweakBytes]

/-! ### XTS_PROCESS call after call -/

/-- `t` has the configuration, the slots and the binding that a stream of sub-blocks needs as `s` has them; RESULT0-RESULT2
hold the position of global sub-block `g`, counted from unit `u`, and Buf is `m`. -/
structure StandsAt (s : State) (u : DWord) (g : Nat) (m : Memory) (t : State) : Prop where
  config : t.config = s.config
  slot0 : t.slot0 = s.slot0
  slot1 : t.slot1 = s.slot1
  xtsBound : t.xtsBound = true
  result0 : t.result0 = (unitOf u g).extractLsb' 0 32
  result1 : t.result1 = (unitOf u g).extractLsb' 32 32
  result2 : t.result2 = BitVec.ofNat 32 (g % 32)
  buf : t.buf = m

/-- Every bound state stands at the position that its RESULT0-RESULT2 hold. -/
theorem StandsAt.start {s : State} (hb : s.xtsBound = true) (hr : s.result2.toNat ≤ 31) :
    StandsAt s (s.result1 ++ s.result0 : BitVec (32 + 32)) s.result2.toNat s.buf s := by
  have hunit : unitOf (s.result1 ++ s.result0 : BitVec (32 + 32)) s.result2.toNat = s.result1 ++ s.result0 := by
    rw [unitOf, Nat.div_eq_of_lt (by omega)]
    exact BitVec.add_zero _
  refine ⟨rfl, rfl, rfl, hb, ?_, ?_, ?_, rfl⟩
  · rw [hunit]
    exact (BitVec.extractLsb'_append_eq_right).symm
  · rw [hunit]
    exact (BitVec.extractLsb'_append_eq_left).symm
  · rw [Nat.mod_eq_of_lt (by omega), BitVec.ofNat_toNat, BitVec.setWidth_eq]

/-- A call of `n` sub-blocks from the position that RESULT0-RESULT2 hold moves the position on by `n`, and carries the run
of the stream on (R226). -/
theorem StandsAt.xtsProcess {s t : State} {u : DWord} {g a n : Nat} {m : Memory} (h : StandsAt s u g m t)
    (hr : a + 16 * n ≤ s.config.bufSize.bytes) :
    Answers (exec .xtsProcess (withArgs (xtsArgs a (16 * n) t.result0 t.result1 t.result2) t)) fun t' =>
      t'.errcode = .ok ∧ StandsAt s u (g + n) (xtsRun s u n g a m) t' := by
  obtain ⟨hconfig, h0, h1, hb, hres0, hres1, hres2, hbuf⟩ := h
  set t₁ := withArgs (xtsArgs a (16 * n) t.result0 t.result1 t.result2) t
  have haddr : arg t₁ 0 = a := Nat.mod_eq_of_lt (lt_word_of_le_bufSize hr)
  have hlen : arg t₁ 1 = 16 * n := Nat.mod_eq_of_lt (lt_word_of_le_bufSize (Nat.add_comm a _ ▸ hr))
  have hindex : arg t₁ 4 = g % 32 := (congrArg BitVec.toNat hres2).trans (toNat_subBlockIndex g)
  have hunit : startUnit t₁ = unitOf u g := by
    have hstart : startUnit t₁ = t.result1 ++ t.result0 := rfl
    rw [hstart, hres0, hres1]
    exact halves_append _
  have hcount : arg t₁ 1 / 16 = n := by omega
  have hcfg : t₁.config = s.config := hconfig
  have hrun : xtsRun t₁ (unitOf u g) n (g % 32) a t₁.buf = xtsRun s u n g a m := by
    have hbuf₁ : t₁.buf = m := hbuf
    rw [hbuf₁, xtsRun_congr t₁ s (by rw [hcfg]) h0 (congrArg Slot.alg h1) (congrArg Slot.key h1)]
    exact xtsRun_resume s u n g 0 a m
  refine ⟨_, exec_xtsProcess hb (by omega) (by omega) (by rw [hcfg]; omega), finished_errcode _ _, ?_⟩
  rw [haddr, hindex, hunit, hcount, hrun, unitOf_resume, Nat.mod_add_mod]
  exact ⟨hconfig, h0, h1, hb, rfl, rfl, rfl, rfl⟩

/-- Calls over adjoining ranges move the position on by all their sub-blocks, and make one run (R227). -/
theorem StandsAt.xtsChain {s t : State} {u : DWord} {ns : List Nat} {g a : Nat} {m : Memory} (h : StandsAt s u g m t)
    (hr : a + 16 * ns.sum ≤ s.config.bufSize.bytes) :
    Answers (xtsChain ns a t) (StandsAt s u (g + ns.sum) (xtsRun s u ns.sum g a m)) := by
  induction ns generalizing g a m t with
  | nil => exact ⟨t, rfl, h⟩
  | cons n ns ih =>
    rw [List.sum_cons] at hr ⊢
    rw [xtsRun_add, ← Nat.add_assoc]
    exact (h.xtsProcess (n := n) (by omega)).andThen fun t₁ ⟨_, h₁⟩ => ih h₁ (by omega)

/-- Two states that stand at one position of one stream have the same Buf and the same RESULT0-RESULT2. -/
theorem StandsAt.agree {s t t' : State} {u : DWord} {g : Nat} {m : Memory} (h : StandsAt s u g m t)
    (h' : StandsAt s u g m t') :
    t'.buf = t.buf ∧ t'.result0 = t.result0 ∧ t'.result1 = t.result1 ∧ t'.result2 = t.result2 :=
  ⟨h'.buf.trans h.buf.symm, h'.result0.trans h.result0.symm, h'.result1.trans h.result1.symm,
    h'.result2.trans h.result2.symm⟩

/-! ### A run that undoes another -/

/-- Memories that agree on a range agree on each of its bytes. -/
theorem Memory.get_eq_of_read_eq {m m' : Memory} {a n x : Nat} (h : m.read a n = m'.read a n) (ha : a ≤ x)
    (hx : x < a + n) : m.get x = m'.get x := by
  obtain ⟨i, rfl⟩ := Nat.exists_eq_add_of_le ha
  rw [← Memory.read_getElem m a n i (by simp; omega), ← Memory.read_getElem m' a n i (by simp; omega)]
  simp only [h]

/-- If each sub-block of the one state undoes that of the other, so does the run over a range (R230). -/
theorem xtsRun_xtsRun_cancel {s s' : State} (hinv : ∀ p u j, s'.xtsBlock (s.xtsBlock p u j) u j = p) (u : DWord)
    (n g a : Nat) {m : Memory} (h : m.wf = true) : xtsRun s' u n g a (xtsRun s u n g a m) = m := by
  have hwf := xtsRun_wf s u n g a m h
  refine Memory.ext (xtsRun_wf s' u n g a _ hwf) h fun x => ?_
  by_cases hx : a ≤ x ∧ x < a + 16 * n
  · obtain ⟨k, hk, hlo, hhi⟩ : ∃ k, k < n ∧ a + 16 * k ≤ x ∧ x < a + 16 * k + 16 := ⟨(x - a) / 16, by omega⟩
    refine Memory.get_eq_of_read_eq ?_ hlo hhi
    rw [xtsRun_read s' u n g a k _ hwf hk, xtsRun_read s u n g a k m h hk, toVec_toList, hinv]
    exact toList_toVec 16 _ (Memory.read_length _ _ _)
  · rw [xtsRun_get_outside s' u n g a _ x hwf (by omega), xtsRun_get_outside s u n g a m x h (by omega)]

end Sys2Proof.Machine

namespace Sys2Proof.Proofs

open Sys2Proof.Machine Sys2Proof.Claims

/-- Settles O43: the one call and the chain of calls stand at the same position of the same stream. -/
theorem xtsCallsCompose : Obligations.XtsCallsCompose := by
  intro s ns a hb hj hr
  have hstart := StandsAt.start hb hj
  obtain ⟨t, hcall, hok, ht⟩ := hstart.xtsProcess hr
  obtain ⟨t', hchain, ht'⟩ := hstart.xtsChain hr
  exact ⟨t, hcall, t', hchain, hok, ht.agree ht'⟩

/-- Settles O44: both runs have one start position, and under one tweak the DEC sub-block undoes the ENC one. -/
theorem xtsDecryptsWhatItEncrypted : Obligations.XtsDecryptsWhatItEncrypted := by
  intro s mode hwf hb hm hc hj hl hr
  refine ⟨_, exec_xtsProcess hb hj hl hr, _, exec_xtsProcess hb hj hl hr, finished_errcode _ _, ?_⟩
  refine xtsRun_xtsRun_cancel (fun p u j => ?_) _ _ _ _ hwf
  refine xtsBlock_dec_enc _ _ ?_ hc hm ?_ ?_ ?_ ?_ ?_ p u j <;> rfl

/-- Settles O42, on the tweak's 128-bit value: whether bit 127 falls out decides between the two clauses. -/
theorem doublerShiftsAndReduces : Obligations.DoublerShiftsAndReduces := by
  intro t
  rw [littleEndian_double, ← tweakValue_toNat]
  exact ⟨doubleValue_toNat_of_lt, doubleValue_toNat_of_le, rfl, fun _ => rfl⟩

/-- Settles O33: the opcode map has the row, and the checks stand in their order. -/
theorem xtsProcessErrorsInOrder : Obligations.XtsProcessErrorsInOrder :=
  ⟨encodedBy_of_mem (by simp [opcodeTable]), fun _ => ⟨exec_xtsProcess_notReady, exec_xtsProcess_badArg,
    exec_xtsProcess_badLength, exec_xtsProcess_badRange⟩⟩

/-- Settles O32: each mismatch is a way for the slots not to match, and on this hardware sound loaded slots match. -/
theorem xtsInitBindsTwoLoadedSlots : Obligations.XtsInitBindsTwoLoadedSlots := by
  refine ⟨encodedBy_of_mem (by simp [opcodeTable]), fun s => ⟨fun h => ?_, fun h => ?_, fun h => ?_,
    fun h0 h1 halg hsize => exec_xtsInit ⟨h0, h1, halg, hsize⟩, fun _ _ => cipherBlockSize_of_row,
    fun hc hwf0 hwf1 h0 h1 => exec_xtsInit (State.slotsMatch_of_hardware hc hwf0 hwf1 h0 h1)⟩⟩
  · refine exec_xtsInit_mismatch fun hmatch => ?_
    simp [hmatch.loaded0, hmatch.loaded1] at h
  · exact exec_xtsInit_mismatch fun hmatch => h hmatch.alg
  · refine exec_xtsInit_mismatch fun hmatch => ?_
    simp [← hmatch.alg, hmatch.blockSize] at h

end Sys2Proof.Proofs
end

section
/-! PROOFS. The statements of 46_control.md: NOP, ERASE and ERASE_BUF; the laws they need stand first. -/

namespace Sys2Proof.Machine

/-- NOP (R250). -/
theorem exec_nop (s : State) : exec .nop s = .next (finished .ok s) := rfl

/-- ERASE (R251). -/
theorem exec_erase (m : BitVec 4) (s : State) : exec (.erase m) s = .next (finished .ok (erased m s)) := rfl

/-- Mask bit 2 stands for both slots. -/
@[simp] theorem erased_slot (m : BitVec 4) (s : State) (n : SlotId) :
    (erased m s).slot n = if m.getLsbD 2 then Slot.empty else s.slot n := by
  cases n
  case slot0 => exact erased_slot0 m s
  case slot1 => exact erased_slot1 m s

theorem exec_eraseBuf_badRange {s : State} (hr : s.config.bufSize.bytes < arg s 0 + arg s 1) :
    exec .eraseBuf s = .next (finished .badRange s) := by
  simp [exec, execEraseBuf, inRange_eq, hr, raiseError_eq]

/-- ERASE_BUF with the range in Buf (R252). -/
theorem exec_eraseBuf {s : State} (hr : arg s 0 + arg s 1 ≤ s.config.bufSize.bytes) :
    exec .eraseBuf s = .next (finished .ok (memWrite s (arg s 0) (zeros (arg s 1)))) := by
  simp [exec, execEraseBuf, inRange_eq, hr, complete_eq]

/-- What reads back after zeros are written over a range. -/
theorem Memory.get_write_zeros {m : Memory} (a n x : Nat) (h : m.wf = true) :
    (m.write a (zeros n)).get x = if a ≤ x ∧ x < a + n then 0 else m.get x := by
  simp only [Memory.get_write a _ x h, zeros_length]
  split
  · simp [zeros]
  · rfl

end Sys2Proof.Machine

namespace Sys2Proof.Proofs

open Sys2Proof.Machine Sys2Proof.Claims

/-- Settles O35: what each mask bit does to its part of the state, read off the erased state. -/
theorem eraseZeroizesTheSelectedContexts : Obligations.EraseZeroizesTheSelectedContexts := by
  refine ⟨encodedBy_of_mem (by simp [opcodeTable, selField]), fun m s =>
    ⟨_, exec_erase m s, finished_errcode _ _, erased_hctx m s, erased_mctx m s,
      fun n => (finished_slot .ok (erased m s) n).trans (erased_slot m s n), ?_, erased_crc m s, rfl, rfl, rfl, rfl, rfl⟩⟩
  rw [finished_xtsBound, erased_xtsBound]
  cases m.getLsbD 2 <;> simp

/-- Settles O17: the opcode map has the row, and NOP completes the state as it is. -/
theorem nopCompletes : Obligations.NopCompletes :=
  ⟨encodedBy_of_mem (by simp [opcodeTable]), exec_nop⟩

/-- Settles O36: the range check, and what a written range of zeros reads. -/
theorem eraseBufZeroFills : Obligations.EraseBufZeroFills :=
  ⟨encodedBy_of_mem (by simp [opcodeTable]), fun _ => ⟨exec_eraseBuf_badRange, fun hr =>
    ⟨exec_eraseBuf hr, fun hwf => ⟨_, exec_eraseBuf hr, fun a => Memory.get_write_zeros _ _ a hwf⟩⟩⟩⟩

end Sys2Proof.Proofs
end

section
/-! PROOFS. The statements of 60_exceptions.md and 70_reset_and_hazards.md: the acceptance of a command, the RESETTING phase,
the hardware reset, and re-keying under a bound XTS; the laws they need stand first. -/

namespace Sys2Proof.Machine

/-! ### The interrupt line and the CMD register -/

/-- `irq` waits for DONE (R270). -/
theorem State.irq_of_not_done {s : State} (h : s.done = false) : s.irq = false := by
  rw [State.irq, h, Bool.and_false]

/-- R28 and R261. -/
theorem writeCmd_idle {w : Word} {s : State} (h : s.phase = .idle) : writeCmd w s = accepted w s := if_pos h

/-- R267. -/
theorem writeCmd_busy {w : Word} {s : State} (h : s.phase = .busy) : writeCmd w s = { s with overrun := true } :=
  if_neg (by simp [h])

/-! ### Reads while RESETTING -/

/-- Only the four bytes of STATUS's word name it (R22, R63). -/
theorem offset_of_locate_status {b : Config.BufSize} {o : BitVec 16} (h : locate b o = .status) : o &&& 0xFFFC = 0x00C :=
  BitVec.eq_of_toNat_eq ((offset_toNat o).trans (standsAt_of_locate h))

/-- What a read returns while RESETTING, and that it does nothing else (R292). -/
theorem hostRead_while_resetting {s : State} (o : BitVec 16) (hp : s.phase = .resetting) :
    hostRead o s = { s with rdata := if o &&& 0xFFFC = 0x00C then 0x00000021 else 0x00000000 } := by
  by_cases ho : o &&& 0xFFFC = 0x00C
  · rw [hostRead, readMark_resetting hp, hostReadValue_resetting_status hp ho, if_pos ho]
  · rw [hostRead_resetting hp fun hl => ho (offset_of_locate_status hl), if_neg ho]

/-! ### The pin, and the engine's turn while RESETTING -/

theorem step_rstLow {s : State} {rest : List Event} (h : s.pending = .rstLow :: rest) :
    step s = .next (rstFell { s with pending := rest }) := step_event h

theorem step_rstHigh {s : State} {rest : List Event} (h : s.pending = .rstHigh :: rest) :
    step s = .next (rstRose { s with pending := rest }) := step_event h

section
variable {s : State} {rest : List Event} (hp : s.phase = .resetting)
  (hturn : (s.pending = [] ∧ rest = []) ∨ s.pending = .engine :: rest)
include hp hturn

theorem step_resetting :
    step s = .next (if s.rstN then resetEnded { s with pending := rest } else { s with pending := rest }) :=
  (step_engineTurn hturn).trans (engineTurn_resetting hp)

/-- With `rst_n` high the engine's turn ends the reset (R293). -/
theorem step_resetEnds (hpin : s.rstN = true) :
    step s = .next { State.resetOf s.config with pending := rest, rdata := s.rdata } := by
  rw [step_resetting hp hturn, if_pos hpin, resetEnded_eq]
  simp [hpin]

/-- With `rst_n` low the engine's turn leaves the engine RESETTING (R293, log entry 2). -/
theorem step_resetWaits (hpin : s.rstN = false) : step s = .next { s with pending := rest } := by
  rw [step_resetting hp hturn, if_neg (by simp [hpin])]

end

end Sys2Proof.Machine

namespace Sys2Proof.Proofs

open Sys2Proof.Machine Sys2Proof.Claims

/-- Settles O55: writes and reads have no effect in that phase, and the invariant keeps DONE clear there. -/
theorem nothingWorksWhileResetting : Obligations.NothingWorksWhileResetting := by
  refine fun s offset rest hp => ⟨fun v strb hpend => ?_, fun hpend => ?_, fun hinv => ?_⟩
  · exact (step_event hpend).trans (congrArg Host.Outcome.next (hostWrite_resetting hp))
  · exact (step_event hpend).trans (congrArg Host.Outcome.next (hostRead_while_resetting offset hp))
  · obtain ⟨-, hdone, -⟩ := hinv.resettingStatus hp
    exact State.irq_of_not_done hdone

/-- Settles O57: `rst_n` low starts the reset, the engine's first turn waits for the pin, and its second ends the reset. -/
theorem hardwareResetWaitsForThePin : Obligations.HardwareResetWaitsForThePin := by
  refine fun s rest => ⟨fun hpend => ?_, fun hp hturn => ⟨step_resetEnds hp hturn, step_resetWaits hp hturn⟩⟩
  have hlow : step s = .next (rstFell { s with pending := .engine :: .rstHigh :: .engine :: rest }) := step_rstLow hpend
  have hwait : step (rstFell { s with pending := .engine :: .rstHigh :: .engine :: rest }) =
      .next (rstFell { s with pending := .rstHigh :: .engine :: rest }) := step_resetWaits rfl (.inr rfl) rfl
  have hhigh : step (rstFell { s with pending := .rstHigh :: .engine :: rest }) =
      .next (rstRose (rstFell { s with pending := .engine :: rest })) := step_rstHigh rfl
  have hend : step (rstRose (rstFell { s with pending := .engine :: rest })) =
      .next { State.resetOf s.config with pending := rest, rdata := s.rdata } := step_resetEnds rfl (.inr rfl) rfl
  have htwo (k : Nat) : core.run (k + 2) s = core.run k (rstFell { s with pending := .rstHigh :: .engine :: rest }) :=
    (run_next hlow (k + 1)).trans (run_next hwait k)
  exact ⟨(htwo 2).trans ((run_next hhigh 1).trans (run_next hend 0)), _, htwo 0, rfl, State.irq_of_not_done rfl, rfl⟩

/-- Settles O46: CMD takes the word in the phase IDLE alone; while BUSY the write leaves its OVERRUN mark. -/
theorem cmdWriteIsAcceptedOnlyWhenIdle : Obligations.CmdWriteIsAcceptedOnlyWhenIdle := by
  intro s offset w rest ho hpend
  have hstep (hp : s.phase ≠ .resetting) : step s = .next (writeCmd w { s with pending := rest }) :=
    step_write hp (locate_of_word (t := .cmd) ho rfl) hpend
  refine ⟨fun hidle => ?_, fun hbusy => ?_⟩
  · have haccept : step s = .next (accepted w { s with pending := rest }) :=
      (hstep (by simp [hidle])).trans (congrArg Host.Outcome.next (writeCmd_idle hidle))
    exact ⟨haccept, _, haccept, hostReadValue_register .cmd nofun rfl rfl nofun, State.irq_of_not_done rfl⟩
  · exact (hstep (by simp [hbusy])).trans (congrArg Host.Outcome.next (writeCmd_busy hbusy))

/-- Settles O45: loading a slot clears the binding, without which XTS_PROCESS does nothing. -/
theorem rekeyingUnbindsXts : Obligations.RekeyingUnbindsXts := by
  intro s alg row mode n a hrow hr
  exact ⟨_, exec_cipherKey (legalCipher_of_row hrow) (keySize_of_row hrow) hr, rfl, rfl, exec_xtsProcess_notReady rfl,
    State.setSlot_buf n _ s⟩

end Sys2Proof.Proofs
end
